-- ==== Sys2Proof/Word.lean ====
section
/-! DEFINITION. The word types of the block (00_scope.md R17, R18): bytes, the 24-bit address field and the 32-bit
command word. Offsets, lengths and counts are `Nat` (R19: unbounded precision). -/

namespace Sys2Proof

/-- A byte: 8 bits, bit 7 the most significant (R18). Every unit of the channel is one byte (R17). -/
abbrev Byte := BitVec 8

/-- A wire address: the 24-bit address field of the command word (R17, R61). -/
abbrev Addr := BitVec 24

/-- The 32-bit command word (R17, R100). -/
abbrev Word := BitVec 32

end Sys2Proof
end

