-- ==== Sys2Proof/Config.lean ====
section
/-! DEFINITION. What an implementation fixes (00_scope.md R5 to R15), as ONE plain-data record held in the state and never
changed by a step, the enumeration of the eleven device instructions that `P_OPC` maps (R2, R12), and the free values
(the draws of the environment, R21, R81, U4 to U7, U20): opaque constants with no body. -/

namespace Sys2Proof

/-- The source's `Instruction` enumeration: the closed set of eleven device instructions (R2, R109). -/
inductive Opcode where
  | read
  | write
  | writeEnable
  | writeDisable
  | readStatus
  | writeStatus
  | pageErase
  | sectorErase
  | chipErase
  | releasePowerDown
  | deepSleep
  deriving DecidableEq, Repr

/-- The eleven instructions, in the order of the enumeration (R2). -/
def Opcode.all : List Opcode :=
  [.read, .write, .writeEnable, .writeDisable, .readStatus, .writeStatus, .pageErase, .sectorErase, .chipErase,
    .releasePowerDown, .deepSleep]

/-- `P_OPC` (R12): one opcode byte per instruction. -/
structure OpcodeMap where
  read : Byte
  write : Byte
  writeEnable : Byte
  writeDisable : Byte
  readStatus : Byte
  writeStatus : Byte
  pageErase : Byte
  sectorErase : Byte
  chipErase : Byte
  releasePowerDown : Byte
  deepSleep : Byte
  deriving DecidableEq, Repr

/-- `P_OPC(i)`: the opcode byte of instruction `i` (R12). -/
def OpcodeMap.get (m : OpcodeMap) : Opcode → Byte
  | .read => m.read
  | .write => m.write
  | .writeEnable => m.writeEnable
  | .writeDisable => m.writeDisable
  | .readStatus => m.readStatus
  | .writeStatus => m.writeStatus
  | .pageErase => m.pageErase
  | .sectorErase => m.sectorErase
  | .chipErase => m.chipErase
  | .releasePowerDown => m.releasePowerDown
  | .deepSleep => m.deepSleep

/-- The default opcode bytes of R102. PRESUMED: the spec takes them from general knowledge of the Microchip 25xx family
(log entry 4). -/
def OpcodeMap.default : OpcodeMap where
  read := 0x03
  write := 0x02
  writeEnable := 0x06
  writeDisable := 0x04
  readStatus := 0x05
  writeStatus := 0x01
  pageErase := 0x42
  sectorErase := 0xD8
  chipErase := 0xC7
  releasePowerDown := 0xAB
  deepSleep := 0xB9

/-- The configuration record `cfg` of 00_scope.md section 3; "nothing in it changes at run time". -/
structure Config where
  /-- `P_CAP` (R5): the device capacity in bytes. -/
  cap : Nat
  /-- `P_PAGE` (R6): the page size. -/
  page : Nat
  /-- `P_SLEEP` (R7): the variant has dedicated power-down support. -/
  sleep : Bool
  /-- `P_ID5` (R8): the identity frame has 5 bytes instead of 4. -/
  id5 : Bool
  /-- `P_SRPROT` (R9): INIT runs the status-protection sequence. -/
  srProt : Bool
  /-- `P_HOLD` (R10): the HOLD operation is admitted. -/
  hold : Bool
  /-- `P_MANUF` (R11): the known manufacturer code. -/
  manuf : Byte
  /-- `P_OPC` (R12). -/
  opc : OpcodeMap
  /-- `P_POLL` (R13): `none`, or the bound on the status reads of one busy-wait. -/
  poll : Option Nat
  /-- `P_CSERR` (R14): chip-select is deasserted after a channel call of a frame failed. -/
  csErr : Bool
  /-- `P_INITSR` (R15), a function from byte to byte as plain data: the pairs at which it differs from its default
  `fun s => SR_SET_PL(s, None)`. Every function on bytes is one such list. -/
  initSr : List (Byte × Byte)
  deriving DecidableEq, Repr

/-- Configuration C0 of 95_test_vectors.md. It is the configuration of `State.reset` (DESIGN CHOICE, log entry 3); no
statement is made for it alone. -/
def Config.c0 : Config where
  cap := 1024
  page := 16
  sleep := false
  id5 := false
  srProt := false
  hold := true
  manuf := 0x29
  opc := OpcodeMap.default
  poll := none
  csErr := false
  initSr := []

/-! ### Free values

Each is a draw of the environment. A draw is taken at a counter of the state that the draw advances, so two draws are
never the same application; nothing in Lean can evaluate one (log entry 2). -/

/-- The outcome of the `n`-th event whose outcome no script gives: `true` for `ok`, `false` for `fail` (R21, R150, U6). -/
opaque Config.freeOutcome : Nat → Bool

/-- The `n`-th received byte that no rule and no script gives (R81, R97, R167, U5). -/
opaque Config.freeByte : Nat → Byte

/-- `K_BUSY` of the `n`-th accepted write cycle that no script gives (R92, U20). -/
opaque Config.freeCycle : Nat → Nat

/-- The array contents of the reference device after a failed frame (R83, R240, U7). -/
opaque Config.freeCells : Nat → List (Nat × Byte)

/-- A status bit or mode bit of the reference device after a failed frame (R83, U7): bit `i` of the `n`-th such draw. -/
opaque Config.freeBit : Nat → Nat → Bool

/-- How many more status reads report busy after a failed frame (R83, U7). -/
opaque Config.freeWip : Nat → Nat

/-- What the reference device holds of the frame in progress after a failed frame (R83, U7). -/
opaque Config.freeWindow : Nat → List Byte

end Sys2Proof
end

