-- ==== Sys2Proof/Syntax.lean ====
section
/-! DEFINITION. The instructions: one constructor per row of opcode_table.json (the eleven device instructions, each sent as
one frame, 30_encoding.md R102, R104). -/

namespace Sys2Proof

/-- One device instruction with everything its frame carries (R104): the bytes between a chip-select assertion and the
following deassertion. -/
inductive Instr where
  /-- `I_READ` (FMT_AR): address, and the bytes sent during the data phase, which are the host buffer's prior contents
  (R105); as many bytes are received. -/
  | read (a : Addr) (buf : List Byte)
  /-- `I_WRITE` (FMT_AT): address and payload. -/
  | write (a : Addr) (d : List Byte)
  /-- `I_WREN` (FMT_C). -/
  | wren
  /-- `I_WRDI` (FMT_C). -/
  | wrdi
  /-- `I_RDSR` (FMT_SR). -/
  | rdsr
  /-- `I_WRSR` (FMT_SW): the status byte written. -/
  | wrsr (v : Byte)
  /-- `I_PE` (FMT_A): erase the page that holds the address. -/
  | pe (a : Addr)
  /-- `I_SE` (FMT_A): erase the sector that holds the address. -/
  | se (a : Addr)
  /-- `I_CE` (FMT_A): erase the chip; the address is sent all the same (R165). -/
  | ce (a : Addr)
  /-- `I_RPD` (FMT_ID): release from deep-sleep and read the identity byte. -/
  | rpd
  /-- `I_DPD` (FMT_C): deep-sleep. -/
  | dpd
  deriving DecidableEq, Repr

/-- The member of the source's enumeration that a frame's instruction is (R102). -/
def Instr.opcode : Instr → Opcode
  | .read _ _ => .read
  | .write _ _ => .write
  | .wren => .writeEnable
  | .wrdi => .writeDisable
  | .rdsr => .readStatus
  | .wrsr _ => .writeStatus
  | .pe _ => .pageErase
  | .se _ => .sectorErase
  | .ce _ => .chipErase
  | .rpd => .releasePowerDown
  | .dpd => .deepSleep

end Sys2Proof
end

