-- ==== Sys2Proof/Request.lean ====
section
/-! DEFINITION. The host operations (30_encoding.md R111): the requests the block accepts on its request port (10_state.md
R38). A request is a record of a name and raw operands, so that a request the block gives no meaning can be written down
and refused by its reason (R113, R114, R237). -/

namespace Sys2Proof

/-- `EraseGranularity` (R103). -/
inductive Granularity where
  | page
  | sector
  | chip
  deriving DecidableEq, Repr

/-- The protection levels, status bits 3:2 (R41, R107). -/
inductive Protection where
  | none
  | quarter
  | half
  | all
  deriving DecidableEq, Repr

/-- The host operations that run as a sequence of events, so that `S.pc` can be `Op(o, k)` for them (R34, R111). -/
inductive OpName where
  | init
  | readStatus
  | writeStatus
  | writeEnable
  | writeDisable
  | read
  | write
  | erase
  | deepSleep
  | wake
  | hold
  | unhold
  | storeRead
  | storeWrite
  deriving DecidableEq, Repr

/-- A request (R38, R111). A numeric operand is a natural number that may be out of its width; an operand drawn from a
closed set is `none` when it is no member of the set (R114). -/
inductive Request where
  | init
  | readStatus
  | writeStatus (v : Nat)
  | writeEnable
  | writeDisable
  | read (a : Nat) (buf : List Byte)
  | write (a : Nat) (d : List Byte)
  | erase (a : Nat) (g : Option Granularity)
  | deepSleep
  | wake
  | hold
  | unhold
  | storeRead (off : Nat) (buf : List Byte)
  | storeWrite (off : Nat) (d : List Byte)
  | encode (i : Option Opcode) (a : Nat)
  | srBusy (b : Nat)
  | srWel (b : Nat)
  | srPl (b : Nat)
  | srWpen (b : Nat)
  | srSetPl (b : Nat) (l : Option Protection)
  | srSetWpen (b e : Nat)
  /-- A request whose operation name is not in R111's table (R113). -/
  | unknown (name : String)
  deriving DecidableEq, Repr

end Sys2Proof
end

