-- ==== Sys2Proof/WellFormed.lean ====
section
/-! DEFINITION. Well-formedness: of a configuration (00_scope.md R5, R6, R12, R13; refused as `BadConfig`, R237) and of a
request's operands (30_encoding.md R114; refused as `BadOperand`). An `Instr` is well formed by its types: an address has
24 bits, a status byte 8, a payload is a byte sequence of any length (R163, R164: no length limit). -/

namespace Sys2Proof

/-- `P_OPC` is injective (R12): its eleven bytes are pairwise different. -/
def OpcodeMap.injective (m : OpcodeMap) : Bool :=
  decide (Opcode.all.map m.get).Nodup

/-- R5: `1 <= P_CAP < 2^24`. -/
def Config.capOk (c : Config) : Bool :=
  decide (1 ≤ c.cap ∧ c.cap < 2 ^ 24)

/-- R6: `P_PAGE` is one of 16, 32, 64, 128, 256. -/
def Config.pageOk (c : Config) : Bool :=
  [16, 32, 64, 128, 256].contains c.page

/-- R13: `P_POLL` is `none` or a positive natural number. -/
def Config.pollOk (c : Config) : Bool :=
  c.poll != some 0

/-- A configuration the block runs under; any other is refused (R6, R237 `BadConfig`). -/
def Config.wf (c : Config) : Bool :=
  c.capOk && c.pageOk && c.opc.injective && c.pollOk

/-- The operation name is in R111's table. -/
def Request.known : Request → Bool
  | .unknown _ => false
  | _ => true

/-- R114: an address operand fits 24 bits, a byte operand 8 bits, a bit operand 1 bit, and an operand of a closed set is a
member of it. Offsets and buffer lengths are unrestricted. -/
def Request.operandsOk : Request → Bool
  | .writeStatus v => v < 2 ^ 8
  | .read a _ => a < 2 ^ 24
  | .write a _ => a < 2 ^ 24
  | .erase a g => a < 2 ^ 24 && g.isSome
  | .encode i a => i.isSome && a < 2 ^ 24
  | .srBusy b => b < 2 ^ 8
  | .srWel b => b < 2 ^ 8
  | .srPl b => b < 2 ^ 8
  | .srWpen b => b < 2 ^ 8
  | .srSetPl b l => b < 2 ^ 8 && l.isSome
  | .srSetWpen b e => b < 2 ^ 8 && e < 2
  | _ => true

/-- The sequenced operation a request names, or `none` for a combinational one (40_encoder_and_status.md R141). -/
def Request.opName : Request → Option OpName
  | .init => some .init
  | .readStatus => some .readStatus
  | .writeStatus _ => some .writeStatus
  | .writeEnable => some .writeEnable
  | .writeDisable => some .writeDisable
  | .read _ _ => some .read
  | .write _ _ => some .write
  | .erase _ _ => some .erase
  | .deepSleep => some .deepSleep
  | .wake => some .wake
  | .hold => some .hold
  | .unhold => some .unhold
  | .storeRead _ _ => some .storeRead
  | .storeWrite _ _ => some .storeWrite
  | _ => none

/-- The driver operations that R180 refuses in mode Held because they issue a frame. -/
def OpName.framedDriver : OpName → Bool
  | .readStatus | .writeStatus | .writeEnable | .writeDisable | .read | .write | .erase | .deepSleep | .wake => true
  | _ => false

end Sys2Proof
end

