-- ==== Sys2Proof/Decode.lean ====
section
/-! DEFINITION. The command word (30_encoding.md R100), the decoder of a frame (R106: the instruction by byte 0, the format by
R102's table, the data length by the frame's), total on any bytes and rejecting by name, and the encoder after it (R104,
R105). Both follow the configuration's `P_OPC` and `P_ID5`. -/

namespace Sys2Proof

/-- `zeros(n)` (R20). -/
def zeroBytes (n : Nat) : List Byte :=
  List.replicate n 0x00

/-- `be32(w)` (R20, R65): the four bytes of a word, most significant first. -/
def be32 (w : Word) : List Byte :=
  [w.extractLsb' 24 8, w.extractLsb' 16 8, w.extractLsb' 8 8, w.extractLsb' 0 8]

/-- `ENCODE i, a` (R100, R130): the opcode byte in bits 31:24, the address in bits 23:0. -/
def commandWord (m : OpcodeMap) (i : Opcode) (a : Addr) : Word :=
  ((m.get i).setWidth 32 <<< 24) ||| a.setWidth 32

/-- The 4-byte header of an address-qualified frame (R101). -/
def header (m : OpcodeMap) (i : Opcode) (a : Addr) : List Byte :=
  be32 (commandWord m i a)

/-- How many dummy bytes follow the opcode of an identity frame (R104 FMT_ID, R166): 4 when `P_ID5`, else 3. -/
def idDummies (c : Config) : Nat :=
  if c.id5 then 4 else 3

/-- The address of three header bytes, most significant first (R105). -/
def addrOf (b2 b1 b0 : Byte) : Addr :=
  b2 ++ b1 ++ b0

/-- The instruction whose opcode byte is `b`, if there is one (R106, R109). -/
def opcodeOf (m : OpcodeMap) (b : Byte) : Option Opcode :=
  Opcode.all.find? (fun i => m.get i == b)

/-- Why a byte sequence is no frame of the block. -/
inductive DecodeError where
  /-- A frame of no bytes. -/
  | empty
  /-- Byte 0 is no value of `P_OPC` (R109). -/
  | unknownOpcode (b : Byte)
  /-- The length is none that the instruction's format has (R104). -/
  | badLength (i : Opcode)
  /-- A dummy byte of FMT_SR or FMT_ID is not `0x00` (R105). -/
  | badDummy (i : Opcode)
  deriving DecidableEq, Repr

/-- A frame with nothing after its opcode byte (FMT_C). -/
def decodeBare (i : Opcode) (r : Instr) : List Byte → Except DecodeError Instr
  | [] => .ok r
  | _ :: _ => .error (.badLength i)

/-- A frame whose opcode byte is followed by `n` dummy bytes (FMT_SR, FMT_ID). -/
def decodeDummies (i : Opcode) (n : Nat) (r : Instr) (rest : List Byte) : Except DecodeError Instr :=
  if rest.length ≠ n then .error (.badLength i)
  else if rest ≠ zeroBytes n then .error (.badDummy i)
  else .ok r

/-- A frame with one status byte after its opcode (FMT_SW). -/
def decodeValue (i : Opcode) (f : Byte → Instr) : List Byte → Except DecodeError Instr
  | [v] => .ok (f v)
  | _ => .error (.badLength i)

/-- A header and nothing after it (FMT_A). -/
def decodeAddr (i : Opcode) (f : Addr → Instr) : List Byte → Except DecodeError Instr
  | [b2, b1, b0] => .ok (f (addrOf b2 b1 b0))
  | _ => .error (.badLength i)

/-- A header and the data after it, of any length (FMT_AR, FMT_AT). -/
def decodeAddrData (i : Opcode) (f : Addr → List Byte → Instr) : List Byte → Except DecodeError Instr
  | b2 :: b1 :: b0 :: d => .ok (f (addrOf b2 b1 b0) d)
  | _ => .error (.badLength i)

/-- The rest of a frame whose byte 0 is the opcode of `i`, read in the format R102 gives `i`. -/
def decodeBody (c : Config) (i : Opcode) (rest : List Byte) : Except DecodeError Instr :=
  match i with
  | .read => decodeAddrData i .read rest
  | .write => decodeAddrData i .write rest
  | .writeEnable => decodeBare i .wren rest
  | .writeDisable => decodeBare i .wrdi rest
  | .readStatus => decodeDummies i 1 .rdsr rest
  | .writeStatus => decodeValue i .wrsr rest
  | .pageErase => decodeAddr i .pe rest
  | .sectorErase => decodeAddr i .se rest
  | .chipErase => decodeAddr i .ce rest
  | .releasePowerDown => decodeDummies i (idDummies c) .rpd rest
  | .deepSleep => decodeBare i .dpd rest

/-- The instruction of a frame (R106). -/
def decode (c : Config) : List Byte → Except DecodeError Instr
  | [] => .error .empty
  | b :: rest =>
    match opcodeOf c.opc b with
    | none => .error (.unknownOpcode b)
    | some i => decodeBody c i rest

/-- The bytes a frame sends, in order (R104). -/
def encode (c : Config) : Instr → List Byte
  | .read a buf => header c.opc .read a ++ buf
  | .write a d => header c.opc .write a ++ d
  | .wren => [c.opc.get .writeEnable]
  | .wrdi => [c.opc.get .writeDisable]
  | .rdsr => [c.opc.get .readStatus, 0x00]
  | .wrsr v => [c.opc.get .writeStatus, v]
  | .pe a => header c.opc .pageErase a
  | .se a => header c.opc .sectorErase a
  | .ce a => header c.opc .chipErase a
  | .rpd => c.opc.get .releasePowerDown :: zeroBytes (idDummies c)
  | .dpd => [c.opc.get .deepSleep]

/-! ### Opcode-table words

A row of the table is one word of 8, 16 or 32 bits whose most significant byte goes onto the wire first (R65, R100). -/

/-- The shortest frame of an instruction (R104). -/
def minFrameLength (c : Config) : Opcode → Nat
  | .writeEnable | .writeDisable | .deepSleep => 1
  | .readStatus | .writeStatus => 2
  | .releasePowerDown => 1 + idDummies c
  | _ => 4

/-- The low `8 * n` bits of a number as `n` bytes, most significant first. -/
def beBytes : Nat → Nat → List Byte
  | 0, _ => []
  | n + 1, w => BitVec.ofNat 8 (w / 2 ^ (8 * n)) :: beBytes n w

/-- The frame of an opcode-table word of `nbits` bits: its bytes, and zero bytes after them up to the shortest frame of its
instruction. -/
def tableFrame (c : Config) (nbits w : Nat) : List Byte :=
  let bs := beBytes (nbits / 8) w
  match bs with
  | [] => []
  | b :: _ =>
    match opcodeOf c.opc b with
    | none => bs
    | some i => bs ++ zeroBytes (minFrameLength c i - bs.length)

/-- The instruction the decoder reads from an opcode-table word, under the default opcodes the table is written in. -/
def decodeTableWord (nbits w : Nat) : Option Instr :=
  match decode Config.c0 (tableFrame Config.c0 nbits w) with
  | .ok i => some i
  | .error _ => none

end Sys2Proof
end

