-- ==== Sys2Proof/Machine/State.lean ====
section
/-! DEFINITION. The state of the block (10_state.md R30 to R36), the host interface registers (R38), what the model keeps as
parameter or observation (R30: configuration, host buffer, event trace), the environment's draws (R21), the optional
reference device (20_memory.md R82), and the reasons a step can stop. -/

namespace Sys2Proof.Machine

/-- `S.life` (R31). -/
inductive Life where
  | uninit
  | ready
  | dead
  deriving DecidableEq, Repr

/-- `S.mode` (R32). -/
inductive Mode where
  | unknown
  | active
  | deepSleep
  | held
  deriving DecidableEq, Repr

/-- The level a signal event drives (R21). -/
inductive Level where
  | asserted
  | deasserted
  deriving DecidableEq, Repr

/-- The level the block last drove successfully on an output (R33). -/
inductive Pin where
  | unknown
  | asserted
  | deasserted
  deriving DecidableEq, Repr

/-- The three output signals (R21). -/
inductive Signal where
  | cs
  | wp
  | hold
  deriving DecidableEq, Repr

/-- The error kinds (R230). -/
inductive ErrorKind where
  | transportError
  | signalError
  | deviceBusy
  | wrongIdentity
  | outOfRange
  | writeTimeout
  deriving DecidableEq, Repr

/-- The value of a completed operation (R38, R111). -/
inductive Value where
  | unit
  | byte (b : Byte)
  | bytes (bs : List Byte)
  | word (w : Word)
  | bit (b : Bool)
  | level (l : Protection)
  deriving DecidableEq, Repr

/-- The discriminated result of an operation (R38). -/
inductive Result where
  | ok (v : Value)
  | err (e : ErrorKind)
  deriving DecidableEq, Repr

/-- `S.pc`, the sequencer phase (R34): `k` counts the events operation `o` has issued. -/
inductive Phase where
  | idle
  | op (o : OpName) (k : Nat)
  deriving DecidableEq, Repr

/-- An event the block issued, with the outcome drawn for it (R21). -/
inductive Event where
  | sig (x : Signal) (l : Level) (ok : Bool)
  | write (bs : List Byte) (ok : Bool)
  /-- `rs` is what was received, or `none` for outcome `fail` (R152: nothing is delivered). -/
  | xfer (bs : List Byte) (rs : Option (List Byte))
  deriving DecidableEq, Repr

/-- One line of a host operation's rule (R34: "in the order its rule lists them"): an event, a frame, or a step of its
pseudocode that issues no event. -/
inductive Line where
  /-- `Sig(x, l)`. -/
  | sig (x : Signal) (l : Level)
  /-- One frame, as the bytes it sends (R104). -/
  | frame (bs : List Byte)
  /-- `S.mode <- m` (R196). -/
  | setMode (m : Mode)
  /-- `if S.mode = Held then S.mode <- Active` (R195, R218). -/
  | leaveHeld
  /-- `if id != P_MANUF: raise WrongIdentity` (R181). -/
  | checkIdentity
  /-- `if SR_BUSY(s) = 1: raise DeviceBusy` (R191). -/
  | checkBusy
  /-- `F_WRSR(P_INITSR(s))` (R183). -/
  | writeInitStatus
  /-- `S.life <- Ready` (R181). -/
  | becomeReady
  /-- `if off + len > P_CAP: raise OutOfRange` (R210). -/
  | checkRange (off len : Nat)
  /-- `S.cur <- off; S.idx <- 0` (R213). -/
  | startCursor (off : Nat)
  /-- `while S.idx < L` and its body (R213). -/
  | burstLoop
  /-- `S.n <- chunk(S.cur, L - S.idx)` (R213). -/
  | sizeBurst
  /-- `F_WRITE(S.cur, MemRead(d, S.idx, S.n))` (R213). -/
  | writeBurst
  /-- `S.cur <- S.cur + S.n; S.idx <- S.idx + S.n` (R213). -/
  | advanceCursor
  /-- `S.polls <- 0` (R214). -/
  | startPoll
  /-- `loop: s <- F_RDSR()` (R214). -/
  | poll
  /-- `S.polls <- S.polls + 1` and the two tests after it (R214). -/
  | testPoll
  /-- `return v` (R22). -/
  | ret (v : Value)
  /-- `return` the byte received in the operation's last status or identity frame (R185, R193). -/
  | retByte
  /-- `return rs`, the bytes received into the host buffer (R189, R212). -/
  | retBuffer
  deriving DecidableEq, Repr

/-- The draws of the environment (R21, R150, R167). A script gives the next ones, oldest first; past its end each is a free
value of Config at the counter of its kind. -/
structure Env where
  /-- Outcomes of the next events: `true` for `ok`. -/
  outcomes : List Bool
  /-- The next received bytes that no rule names. -/
  bytes : List Byte
  /-- `K_BUSY` of the next accepted write cycles (R92). -/
  cycles : List Nat
  /-- How many outcomes, bytes, cycles and device states were drawn from the free values. -/
  outcomeCount : Nat
  byteCount : Nat
  cycleCount : Nat
  deviceCount : Nat
  deriving DecidableEq, Repr

/-- A memory: (address, byte) pairs in one canonical form, addresses strictly rising and no entry equal to `Memory.blank`. -/
abbrev Memory := List Host.Cell

/-- The reference device (R82) with its two parameters (R16) and the bytes it has received in the present chip-select window
(R83). -/
structure Device where
  /-- `P_SECTOR` (R16, OPEN: a parameter of the reference model only). -/
  sector : Nat
  /-- `P_ERASED` (R16). -/
  erased : Byte
  /-- `D.arr`: `P_CAP` bytes. -/
  arr : Memory
  /-- `D.wel`. -/
  wel : Bool
  /-- `D.pl`. -/
  pl : BitVec 2
  /-- `D.wpen`. -/
  wpen : Bool
  /-- `D.hi`: the unnamed status bits 6:4. -/
  hi : BitVec 3
  /-- `D.wip`: how many more status reads report busy. -/
  wip : Nat
  /-- `D.asleep`. -/
  asleep : Bool
  /-- The bytes `m` received since chip-select was asserted (R83). -/
  window : List Byte
  deriving DecidableEq, Repr

/-- What answers at the other end of the channel (R81): any device at all, every byte a draw; or the optional reference
device. -/
inductive Link where
  | oracle
  | reference (d : Device)
  deriving DecidableEq, Repr

/-- The whole state: plain data. -/
structure State where
  /-- The configuration record (00_scope.md section 3): a parameter, never changed by a step. -/
  cfg : Config
  /-- `S.life` (R31). -/
  life : Life
  /-- `S.mode` (R32). -/
  mode : Mode
  /-- `S.cs` (R33). -/
  cs : Pin
  /-- `S.wp` (R33). -/
  wp : Pin
  /-- `S.hold` (R33). -/
  hold : Pin
  /-- `S.pc` (R34). -/
  pc : Phase
  /-- `S.cur` (R35): the current device offset of a storage operation. -/
  cur : Nat
  /-- `S.idx` (R35): the current index into the host buffer. -/
  idx : Nat
  /-- `S.n` (R35): the size of the current burst. -/
  n : Nat
  /-- `S.polls` (R35): the status reads in the current busy-wait. -/
  polls : Nat
  /-- The lines of the running operation's rule that are still to come: the place in the rule that `S.pc`'s `k` alone does
  not give (R34). Its head is what the next step runs. -/
  todo : List Line
  /-- The byte the running operation received in its last status or identity frame: `none` between operations (R36), but for a
frame placed from outside while the block is idle (log entries 8 and 24). -/
  got : Option Byte
  /-- The host buffer of the request (R64). -/
  buf : List Byte
  /-- The result port (R38): the answer of the last completed operation; `none` while one runs and before the first. -/
  result : Option Result
  /-- The requests the host will issue, each when the one before it has ended (R74). -/
  program : List Request
  /-- A request the host presents now, whether the block is idle or not (R38, R180). -/
  port : Option Request
  /-- The environment's draws (R21). -/
  env : Env
  /-- The device at the other end of the channel (R81). -/
  link : Link
  /-- The events issued so far, oldest first: the observation (R24, R30). -/
  trace : List Event
  deriving DecidableEq, Repr

/-- The array the device holds: empty of entries when the device is the oracle. -/
def State.memory (s : State) : Memory :=
  match s.link with
  | .oracle => []
  | .reference d => d.arr

/-- Why the machine stops for good. -/
inductive Fault where
  /-- Raised by `step` when a failed INIT has left `S.life = Dead` and the host has no further request: "a model treats a run
  that reaches it as ended by a fault, not as a good end" (R249, D48). Safe. -/
  | deadBlock
  deriving DecidableEq, Repr

/-- Why a request or an instruction is given no meaning (R237). -/
inductive Refusal where
  /-- The instruction has no meaning yet. Raised by exec only; no arm raises it. Safe. -/
  | notModelled (mnemonic : String)
  /-- A request while `S.pc != Idle` (R180). Raised by `accept`. Safe. -/
  | operationInProgress
  /-- An operation name outside R111 (R113). Raised by `accept`. Safe. -/
  | unknownOperation
  /-- An operand outside its width or set (R114). Raised by `accept`. Safe. -/
  | badOperand
  /-- INIT when `S.life != Uninit` (R180). Raised by `accept`. Safe. -/
  | alreadyInitialised
  /-- A non-combinational operation but INIT when `S.life != Ready` (R180). Raised by `accept`. Safe. -/
  | notReady
  /-- A framed driver operation in mode Held (R180), and any frame in mode Held (R156). Raised by `accept` and by each of the
  eleven meanings. Safe. -/
  | heldTransaction
  /-- DEEP_SLEEP when `P_SLEEP` is false (R180). Raised by `accept`. Safe. -/
  | noDeepSleep
  /-- HOLD when `P_HOLD` is false (R180). Raised by `accept`. Safe. -/
  | noHold
  /-- HOLD when `S.mode != Active` (R180). Raised by `accept`. Safe. -/
  | holdNotActive
  /-- A configuration breaking R5, R6, R12 or R13 (R237). Raised by `step`. Safe. -/
  | badConfig
  /-- The bytes of a frame line decode to no instruction: the block never emits such a frame (R109), so no operation of the
  block places one. Raised by `step`. Safe. -/
  | noInstruction (e : DecodeError)
  deriving DecidableEq, Repr

/-- No script, nothing drawn yet. -/
def Env.start : Env where
  outcomes := []
  bytes := []
  cycles := []
  outcomeCount := 0
  byteCount := 0
  cycleCount := 0
  deviceCount := 0

/-- The block right after its construction under configuration `c` (R47, R260). R47 leaves `S.cur`, `S.idx`, `S.n`,
`S.polls` unspecified: 0 here (DESIGN CHOICE, log entry 1). -/
def State.resetWith (c : Config) : State where
  cfg := c
  life := .uninit
  mode := .unknown
  cs := .unknown
  wp := .unknown
  hold := .unknown
  pc := .idle
  cur := 0
  idx := 0
  n := 0
  polls := 0
  todo := []
  got := none
  buf := []
  result := none
  program := []
  port := none
  env := Env.start
  link := .oracle
  trace := []

/-- The machine right after reset, under configuration C0 (log entry 3). -/
def State.reset : State :=
  State.resetWith Config.c0

end Sys2Proof.Machine
end

