-- ==== Sys2Proof/Machine/Flags.lean ====
section
/-! DEFINITION. The status-register codec (40_encoder_and_status.md R133 to R138), the block's only flag computations (R46),
and the status byte INIT writes (00_scope.md R15). -/

namespace Sys2Proof.Machine

/-- The protection level of a 2-bit code (R107): exhaustive, no default arm (R135, U9). -/
def levelOf (c : BitVec 2) : Protection :=
  match c with
  | 0b00#2 => .none
  | 0b01#2 => .quarter
  | 0b10#2 => .half
  | 0b11#2 => .all

/-- The 2-bit code of a protection level (R107). -/
def codeOf : Protection → BitVec 2
  | .none => 0b00
  | .quarter => 0b01
  | .half => 0b10
  | .all => 0b11

/-- `SR_BUSY b` (R133): bit 0. -/
def srBusy (b : Byte) : Bool :=
  b.getLsbD 0

/-- `SR_WEL b` (R134): bit 1. -/
def srWel (b : Byte) : Bool :=
  b.getLsbD 1

/-- `SR_PL b` (R135): the level in bits 3:2. -/
def srPl (b : Byte) : Protection :=
  levelOf (b.extractLsb' 2 2)

/-- `SR_WPEN b` (R136): bit 7. -/
def srWpen (b : Byte) : Bool :=
  b.getLsbD 7

/-- `SR_SET_PL b, l` (R137): bits 3:2 replaced, every other bit copied. -/
def srSetPl (b : Byte) (l : Protection) : Byte :=
  (b &&& 0xF3) ||| ((codeOf l).setWidth 8 <<< 2)

/-- `SR_SET_WPEN b, e` (R138): bit 7 replaced, every other bit copied. -/
def srSetWpen (b : Byte) (e : Bool) : Byte :=
  (b &&& 0x7F) ||| ((BitVec.ofBool e).setWidth 8 <<< 7)

/-- `P_INITSR(s)` (R15): the byte INIT writes in the status-protection sequence. -/
def initStatus (c : Config) (s : Byte) : Byte :=
  (c.initSr.lookup s).getD (srSetPl s .none)

end Sys2Proof.Machine
end

