-- ==== Sys2Proof/Machine/Operands.lean ====
section
/-! DEFINITION. Operand forms: the erase granularity (30_encoding.md R103), the host buffer (00_scope.md R22, 20_memory.md R64),
the bound check and the chunk size of the storage operations (43_storage_operations.md R210, R211), request operands as wire
fields (30_encoding.md R114), and the numeric result codes (60_exceptions.md R230). -/

namespace Sys2Proof.Machine

/-- `gop(g)` (R103). -/
def granularityOpcode : Granularity → Opcode
  | .page => .pageErase
  | .sector => .sectorErase
  | .chip => .chipErase

/-- The erase instruction of a granularity (R103, R165). -/
def eraseInstr (g : Granularity) (a : Addr) : Instr :=
  match g with
  | .page => .pe a
  | .sector => .se a
  | .chip => .ce a

/-- `MemRead(buf, i, n)` (R22): `n` bytes of the host buffer from index `i`. -/
def memRead (buf : List Byte) (i n : Nat) : List Byte :=
  (buf.drop i).take n

/-- `MemWrite(buf, i, bs)` (R22): `bs` written into the host buffer from index `i`. -/
def memWrite (buf : List Byte) (i : Nat) (bs : List Byte) : List Byte :=
  buf.take i ++ bs ++ buf.drop (i + bs.length)

/-- R210: the request lies inside the capacity, in unbounded naturals. -/
def inRange (c : Config) (off len : Nat) : Bool :=
  off + len ≤ c.cap

/-- `chunk(cur, rem)` (R211). -/
def chunk (page cur rem : Nat) : Nat :=
  min rem (page - cur % page)

/-- A checked address operand as the 24 bits that go onto the wire (R19, R114). -/
def addrField (a : Nat) : Addr :=
  BitVec.ofNat 24 a

/-- A checked byte operand (R114). -/
def byteField (v : Nat) : Byte :=
  BitVec.ofNat 8 v

/-- The numeric code of a result (R230, D26). -/
def resultCode : Result → Nat
  | .ok _ => 0
  | .err .transportError => 1
  | .err .signalError => 2
  | .err .deviceBusy => 3
  | .err .wrongIdentity => 4
  | .err .outOfRange => 5
  | .err .writeTimeout => 6

end Sys2Proof.Machine
end

