-- ==== Sys2Proof/Machine/Memory.lean ====
section
/-! DEFINITION. The byte memory behind `D.arr` (20_memory.md R61, R82): a list of cells in one canonical form. What an
unlisted address reads as is `Memory.blank` and nothing else; it names no content of a device, since a reference device is
attached with any cells at all (log entry 6). -/

namespace Sys2Proof.Machine

/-- What an unlisted address reads as: the default of `P_ERASED` (R16). -/
def Memory.blank : Byte := 0xFF

/-- One byte. -/
def Memory.read : Memory → Nat → Byte
  | [], _ => Memory.blank
  | (k, v) :: rest, a => if k = a then v else Memory.read rest a

/-- The cells with `b` at `a`, in canonical form when the list was: writing the blank byte removes the entry. -/
def Memory.write : Memory → Nat → Byte → Memory
  | [], a, b => if b = Memory.blank then [] else [(a, b)]
  | (k, v) :: rest, a, b =>
    if k < a then (k, v) :: Memory.write rest a b
    else if k = a then (if b = Memory.blank then rest else (a, b) :: rest)
    else (if b = Memory.blank then (k, v) :: rest else (a, b) :: (k, v) :: rest)

/-- Writes in order: a later byte at the same address overwrites an earlier one (R89). -/
def Memory.writeAll : Memory → List (Nat × Byte) → Memory
  | m, [] => m
  | m, (a, b) :: rest => Memory.writeAll (Memory.write m a b) rest

/-- `n` bytes from address `lo` all become `b` (R91). -/
def Memory.fill : Memory → Nat → Nat → Byte → Memory
  | m, _, 0, _ => m
  | m, lo, n + 1, b => Memory.fill (Memory.write m lo b) (lo + 1) n b

/-- Every address of the list is at least `lo`, addresses strictly rise, and no entry is blank. -/
def Memory.wfFrom : Nat → Memory → Bool
  | _, [] => true
  | lo, (k, v) :: rest => decide (lo ≤ k) && v != Memory.blank && Memory.wfFrom (k + 1) rest

/-- The canonical form. -/
def Memory.wf (m : Memory) : Bool :=
  Memory.wfFrom 0 m

/-- Every listed address exists: it is below the capacity (R61, R72). -/
def Memory.below (cap : Nat) (m : Memory) : Bool :=
  m.all (fun c => decide (c.1 < cap))

/-- A memory of the given contents, whatever their order; cells at or past `cap` do not exist. -/
def Memory.ofCells (cap : Nat) (cells : List (Nat × Byte)) : Memory :=
  Memory.writeAll [] (cells.filter (fun c => decide (c.1 < cap)))

end Sys2Proof.Machine
end

