-- ==== Sys2Proof/Machine/Draws.lean ====
section
/-! DEFINITION. Taking a draw (00_scope.md R21, 41_frame_protocol.md R150, R167, 20_memory.md R92, R83): the script's next
entry, or the free value at the counter of its kind, which the draw advances. -/

namespace Sys2Proof.Machine

/-- The outcome of the next event (R150). -/
def Env.drawOutcome (e : Env) : Bool × Env :=
  match e.outcomes with
  | ok :: rest => (ok, { e with outcomes := rest })
  | [] => (Config.freeOutcome e.outcomeCount, { e with outcomeCount := e.outcomeCount + 1 })

/-- A received byte that no rule names (R97, R167). -/
def Env.drawByte (e : Env) : Byte × Env :=
  match e.bytes with
  | b :: rest => (b, { e with bytes := rest })
  | [] => (Config.freeByte e.byteCount, { e with byteCount := e.byteCount + 1 })

/-- `K_BUSY` of an accepted write cycle (R92). -/
def Env.drawCycle (e : Env) : Nat × Env :=
  match e.cycles with
  | k :: rest => (k, { e with cycles := rest })
  | [] => (Config.freeCycle e.cycleCount, { e with cycleCount := e.cycleCount + 1 })

/-- The next `n` event outcomes are all `ok`. -/
def Env.okNext : Nat → Env → Bool
  | 0, _ => true
  | n + 1, e => e.drawOutcome.1 && Env.okNext n e.drawOutcome.2

/-- The state of the reference device after a failed frame (R83, R240): every part of it a draw but its two parameters, with
no address at or past `cap`. -/
def Env.drawDevice (cap : Nat) (d : Device) (e : Env) : Device × Env :=
  let k := e.deviceCount
  ({ d with
      arr := Memory.ofCells cap (Config.freeCells k)
      wel := Config.freeBit k 1
      pl := BitVec.ofBool (Config.freeBit k 3) ++ BitVec.ofBool (Config.freeBit k 2)
      wpen := Config.freeBit k 7
      hi := BitVec.ofBool (Config.freeBit k 6) ++ (BitVec.ofBool (Config.freeBit k 5) ++ BitVec.ofBool (Config.freeBit k 4))
      wip := Config.freeWip k
      asleep := Config.freeBit k 8
      window := Config.freeWindow k },
    { e with deviceCount := k + 1 })

end Sys2Proof.Machine
end

