-- ==== Sys2Proof/Machine/Device.lean ====
section
/-! DEFINITION. The device reference model (20_memory.md R82 to R99), "for simulation only": one oracle among all that R81
allows. No operation of the block reads it but through the bytes it answers. -/

namespace Sys2Proof.Machine

/-- `sr(D)` (R82): the status byte the device reports. -/
def Device.status (d : Device) : Byte :=
  ((BitVec.ofBool d.wpen).setWidth 8 <<< 7) ||| (d.hi.setWidth 8 <<< 4) ||| (d.pl.setWidth 8 <<< 2) |||
    ((BitVec.ofBool d.wel).setWidth 8 <<< 1) ||| (BitVec.ofBool (decide (0 < d.wip))).setWidth 8

/-- Whether the device takes a frame of this instruction: asleep it ignores all but ReleasePowerDown (R84), busy all but
ReadStatus (R85). -/
def Device.listens (d : Device) (i : Opcode) : Bool :=
  (!d.asleep || i == .releasePowerDown) && (d.wip == 0 || i == .readStatus)

/-- The instruction the device has heard in a window of bytes, if it takes it (R83 to R85, R94). -/
def Device.heard (c : Config) (d : Device) : List Byte → Option Opcode
  | [] => none
  | b :: _ =>
    match opcodeOf c.opc b with
    | none => none
    | some i => if d.listens i then some i else none

/-- The byte the device answers after the bytes `m` of a frame, where R86, R90 and R93 name one; `none` where it is a draw
(R97). -/
def Device.reply (c : Config) (d : Device) (m : List Byte) : Option Byte :=
  match d.heard c m with
  | some .readStatus => if m.length = 1 then some d.status else none
  | some .releasePowerDown => if m.length = idDummies c then some c.manuf else none
  | some .read =>
    match m with
    | _ :: b2 :: b1 :: b0 :: rest =>
      let a := (addrOf b2 b1 b0).toNat + rest.length
      if a < c.cap then some (Memory.read d.arr a) else none
    | _ => none
  | _ => none

/-- The device holds address `a` write-protected (R95). -/
def Device.protects (c : Config) (d : Device) (a : Nat) : Bool :=
  d.wpen &&
    match levelOf d.pl with
    | .none => false
    | .quarter => decide (c.cap - c.cap / 4 ≤ a ∧ a < c.cap)
    | .half => decide (c.cap - c.cap / 2 ≤ a ∧ a < c.cap)
    | .all => decide (a < c.cap)

/-- A write cycle starts (R92): `K_BUSY` status reads will report busy; with none the cycle completes at once. -/
def Device.startCycle (d : Device) (e : Env) : Device × Env :=
  (if e.drawCycle.1 = 0 then { d with wel := false } else { d with wip := e.drawCycle.1 }, e.drawCycle.2)

/-- The cycle counts down by one status read, and completes at the last (R86). -/
def Device.countDown (d : Device) : Device :=
  if d.wip = 0 then d
  else if d.wip = 1 then { d with wip := 0, wel := false }
  else { d with wip := d.wip - 1 }

/-- A status write (R88): accepted iff WEL is set and WPEN is clear or WP is deasserted. -/
def Device.writeStatus (wp : Pin) (v : Byte) (d : Device) (e : Env) : Device × Env :=
  if d.wel && (!d.wpen || wp == .deasserted) then
    Device.startCycle { d with pl := v.extractLsb' 2 2, wpen := v.getLsbD 7 } e
  else (d, e)

/-- The address payload byte `i` of a write frame at address `a` goes to (R89): it wraps within the page. -/
def burstTarget (page a i : Nat) : Nat :=
  (a - a % page) + (a % page + i) % page

/-- A write frame with payload `p` at address `a` (R89). -/
def Device.writeBurst (c : Config) (a : Nat) (p : List Byte) (d : Device) (e : Env) : Device × Env :=
  let targets := (List.range p.length).map (burstTarget c.page a)
  if d.wel && decide (a < c.cap) && !p.isEmpty && targets.all (fun t => decide (t < c.cap) && !d.protects c t) then
    Device.startCycle { d with arr := Memory.writeAll d.arr (targets.zip p) } e
  else (d, e)

/-- The erase extent of an instruction at address `a`: its first address and its length (R91). -/
def eraseExtent (c : Config) (sector : Nat) (i : Opcode) (a : Nat) : Nat × Nat :=
  match i with
  | .pageErase => (a - a % c.page, min c.page (c.cap - (a - a % c.page)))
  | .sectorErase => (a - a % sector, min sector (c.cap - (a - a % sector)))
  | _ => (0, c.cap)

/-- The extent holds no protected byte; ChipErase also needs that no level is in force (R91, R95). -/
def Device.mayErase (c : Config) (d : Device) (i : Opcode) (lo n : Nat) : Bool :=
  (List.range n).all (fun k => !d.protects c (lo + k)) &&
    !(i == .chipErase && d.wpen && levelOf d.pl != .none)

/-- An erase frame (R91). -/
def Device.eraseAt (c : Config) (i : Opcode) (a : Nat) (d : Device) (e : Env) : Device × Env :=
  let x := eraseExtent c d.sector i a
  if d.wel && decide (a < c.cap) && d.mayErase c i x.1 x.2 then
    Device.startCycle { d with arr := Memory.fill d.arr x.1 x.2 d.erased } e
  else (d, e)

/-- The effect of a frame whose byte 0 was the opcode of `i` and whose other bytes were `rest` (R86 to R93). A frame shorter
than its instruction needs has none (R94). -/
def Device.effect (c : Config) (wp : Pin) (i : Opcode) (rest : List Byte) (d : Device) (e : Env) : Device × Env :=
  match i, rest with
  | .readStatus, _ :: _ => (d.countDown, e)
  | .writeEnable, _ => ({ d with wel := true }, e)
  | .writeDisable, _ => ({ d with wel := false }, e)
  | .writeStatus, v :: _ => d.writeStatus wp v e
  | .write, b2 :: b1 :: b0 :: p => d.writeBurst c (addrOf b2 b1 b0).toNat p e
  | .pageErase, b2 :: b1 :: b0 :: _ => d.eraseAt c i (addrOf b2 b1 b0).toNat e
  | .sectorErase, b2 :: b1 :: b0 :: _ => d.eraseAt c i (addrOf b2 b1 b0).toNat e
  | .chipErase, b2 :: b1 :: b0 :: _ => d.eraseAt c i (addrOf b2 b1 b0).toNat e
  | .releasePowerDown, _ => (if idDummies c ≤ rest.length then { d with asleep := false } else d, e)
  | .deepSleep, _ => ({ d with asleep := true }, e)
  | _, _ => (d, e)

/-- Chip-select is deasserted: the frame's effect is applied and the window ends (R83). -/
def Device.deselect (c : Config) (wp : Pin) (d : Device) (e : Env) : Device × Env :=
  let d' := { d with window := [] }
  match d.heard c d.window with
  | none => (d', e)
  | some i => Device.effect c wp i d.window.tail d' e

/-- Chip-select is asserted: a new window begins, unless chip-select was asserted already (R83, R271). -/
def Device.select (cs : Pin) (d : Device) : Device :=
  if cs = .asserted then d else { d with window := [] }

/-- The device takes bytes whose answers nobody hears (R98). -/
def Device.take (bs : List Byte) (d : Device) : Device :=
  { d with window := d.window ++ bs }

/-- The device exchanges bytes: one received for each sent (R152, R97). -/
def Device.exchange (c : Config) : List Byte → Device → Env → List Byte × Device × Env
  | [], d, e => ([], d, e)
  | b :: bs, d, e =>
    match d.reply c d.window with
    | some r =>
      let x := Device.exchange c bs (d.take [b]) e
      (r :: x.1, x.2)
    | none =>
      let x := Device.exchange c bs (d.take [b]) e.drawByte.2
      (e.drawByte.1 :: x.1, x.2)

end Sys2Proof.Machine
end

