-- ==== Sys2Proof/Machine/Ops.lean ====
section
/-! DEFINITION. The shared operations of the block: issuing an event (41_frame_protocol.md R150 to R152), the frame (R153 to
R155), ending an operation with an error (60_exceptions.md R238, R239: the block's one exception entry) and with a value
(00_scope.md R22). There is no return from an exception (R242). -/

namespace Sys2Proof.Machine

/-- What an event or a frame came to: a value, or the error that ends the operation. -/
inductive Ev (α : Type) where
  | done (v : α) (s : State)
  | failed (e : ErrorKind) (s : State)

/-! ### The two ends of an operation -/

/-- `raise E` (R22, R238, R239): the operation ends with `Err(E)`, the block is idle, INIT leaves it Dead (R184), and nothing
else changes. -/
def raise (e : ErrorKind) (s : State) : State :=
  { s with
    life := match s.pc with
      | .op .init _ => .dead
      | _ => s.life
    pc := .idle
    todo := []
    got := none
    result := some (.err e) }

/-- `return v` (R22): the operation ends with `Ok(v)` and the block is idle (R34). -/
def finish (v : Value) (s : State) : State :=
  { s with
    pc := .idle
    todo := []
    got := none
    result := some (.ok v) }

/-! ### Events -/

/-- Issuing an event advances `k` by one (R34). -/
def Phase.tick : Phase → Phase
  | .idle => .idle
  | .op o k => .op o (k + 1)

/-- The event has been issued: it stands in the trace, and the phase advances (R24, R34). -/
def State.record (v : Event) (s : State) : State :=
  { s with trace := s.trace ++ [v], pc := s.pc.tick }

/-- The state after the draw of one event outcome (R150). -/
def State.drawn (s : State) : State :=
  { s with env := s.env.drawOutcome.2 }

/-- The outcome that draw gives. -/
def State.outcome (s : State) : Bool :=
  s.env.drawOutcome.1

/-- The level a driven output holds (R33). -/
def Level.pin : Level → Pin
  | .asserted => .asserted
  | .deasserted => .deasserted

/-- The level recorded for an output (R151). -/
def State.setPin (x : Signal) (l : Level) (s : State) : State :=
  match x with
  | .cs => { s with cs := l.pin }
  | .wp => { s with wp := l.pin }
  | .hold => { s with hold := l.pin }

/-- What the device at the other end makes of an output driven with outcome `ok` (R83). -/
def State.tellDevice (x : Signal) (l : Level) (s : State) : State :=
  match s.link, x, l with
  | .reference d, .cs, .asserted => { s with link := .reference (d.select s.cs) }
  | .reference d, .cs, .deasserted =>
    { s with
      link := .reference (d.deselect s.cfg s.wp s.env).1
      env := (d.deselect s.cfg s.wp s.env).2 }
  | _, _, _ => s

/-- The state after `Sig(x, l)` with outcome `ok` (R151): the output's field holds the level. -/
def State.afterSignal (x : Signal) (l : Level) (s : State) : State :=
  ((s.drawn.record (.sig x l true)).tellDevice x l).setPin x l

/-- `Sig(x, l)` (R151): with outcome `fail` the field is unchanged and the operation ends. -/
def signal (x : Signal) (l : Level) (s : State) : Ev Unit :=
  if s.outcome then .done () (s.afterSignal x l)
  else .failed .signalError (s.drawn.record (.sig x l false))

/-- The device takes the bytes of a half-duplex send (R98). -/
def State.deliver (bs : List Byte) (s : State) : State :=
  match s.link with
  | .oracle => s
  | .reference d => { s with link := .reference (d.take bs) }

/-- The state after `ChWrite(bs)` with outcome `ok` (R152). -/
def State.afterWrite (bs : List Byte) (s : State) : State :=
  (s.drawn.record (.write bs true)).deliver bs

/-- `ChWrite(bs)` (R152). -/
def chWrite (bs : List Byte) (s : State) : Ev Unit :=
  if s.outcome then .done () (s.afterWrite bs)
  else .failed .transportError (s.drawn.record (.write bs false))

/-- As many received bytes as there are bytes sent, every one a draw (R81, R167). -/
def drawBytes : List Byte → Env → List Byte × Env
  | [], e => ([], e)
  | _ :: bs, e =>
    let x := drawBytes bs e.drawByte.2
    (e.drawByte.1 :: x.1, x.2)

/-- The bytes received in answer to the bytes sent, and the state with the device and the draws after it (R81, R152). -/
def State.exchange (bs : List Byte) (s : State) : List Byte × State :=
  match s.link with
  | .oracle => ((drawBytes bs s.env).1, { s with env := (drawBytes bs s.env).2 })
  | .reference d =>
    ((Device.exchange s.cfg bs d s.env).1,
      { s with
        link := .reference (Device.exchange s.cfg bs d s.env).2.1
        env := (Device.exchange s.cfg bs d s.env).2.2 })

/-- The bytes `ChXfer(bs)` delivers with outcome `ok` (R152). -/
def State.received (bs : List Byte) (s : State) : List Byte :=
  (s.drawn.exchange bs).1

/-- The state after `ChXfer(bs)` with outcome `ok` (R152). -/
def State.afterXfer (bs : List Byte) (s : State) : State :=
  (s.drawn.exchange bs).2.record (.xfer bs (some (s.received bs)))

/-- `ChXfer(bs) -> rs` (R152): with outcome `fail` nothing is delivered. -/
def chXfer (bs : List Byte) (s : State) : Ev (List Byte) :=
  if s.outcome then .done (s.received bs) (s.afterXfer bs)
  else .failed .transportError (s.drawn.record (.xfer bs none))

/-! ### The frame -/

/-- After a failed event of a frame the reference device's state is a draw (R83, R240). -/
def State.scramble (s : State) : State :=
  match s.link with
  | .oracle => s
  | .reference d =>
    { s with
      link := .reference (s.env.drawDevice s.cfg.cap d).1
      env := (s.env.drawDevice s.cfg.cap d).2 }

/-- The window of a device whose state is a draw ends with chip-select. -/
def State.endWindow (s : State) : State :=
  match s.link with
  | .oracle => s
  | .reference d => { s with link := .reference { d with window := [] } }

/-- The one chip-select deassertion after a failed channel call when `P_CSERR` (R155): its outcome is not reported. -/
def releaseSelect (s : State) : State :=
  if s.cfg.csErr then
    if s.outcome then (s.drawn.record (.sig .cs .deasserted true)).endWindow.setPin .cs .deasserted
    else s.drawn.record (.sig .cs .deasserted false)
  else s

/-- `Frame(c)` (R153 to R155). -/
def frame {α : Type} (c : State → Ev α) (s : State) : Ev α :=
  match signal .cs .asserted s with
  | .failed e s1 => .failed e s1.scramble
  | .done _ s1 =>
    match c s1 with
    | .failed e s2 => .failed e (releaseSelect s2.scramble)
    | .done v s2 =>
      match signal .cs .deasserted s2 with
      | .failed e s3 => .failed e s3.scramble
      | .done _ s3 => .done v s3

/-- Two channel calls of one frame, in order (R153). -/
def both {α : Type} (c1 : State → Ev Unit) (c2 : State → Ev α) (s : State) : Ev α :=
  match c1 s with
  | .failed e s1 => .failed e s1
  | .done _ s1 => c2 s1

/-- The state an event or a frame leaves: an error ends the operation (R238). -/
def Ev.settle {α : Type} (f : α → State → State) : Ev α → State
  | .done v s => f v s
  | .failed e s => raise e s

/-- A frame procedure as an instruction: none is issued while the device is held (R156); otherwise the frame runs, and `f` is
what is done with the value it returns. -/
def issueFrame {α : Type} (c : State → Ev α) (f : α → State → State) (s : State) : Host.Outcome State Fault Refusal :=
  if s.mode = .held then .refused .heldTransaction else .next (Ev.settle f (frame c s))

/-- A frame that returns nothing. -/
def noValue (_ : Unit) (s : State) : State := s

/-- The running operation keeps the byte its frame returned (R36). A frame placed from outside while no operation runs keeps
its byte too, until the next operation begins or a further such frame replaces or drops it (DESIGN CHOICE, log entry 24). -/
def State.latch (b : Byte) (s : State) : State :=
  { s with got := some b }

end Sys2Proof.Machine
end

