-- ==== Sys2Proof/Machine/Commands.lean ====
section
/-! DEFINITION. The one-byte instructions (41_frame_protocol.md R158 to R160, format FMT_C). -/

namespace Sys2Proof.Machine

/-- The channel call of a frame that is its opcode byte alone (R104 FMT_C). -/
def sendOpcode (i : Opcode) (s : State) : Ev Unit :=
  chWrite [s.cfg.opc.get i] s

/-- `F_WREN()` (R158). -/
def execWren (s : State) : Host.Outcome State Fault Refusal :=
  issueFrame (sendOpcode .writeEnable) noValue s

/-- `F_WRDI()` (R159). -/
def execWrdi (s : State) : Host.Outcome State Fault Refusal :=
  issueFrame (sendOpcode .writeDisable) noValue s

/-- `F_DPD()` (R160). The mode is changed by the operation that calls it (R168). -/
def execDpd (s : State) : Host.Outcome State Fault Refusal :=
  issueFrame (sendOpcode .deepSleep) noValue s

end Sys2Proof.Machine
end

