-- ==== Sys2Proof/Machine/Status.lean ====
section
/-! DEFINITION. The status instructions (41_frame_protocol.md R161, R162) and the identity instruction (R166). -/

namespace Sys2Proof.Machine

/-- `F_RDSR() -> s` (R161): the status byte is the second byte received. -/
def execRdsr (s : State) : Host.Outcome State Fault Refusal :=
  issueFrame (fun t => chXfer [t.cfg.opc.get .readStatus, 0x00] t) (fun rs t => t.latch (rs.getD 1 0)) s

/-- `F_WRSR(v)` (R162). -/
def execWrsr (v : Byte) (s : State) : Host.Outcome State Fault Refusal :=
  issueFrame (fun t => chWrite [t.cfg.opc.get .writeStatus, v] t) noValue s

/-- `F_RPD() -> id` (R166): the identity byte is the last byte received. -/
def execRpd (s : State) : Host.Outcome State Fault Refusal :=
  issueFrame (fun t => chXfer (t.cfg.opc.get .releasePowerDown :: zeroBytes (idDummies t.cfg)) t)
    (fun rs t => t.latch (rs.getD (idDummies t.cfg) 0)) s

end Sys2Proof.Machine
end

