-- ==== Sys2Proof/Machine/Transfer.lean ====
section
/-! DEFINITION. The address-qualified instructions: read and write (41_frame_protocol.md R163, R164) and the three erases
(R165). -/

namespace Sys2Proof.Machine

/-- The channel call that sends the 4-byte header (R101). -/
def sendHeader (i : Opcode) (a : Addr) (s : State) : Ev Unit :=
  chWrite (header s.cfg.opc i a) s

/-- The data phase of a read: the received bytes go into the host buffer before chip-select is deasserted (R163). -/
def receiveBuffer (buf : List Byte) (s : State) : Ev Unit :=
  match chXfer buf s with
  | .failed e s1 => .failed e s1
  | .done rs s1 => .done () { s1 with buf := memWrite s1.buf 0 rs }

/-- `F_READ(a, buf) -> rs` (R163). -/
def execRead (a : Addr) (buf : List Byte) (s : State) : Host.Outcome State Fault Refusal :=
  issueFrame (both (sendHeader .read a) (receiveBuffer buf)) noValue s

/-- `F_WRITE(a, d)` (R164). -/
def execWrite (a : Addr) (d : List Byte) (s : State) : Host.Outcome State Fault Refusal :=
  issueFrame (both (sendHeader .write a) (chWrite d)) noValue s

/-- `F_ERASE(Page, a)` (R165). -/
def execPe (a : Addr) (s : State) : Host.Outcome State Fault Refusal :=
  issueFrame (sendHeader .pageErase a) noValue s

/-- `F_ERASE(Sector, a)` (R165). -/
def execSe (a : Addr) (s : State) : Host.Outcome State Fault Refusal :=
  issueFrame (sendHeader .sectorErase a) noValue s

/-- `F_ERASE(Chip, a)` (R165): the address bytes are sent all the same. -/
def execCe (a : Addr) (s : State) : Host.Outcome State Fault Refusal :=
  issueFrame (sendHeader .chipErase a) noValue s

end Sys2Proof.Machine
end

