-- ==== Sys2Proof/Machine/Dispatch.lean ====
section
/-! DEFINITION. The meaning of each instruction: one arm per constructor, one direct call. -/

namespace Sys2Proof.Machine

def exec (i : Instr) (s : State) : Host.Outcome State Fault Refusal :=
  match i with
  | .read a buf => Sys2Proof.Machine.execRead a buf s
  | .write a d => Sys2Proof.Machine.execWrite a d s
  | .wren => Sys2Proof.Machine.execWren s
  | .wrdi => Sys2Proof.Machine.execWrdi s
  | .rdsr => Sys2Proof.Machine.execRdsr s
  | .wrsr v => Sys2Proof.Machine.execWrsr v s
  | .pe a => Sys2Proof.Machine.execPe a s
  | .se a => Sys2Proof.Machine.execSe a s
  | .ce a => Sys2Proof.Machine.execCe a s
  | .rpd => Sys2Proof.Machine.execRpd s
  | .dpd => Sys2Proof.Machine.execDpd s

end Sys2Proof.Machine
end

