-- ==== Sys2Proof/Machine/Driver.lean ====
section
/-! DEFINITION. The driver operations (42_driver_operations.md): the admission of a request (R180), the lines of each operation's
rule (R181 to R195), and the steps of their pseudocode that issue no event. -/

namespace Sys2Proof.Machine

/-- The admission test of a request (R180): `none` when the request is admitted, else the reason it is refused for, the tests in R180's order. -/
def admission (r : Request) (s : State) : Option Refusal :=
  if s.pc ≠ .idle then some .operationInProgress
  else if !r.known then some .unknownOperation
  else if !r.operandsOk then some .badOperand
  else
    match r.opName with
    | none => none
    | some .init => if s.life = .uninit then none else some .alreadyInitialised
    | some o =>
      if s.life ≠ .ready then some .notReady
      else if o.framedDriver && s.mode == .held then some .heldTransaction
      else if o == .deepSleep && !s.cfg.sleep then some .noDeepSleep
      else if o == .hold && !s.cfg.hold then some .noHold
      else if o == .hold && s.mode != .active then some .holdNotActive
      else none

/-- The line that sends the frame of an instruction (R104). -/
def frameLine (c : Config) (i : Instr) : Line :=
  .frame (encode c i)

/-- `INIT_PROTECT()` (R183). -/
def initProtectLines (c : Config) : List Line :=
  [frameLine c .rdsr, frameLine c .wren, .writeInitStatus, frameLine c .wren, frameLine c .wrdi]

/-- `INIT()` (R181). -/
def initLines (c : Config) : List Line :=
  [.sig .cs .deasserted, .sig .hold .deasserted, .sig .wp .deasserted, frameLine c .rpd, .setMode .active, .checkIdentity] ++
    (if c.srProt then initProtectLines c else []) ++
    [.sig .hold .deasserted, .becomeReady, .ret .unit]

/-- `READ_STATUS` (R185). -/
def readStatusLines (c : Config) : List Line :=
  [frameLine c .rdsr, .retByte]

/-- `WRITE_STATUS v` (R186). -/
def writeStatusLines (c : Config) (v : Byte) : List Line :=
  [frameLine c (.wrsr v), .ret .unit]

/-- `WRITE_ENABLE` (R187). -/
def writeEnableLines (c : Config) : List Line :=
  [frameLine c .wren, .ret .unit]

/-- `WRITE_DISABLE` (R188). -/
def writeDisableLines (c : Config) : List Line :=
  [frameLine c .wrdi, .ret .unit]

/-- `READ a, buf` (R189). -/
def readLines (c : Config) (a : Addr) (buf : List Byte) : List Line :=
  [frameLine c (.read a buf), .retBuffer]

/-- `WRITE a, d` (R190). -/
def writeLines (c : Config) (a : Addr) (d : List Byte) : List Line :=
  [frameLine c (.write a d), .ret .unit]

/-- `ERASE a, g` (R191), by the erase instruction of `g`. -/
def eraseLines (c : Config) (i : Instr) : List Line :=
  [frameLine c .rdsr, .checkBusy, frameLine c .wren, frameLine c i, .ret .unit]

/-- `DEEP_SLEEP` (R192). -/
def deepSleepLines (c : Config) : List Line :=
  [frameLine c .dpd, .setMode .deepSleep, .ret .unit]

/-- `WAKE` (R193). -/
def wakeLines (c : Config) : List Line :=
  [frameLine c .rpd, .setMode .active, .retByte]

/-- `HOLD` (R194). -/
def holdLines : List Line :=
  [.sig .hold .asserted, .setMode .held, .ret .unit]

/-- `UNHOLD` (R195). -/
def unholdLines : List Line :=
  [.sig .hold .deasserted, .leaveHeld, .ret .unit]

/-! ### Steps that issue no event -/

/-- `if S.mode = Held then S.mode <- Active` (R195, R218). -/
def leaveHeld (s : State) : State :=
  { s with mode := if s.mode = .held then .active else s.mode }

/-- The byte the operation's last status or identity frame returned. Every line that reads it stands after such a frame, so
the value given for `none` is never used (R36, log entry 8). -/
def State.gotByte (s : State) : Byte :=
  s.got.getD 0x00

/-- The identity check of INIT (R182). -/
def checkIdentity (s : State) : State :=
  if s.gotByte = s.cfg.manuf then s else raise .wrongIdentity s

/-- The precheck of ERASE (R191). -/
def checkBusy (s : State) : State :=
  if srBusy s.gotByte then raise .deviceBusy s else s

/-- `F_WRSR(P_INITSR(s))` becomes the frame that it is (R183). -/
def writeInitStatus (s : State) : State :=
  { s with todo := frameLine s.cfg (.wrsr (initStatus s.cfg s.gotByte)) :: s.todo }

/-- `S.life <- Ready` (R181). -/
def becomeReady (s : State) : State :=
  { s with life := .ready }

end Sys2Proof.Machine
end

