-- ==== Sys2Proof/Machine/Storage.lean ====
section
/-! DEFINITION. The storage operations (43_storage_operations.md): the lines of their rules and the steps of the burst loop and
the busy-wait. -/

namespace Sys2Proof.Machine

/-- `HOLD_RELEASE()` (R218). -/
def holdRelease : List Line :=
  [.sig .hold .deasserted, .leaveHeld]

/-- The wake of a storage operation, only when `P_SLEEP` (R217). -/
def storeWake (c : Config) : List Line :=
  if c.sleep then [frameLine c .rpd, .setMode .active] else []

/-- The return to deep-sleep of a storage operation, only when `P_SLEEP` (R217). -/
def storeSleep (c : Config) : List Line :=
  if c.sleep then [frameLine c .dpd, .setMode .deepSleep] else []

/-- `STORE_READ off, buf` (R212). The offset is the address sent (R73); the bound check before it makes it fit 24 bits
(R210). -/
def storeReadLines (c : Config) (off : Nat) (buf : List Byte) : List Line :=
  .checkRange off buf.length :: holdRelease ++ storeWake c ++ [frameLine c (.read (addrField off) buf)] ++ storeSleep c ++
    holdRelease ++ [.retBuffer]

/-- `STORE_WRITE off, d` (R213). -/
def storeWriteLines (c : Config) (off len : Nat) : List Line :=
  .checkRange off len :: holdRelease ++ storeWake c ++ [.startCursor off, .burstLoop] ++ storeSleep c ++ holdRelease ++
    [.ret .unit]

/-- R210. -/
def checkRange (off len : Nat) (s : State) : State :=
  if inRange s.cfg off len then s else raise .outOfRange s

/-- `S.cur <- off; S.idx <- 0` (R213). -/
def startCursor (off : Nat) (s : State) : State :=
  { s with cur := off, idx := 0 }

/-- The body of the burst loop (R213). -/
def burstBody (c : Config) : List Line :=
  [frameLine c .wren, .sizeBurst, .writeBurst, .advanceCursor, .startPoll, .poll, frameLine c .wrdi]

/-- `while S.idx < L` (R213): one iteration per burst. -/
def burstLoop (s : State) : State :=
  if s.idx < s.buf.length then { s with todo := burstBody s.cfg ++ .burstLoop :: s.todo } else s

/-- `S.n <- chunk(S.cur, L - S.idx)` (R213). -/
def sizeBurst (s : State) : State :=
  { s with n := chunk s.cfg.page s.cur (s.buf.length - s.idx) }

/-- `F_WRITE(S.cur, MemRead(d, S.idx, S.n))` becomes the frame that it is (R213). -/
def writeBurst (s : State) : State :=
  { s with todo := frameLine s.cfg (.write (addrField s.cur) (memRead s.buf s.idx s.n)) :: s.todo }

/-- `S.cur <- S.cur + S.n; S.idx <- S.idx + S.n` (R213). -/
def advanceCursor (s : State) : State :=
  { s with cur := s.cur + s.n, idx := s.idx + s.n }

/-- `S.polls <- 0` (R214). -/
def startPoll (s : State) : State :=
  { s with polls := 0 }

/-- One turn of the busy-wait: its status frame, and the tests after it (R214). -/
def poll (s : State) : State :=
  { s with todo := frameLine s.cfg .rdsr :: .testPoll :: s.todo }

/-- `S.polls >= m` when `P_POLL = m` (R214). -/
def pollsSpent (c : Config) (polls : Nat) : Bool :=
  match c.poll with
  | none => false
  | some m => m ≤ polls

/-- The tests after a status frame of the busy-wait (R214): idle ends it, the bound raises `WriteTimeout`, else it turns. -/
def testPoll (s : State) : State :=
  let t := { s with polls := s.polls + 1 }
  if srBusy t.gotByte then
    if pollsSpent t.cfg t.polls then raise .writeTimeout t else { t with todo := .poll :: t.todo }
  else t

end Sys2Proof.Machine
end

