-- ==== Sys2Proof/Machine/Sequencer.lean ====
section
/-! DEFINITION. The sequencer: what each request starts (30_encoding.md R111), what one line of a running operation does, and
where a frame placed from outside goes. -/

namespace Sys2Proof.Machine

/-- The combinational requests answer at once and leave everything but the result port as it is (R141). -/
def answer (v : Value) (s : State) : State :=
  { s with result := some (.ok v) }

/-- Operation `o` begins: no event issued yet, its lines to come, `buf` its host buffer (R34, R64). -/
def begin (o : OpName) (lines : List Line) (buf : List Byte) (s : State) : State :=
  { s with
    pc := .op o 0
    todo := lines
    got := none
    buf := buf
    result := none }

/-- What an admitted request starts (R111). The operands have passed R114's test, so each fits its field. -/
def start (r : Request) (s : State) : State :=
  match r with
  | .init => begin .init (initLines s.cfg) s.buf s
  | .readStatus => begin .readStatus (readStatusLines s.cfg) s.buf s
  | .writeStatus v => begin .writeStatus (writeStatusLines s.cfg (byteField v)) s.buf s
  | .writeEnable => begin .writeEnable (writeEnableLines s.cfg) s.buf s
  | .writeDisable => begin .writeDisable (writeDisableLines s.cfg) s.buf s
  | .read a buf => begin .read (readLines s.cfg (addrField a) buf) buf s
  | .write a d => begin .write (writeLines s.cfg (addrField a) d) d s
  | .erase a (some g) => begin .erase (eraseLines s.cfg (eraseInstr g (addrField a))) s.buf s
  | .deepSleep => begin .deepSleep (deepSleepLines s.cfg) s.buf s
  | .wake => begin .wake (wakeLines s.cfg) s.buf s
  | .hold => begin .hold holdLines s.buf s
  | .unhold => begin .unhold unholdLines s.buf s
  | .storeRead off buf => begin .storeRead (storeReadLines s.cfg off buf) buf s
  | .storeWrite off d => begin .storeWrite (storeWriteLines s.cfg off d.length) d s
  | .encode (some i) a => answer (.word (commandWord s.cfg.opc i (addrField a))) s
  | .srBusy b => answer (.bit (srBusy (byteField b))) s
  | .srWel b => answer (.bit (srWel (byteField b))) s
  | .srPl b => answer (.level (srPl (byteField b))) s
  | .srWpen b => answer (.bit (srWpen (byteField b))) s
  | .srSetPl b (some l) => answer (.byte (srSetPl (byteField b) l)) s
  | .srSetWpen b e => answer (.byte (srSetWpen (byteField b) (e == 1))) s
  | .erase _ none | .encode none _ | .srSetPl _ none | .unknown _ => s

/-- A request is presented (R180): refused for its reason, or admitted and started. -/
def accept (r : Request) (s : State) : Host.Outcome State Fault Refusal :=
  match admission r s with
  | some why => .refused why
  | none => .next (start r s)

/-- A frame line: the bytes decode to the instruction that runs (R106, R109). -/
def runFrame (bs : List Byte) (s : State) : Host.Outcome State Fault Refusal :=
  match decode s.cfg bs with
  | .ok i => exec i s
  | .error e => .refused (.noInstruction e)

/-- One line of the running operation; `s` is the state with the line taken off `todo`. -/
def runLine (l : Line) (s : State) : Host.Outcome State Fault Refusal :=
  match l with
  | .sig x l => .next ((signal x l s).settle noValue)
  | .frame bs => runFrame bs s
  | .setMode m => .next { s with mode := m }
  | .leaveHeld => .next (leaveHeld s)
  | .checkIdentity => .next (checkIdentity s)
  | .checkBusy => .next (checkBusy s)
  | .writeInitStatus => .next (writeInitStatus s)
  | .becomeReady => .next (becomeReady s)
  | .checkRange off len => .next (checkRange off len s)
  | .startCursor off => .next (startCursor off s)
  | .burstLoop => .next (burstLoop s)
  | .sizeBurst => .next (sizeBurst s)
  | .writeBurst => .next (writeBurst s)
  | .advanceCursor => .next (advanceCursor s)
  | .startPoll => .next (startPoll s)
  | .poll => .next (poll s)
  | .testPoll => .next (testPoll s)
  | .ret v => .next (finish v s)
  | .retByte => .next (finish (.byte s.gotByte) s)
  | .retBuffer => .next (finish (.bytes s.buf) s)

/-- The block is idle: it takes the host's next request (R74), waits when there is none (R243), and a Dead block that nothing
more is asked of ends the run (R249). -/
def idleStep (s : State) : Host.Outcome State Fault Refusal :=
  match s.program with
  | r :: rest => accept r { s with program := rest }
  | [] => if s.life = .dead then .fault .deadBlock else .next s

/-- One step (R34, R180): a request on the port is decided first, then the running operation's next line, then the host's
next request. -/
def advance (s : State) : Host.Outcome State Fault Refusal :=
  if s.cfg.wf then
    match s.port, s.todo with
    | some r, _ => accept r { s with port := none }
    | none, l :: rest => runLine l { s with todo := rest }
    | none, [] => idleStep s
  else .refused .badConfig

/-- The bytes of a frame become the line the next step runs. -/
def placeFrame (bs : List Byte) (s : State) : State :=
  { s with port := none, todo := .frame bs :: s.todo }

end Sys2Proof.Machine
end

