-- ==== Sys2Proof/Machine/Step.lean ====
section
/-! DEFINITION. One step of the block, and how an opcode-table word is placed where the next step takes its instruction. -/

namespace Sys2Proof.Machine

/-- One step (Machine/Sequencer.lean). -/
def step (s : State) : Host.Outcome State Fault Refusal :=
  advance s

/-- The frame of an opcode-table word becomes the line the next step runs; it stands for the host's load of one frame (log
entry 5). -/
def State.withFetchWord (s : State) (nbits w : Nat) : State :=
  placeFrame (tableFrame s.cfg nbits w) s

end Sys2Proof.Machine
end

