-- ==== Sys2Proof/Safety.lean ====
section
/-! DEFINITION. What claims about whole runs are stated in: the states that lie ahead of a state, a run that nothing ends, and
the invariant of the block. -/

namespace Sys2Proof.Machine

/-- `t` is `s` or lies some steps ahead of it. -/
inductive Reaches : State → State → Prop where
  | refl (s : State) : Reaches s s
  | step (s t u : State) : Reaches s t → Machine.step t = .next u → Reaches s u

/-- No run from `s` meets a refusal or a fault (R237, R249). -/
def SafeFrom (s : State) : Prop :=
  ∀ t, Reaches s t → ∃ u, Machine.step t = .next u

/-- The events of a frame with the given channel calls, every outcome `ok` (R153). -/
def bracket (calls : List Event) : List Event :=
  .sig .cs .asserted true :: calls ++ [.sig .cs .deasserted true]

/-! ### The invariant

A running operation's remaining lines are checked against what they will meet: `planOk` runs over them with the part of the
state they depend on, each line's success taken for granted, since an error ends the operation. -/

/-- The events and frames that R196's table ties a move of the mode to. -/
inductive Passage where
  | sleep
  | wake
  | hold
  | release
  deriving DecidableEq, Repr

/-- The passage of a trace that ends with the event or the frame of one, every outcome `ok` (R196). -/
def passageOf (c : Config) (trace : List Event) : Option Passage :=
  match trace.reverse with
  | .sig .hold .asserted true :: _ => some .hold
  | .sig .hold .deasserted true :: _ => some .release
  | .sig .cs .deasserted true :: .write bs true :: .sig .cs .asserted true :: _ =>
    if bs = encode c .dpd then some .sleep else none
  | .sig .cs .deasserted true :: .xfer bs (some _) :: .sig .cs .asserted true :: _ =>
    if bs = encode c .rpd then some .wake else none
  | _ => none

/-- The passage that a completed frame of the instruction is. -/
def framePassage : Instr → Option Passage
  | .dpd => some .sleep
  | .rpd => some .wake
  | _ => none

/-- The part of the state the lines of an operation depend on. -/
structure View where
  mode : Mode
  hold : Pin
  wp : Pin
  got : Bool
  cur : Nat
  idx : Nat
  n : Nat
  len : Nat
  passage : Option Passage
  deriving DecidableEq, Repr

/-- The view of a state. -/
def State.view (s : State) : View where
  mode := s.mode
  hold := s.hold
  wp := s.wp
  got := s.got.isSome
  cur := s.cur
  idx := s.idx
  n := s.n
  len := s.buf.length
  passage := passageOf s.cfg s.trace

/-- The block records mode Held exactly while it drives HOLD asserted (R194 to R196). -/
def View.balanced (v : View) : Bool :=
  (v.mode == .held) == (v.hold == .asserted)

/-- The line reads or writes `S.cur`, `S.idx`, `S.n` or depends on the length of the host buffer. -/
def Line.usesCursor : Line → Bool
  | .checkRange _ _ | .startCursor _ | .burstLoop | .sizeBurst | .writeBurst | .advanceCursor => true
  | _ => false

/-- The frame returns a byte that the operation keeps (R161, R166). -/
def returnsByte : Instr → Bool
  | .rdsr | .rpd => true
  | _ => false

/-- The frame writes the host buffer (R163). -/
def writesBuffer : Instr → Bool
  | .read _ _ => true
  | _ => false

/-- The lines to come may run from view `v`: they end in one return (R34), no frame is issued while held (R156), every frame
line is a frame of the block (R109), WP is never asserted and INIT ends with it deasserted (R263), the mode moves only right after
the event or frame that R196's table gives the move, to Held only from Active, no byte is tested before it was received (R36), and every burst lies inside one page
and below the capacity (R35, R210, R216). -/
def planOk (c : Config) (v : View) : List Line → Bool
  | [] => false
  | .ret _ :: r => v.balanced && r.isEmpty
  | .retByte :: r => v.balanced && v.got && r.isEmpty
  | .retBuffer :: r => v.balanced && r.isEmpty
  | .sig .cs .asserted :: _ => false
  | .sig .cs .deasserted :: r => v.balanced && planOk c { v with passage := none } r
  | .sig .wp .asserted :: _ => false
  | .sig .wp .deasserted :: r => v.balanced && planOk c { v with wp := .deasserted, passage := none } r
  | .sig .hold .asserted :: r => v.balanced && planOk c { v with hold := .asserted, passage := some .hold } r
  | .sig .hold .deasserted :: r => v.balanced && planOk c { v with hold := .deasserted, passage := some .release } r
  | .frame bs :: r =>
    v.balanced && v.mode != .held &&
      match decode c bs with
      | .error _ => false
      | .ok i => (!writesBuffer i || r.all (fun l => !l.usesCursor)) &&
          planOk c { v with got := v.got || returnsByte i, passage := framePassage i } r
  | .setMode m :: r =>
    (match m with
      | .unknown => false
      | .held => v.mode == .active && v.hold == .asserted && v.passage == some .hold
      | .active => v.balanced && v.mode != .held && v.passage == some .wake
      | .deepSleep => v.balanced && v.mode != .held && v.passage == some .sleep) && planOk c { v with mode := m } r
  | .leaveHeld :: r =>
    v.hold == .deasserted && v.passage == some .release &&
      planOk c { v with mode := if v.mode = .held then .active else v.mode } r
  | .checkIdentity :: r => v.balanced && v.got && planOk c v r
  | .checkBusy :: r => v.balanced && v.got && planOk c v r
  | .writeInitStatus :: r => v.balanced && v.got && v.mode != .held && planOk c { v with passage := none } r
  | .becomeReady :: r =>
    v.balanced && v.wp == .deasserted && v.mode == .active &&
      match r with
      | [.ret _] => true
      | _ => false
  | .checkRange off len :: r => v.balanced && len == v.len && (decide (c.cap < off + len) || planOk c v r)
  | .startCursor off :: r => v.balanced && decide (off + v.len ≤ c.cap) && planOk c { v with cur := off, idx := 0 } r
  | .burstLoop :: r =>
    v.balanced && v.mode != .held && decide (v.idx ≤ v.len) && decide (v.cur + (v.len - v.idx) ≤ c.cap) &&
      r.all (fun l => !l.usesCursor) && planOk c { v with passage := none } r
  | .sizeBurst :: r =>
    v.balanced && decide (v.idx < v.len) && planOk c { v with n := chunk c.page v.cur (v.len - v.idx) } r
  | .writeBurst :: r =>
    v.balanced && v.mode != .held && decide (1 ≤ v.n) && decide (v.n ≤ c.page - v.cur % c.page) &&
      decide (v.n ≤ v.len - v.idx) && decide (v.cur + v.n ≤ c.cap) && planOk c { v with passage := none } r
  | .advanceCursor :: r => v.balanced && planOk c { v with cur := v.cur + v.n, idx := v.idx + v.n } r
  | .startPoll :: r => v.balanced && planOk c v r
  | .poll :: r => v.balanced && v.mode != .held && planOk c { v with got := true, passage := none } r
  | .testPoll :: r => v.balanced && v.got && v.mode != .held && planOk c { v with passage := none } r

/-- The reference device, when it is attached, holds a canonical array with no address at or past the capacity, and has a
sector size (R16, R61, R82). -/
def Link.ok (c : Config) : Link → Prop
  | .oracle => True
  | .reference d => Memory.wf d.arr = true ∧ Memory.below c.cap d.arr = true ∧ 0 < d.sector

/-- What holds of the block between operations: nothing of the last one is left (R34, R36), and the mode is Held exactly while
HOLD is asserted. -/
def State.restOk (s : State) : Prop :=
  s.todo = [] ∧ s.got = none ∧ s.view.balanced = true ∧ (s.life = .uninit → s.mode ≠ .held)

/-- What holds of the block while operation `o` runs (R31, R34, R38). -/
def State.runOk (o : OpName) (s : State) : Prop :=
  planOk s.cfg s.view s.todo = true ∧ s.result = none ∧
    (if o = .init then
      (s.life = .uninit ∧ Line.becomeReady ∈ s.todo) ∨ (s.life = .ready ∧ ∃ v, s.todo = [.ret v])
    else s.life = .ready)

/-- The invariant of the block. -/
def Inv (s : State) : Prop :=
  s.cfg.wf = true ∧ Link.ok s.cfg s.link ∧
    (match s.pc with
      | .idle => s.restOk
      | .op o _ => s.runOk o) ∧
    (s.life = .ready → s.wp = .deasserted ∧ s.mode ≠ .unknown)

/-! ### Words that claims use -/

/-- A frame's channel calls (R104): two for a read and a write, one for every other instruction. -/
def callCount : Instr → Nat
  | .read _ _ | .write _ _ => 2
  | _ => 1

/-- The first event to fail among those to come is the one after the next `k`. -/
def Env.failsAfter (k : Nat) (e : Env) : Prop :=
  Env.okNext k e = true ∧ Env.okNext (k + 1) e = false

/-- The outcome of the event after the next `k`. -/
def Env.outcomeAfter : Nat → Env → Bool
  | 0, e => e.drawOutcome.1
  | k + 1, e => Env.outcomeAfter k e.drawOutcome.2

/-- The next `n` received bytes that no rule names (R81, R167). -/
def Env.nextBytes : Nat → Env → List Byte
  | 0, _ => []
  | n + 1, e => e.drawByte.1 :: Env.nextBytes n e.drawByte.2

/-- The draws with the next `n` received bytes taken. -/
def Env.afterBytes : Nat → Env → Env
  | 0, e => e
  | n + 1, e => Env.afterBytes n e.drawByte.2

/-- The next `n` status frames find bit 0 as `busy` says: of the two bytes each receives, the second is the status (R161). -/
def Env.statusesRead (busy : Bool) (n : Nat) (e : Env) : Prop :=
  ∀ (i : Nat) (b : Byte), (Env.nextBytes (2 * n) e)[2 * i + 1]? = some b → b.getLsbD 0 = busy

/-- What no instruction changes (R168): the configuration, the mode, the two outputs other than chip-select, the
operation-local registers, and the requests to come. -/
structure Kept (s t : State) : Prop where
  cfg : t.cfg = s.cfg
  mode : t.mode = s.mode
  wp : t.wp = s.wp
  hold : t.hold = s.hold
  cur : t.cur = s.cur
  idx : t.idx = s.idx
  n : t.n = s.n
  polls : t.polls = s.polls
  program : t.program = s.program
  port : t.port = s.port

/-- The event is a channel call. -/
def Event.isCall : Event → Bool
  | .sig _ _ _ => false
  | .write _ _ | .xfer _ _ => true

/-- What may follow a frame's chip-select assertion (R154): its channel calls, then at most the one deassertion. -/
def frameTail : List Event → Bool
  | [] => true
  | .sig .cs .deasserted _ :: r => r.isEmpty
  | e :: r => e.isCall && frameTail r

/-- The events of one frame, complete or cut off by an error (R153 to R155). -/
def frameTrace : List Event → Bool
  | .sig .cs .asserted _ :: r => frameTail r
  | _ => false

/-- The phase after `k` more events of the running operation (R34). -/
def Phase.plus (k : Nat) : Phase → Phase
  | .idle => .idle
  | .op o n => .op o (n + k)

/-- A frame has completed with every outcome `ok` (R153, R168): its events are in the trace, chip-select is deasserted, the
phase has counted them, and what no frame changes is as it was. -/
structure FrameDone (calls : List Event) (s t : State) : Prop where
  trace : t.trace = s.trace ++ bracket calls
  cs : t.cs = .deasserted
  pc : t.pc = s.pc.plus (calls.length + 2)
  kept : Kept s t
  life : t.life = s.life
  todo : t.todo = s.todo
  result : t.result = s.result

/-- A host operation has completed with `Ok(v)` after the events `ev` (R22, R24): the block is idle again, and the lifecycle,
the configuration, the write-protect output and the host's requests are as they were. -/
structure OpDone (ev : List Event) (v : Value) (s t : State) : Prop where
  trace : t.trace = s.trace ++ ev
  result : t.result = some (.ok v)
  pc : t.pc = .idle
  todo : t.todo = []
  got : t.got = none
  life : t.life = s.life
  cfg : t.cfg = s.cfg
  wp : t.wp = s.wp
  program : t.program = s.program

/-- The block is idle after a successful INIT: it admits driver and storage operations (R180, R261). -/
structure ReadyIdle (s : State) : Prop where
  wf : s.cfg.wf = true
  idle : s.pc = .idle
  ready : s.life = .ready

/-- The state with a request on the port. -/
def State.ask (r : Request) (s : State) : State :=
  { s with port := some r }

/-- The bursts of a storage write from offset `cur` with `rem` bytes left, as (address, size) pairs (R215): each is a chunk
(R211). `fuel` bounds their number; `rem` of it is always enough. -/
def bursts (page : Nat) : Nat → Nat → Nat → List (Nat × Nat)
  | 0, _, _ => []
  | fuel + 1, cur, rem =>
    if rem = 0 then [] else (cur, chunk page cur rem) :: bursts page fuel (cur + chunk page cur rem) (rem - chunk page cur rem)

/-- The events of one burst (R213) of the payload `d` written from offset `off`, when its first status read, which received
`rs`, finds the device idle: write-enable, write, status, write-disable. -/
def burstEvents (c : Config) (off : Nat) (d : List Byte) (x : Nat × Nat) (rs : List Byte) : List Event :=
  bracket [.write [c.opc.get .writeEnable] true] ++
    bracket [.write (header c.opc .write (addrField x.1)) true, .write (memRead d (x.1 - off) x.2) true] ++
    bracket [.xfer [c.opc.get .readStatus, 0x00] (some rs)] ++
    bracket [.write [c.opc.get .writeDisable] true]

end Sys2Proof.Machine
end

