-- ==== Sys2Proof/Certificates/Slice0/Obligations.lean ====
section
/-! DEFINITION. The statements for the provers. -/

open Sys2Proof Sys2Proof.Machine

/-! ### The command encoder and the status-register codec -/

/-- R100: bits 31:24 of the command word hold the opcode byte, bits 23:0 the address, and its four wire bytes are the opcode and
the address, most significant byte first; so the words of Read and Write at one address differ only in their top byte (R132). -/
def Obligations.CommandWordHoldsOpcodeAndAddress : Prop :=
  ∀ (m : OpcodeMap) (i : Opcode) (a : Addr),
    commandWord m i a = ((m.get i).setWidth 32 <<< 24 ||| a.setWidth 32) ∧
      (commandWord m i a).extractLsb' 24 8 = m.get i ∧ (commandWord m i a).extractLsb' 0 24 = a ∧
      be32 (commandWord m i a) = [m.get i, a.extractLsb' 16 8, a.extractLsb' 8 8, a.extractLsb' 0 8] ∧
      (commandWord m .read a).extractLsb' 0 24 = (commandWord m .write a).extractLsb' 0 24 ∧
      (commandWord m .read a).extractLsb' 24 8 = m.read ∧ (commandWord m .write a).extractLsb' 24 8 = m.write

/-- R139: decoding a status byte and encoding its fields again gives the byte. -/
def Obligations.StatusReencodeRoundTrip : Prop :=
  ∀ b : Byte, srSetWpen (srSetPl b (srPl b)) (srWpen b) = b

/-- R140: a field set is the field read, and setting one field leaves the other accessors as they were. -/
def Obligations.StatusSetThenGet : Prop :=
  ∀ (b : Byte) (l : Protection) (e : Bool),
    srPl (srSetPl b l) = l ∧ srBusy (srSetPl b l) = srBusy b ∧ srWel (srSetPl b l) = srWel b ∧
      srWpen (srSetPl b l) = srWpen b ∧ srWpen (srSetWpen b e) = e ∧ srBusy (srSetWpen b e) = srBusy b ∧
      srWel (srSetWpen b e) = srWel b ∧ srPl (srSetWpen b e) = srPl b

/-- R107: the four codes of status bits 3:2, none reserved. The pairing of codes and levels is the spec's own decision D6 (log
entry 4, PRESUMED). -/
def Obligations.ProtectionCodesCoverTwoBits : Prop :=
  (∀ c : BitVec 2, codeOf (levelOf c) = c) ∧ (∀ l : Protection, levelOf (codeOf l) = l) ∧
    codeOf .none = 0#2 ∧ codeOf .quarter = 1#2 ∧ codeOf .half = 2#2 ∧ codeOf .all = 3#2 ∧
    ∀ b : Byte, srPl b = levelOf (b.extractLsb' 2 2)

/-- R141, with the values of R130, R133 to R138: in every life and mode an idle block answers a combinational request at once,
and nothing but the result port changes; while an operation runs the request is refused. When the requests are admitted is the
spec's decision D38, and the protection codes its decision D6. -/
def Obligations.CombinationalRequestsAnswerAnywhere : Prop :=
  ∀ s : State,
    (s.pc = .idle →
      (∀ b, b < 2 ^ 8 → accept (.srBusy b) s = .next { s with result := some (.ok (.bit (b.testBit 0))) }) ∧
      (∀ b, b < 2 ^ 8 → accept (.srWel b) s = .next { s with result := some (.ok (.bit (b.testBit 1))) }) ∧
      (∀ b, b < 2 ^ 8 → accept (.srWpen b) s = .next { s with result := some (.ok (.bit (b.testBit 7))) }) ∧
      (∀ b, b < 2 ^ 8 →
        accept (.srPl b) s = .next { s with result := some (.ok (.level (levelOf (BitVec.ofNat 2 (b / 4))))) }) ∧
      (∀ b l, b < 2 ^ 8 →
        accept (.srSetPl b (some l)) s =
          .next { s with
            result := some (.ok (.byte ((BitVec.ofNat 8 b &&& 0xF3#8) ||| ((codeOf l).setWidth 8 <<< 2)))) }) ∧
      (∀ b e, b < 2 ^ 8 → e < 2 →
        accept (.srSetWpen b e) s =
          .next { s with result := some (.ok (.byte ((BitVec.ofNat 8 b &&& 0x7F#8) ||| (BitVec.ofNat 8 e <<< 7)))) }) ∧
      (∀ i a, a < 2 ^ 24 →
        accept (.encode (some i) a) s =
          .next { s with result := some (.ok (.word (commandWord s.cfg.opc i (BitVec.ofNat 24 a)))) })) ∧
    (s.pc ≠ .idle → ∀ r : Request, accept r s = .refused .operationInProgress)

/-! ### Encoding -/

/-- Every instruction, with every operand at every value, comes back from its frame (R104 to R106, for opcode bytes that are
told apart, R12). -/
def Obligations.DecodeOfEncodeIsTheInstruction : Prop :=
  ∀ (c : Config) (i : Instr), c.opc.injective = true → decode c (encode c i) = .ok i

/-- A byte sequence that decodes is the frame of what it decodes to: no two frames of the block share an instruction, and no
byte of a frame is ignored (R104 to R106, R109). -/
def Obligations.EncodeOfDecodeIsTheFrame : Prop :=
  ∀ (c : Config) (bs : List Byte) (i : Instr), decode c bs = .ok i → encode c i = bs

/-- R65, R101: an address-qualified frame begins with the command word, opcode byte first, then the address most significant
byte first. -/
def Obligations.HeaderIsBigEndian : Prop :=
  ∀ (c : Config) (a : Addr) (d : List Byte),
    (∀ i : Instr, i ∈ [Instr.read a d, Instr.write a d, Instr.pe a, Instr.se a, Instr.ce a] →
      (encode c i).take 4 = be32 (commandWord c.opc i.opcode a) ∧
      (encode c i).take 4 = [c.opc.get i.opcode, a.extractLsb' 16 8, a.extractLsb' 8 8, a.extractLsb' 0 8]) ∧
    (encode c (.read a d)).drop 4 = d ∧ (encode c (.write a d)).drop 4 = d ∧ (encode c (.pe a)).length = 4 ∧
    (encode c (.se a)).length = 4 ∧ (encode c (.ce a)).length = 4

/-- Words written out from opcode_table.json decode to the instructions they stand for. -/
def Obligations.TableWordsDecode : Prop :=
  decodeTableWord 32 0x03012345 = some (.read 0x012345 []) ∧ decodeTableWord 32 0x0200000A = some (.write 0x00000A []) ∧
    decodeTableWord 8 0x06 = some .wren ∧ decodeTableWord 8 0x04 = some .wrdi ∧ decodeTableWord 16 0x0500 = some .rdsr ∧
    decodeTableWord 16 0x0180 = some (.wrsr 0x80) ∧ decodeTableWord 32 0x42000040 = some (.pe 0x000040) ∧
    decodeTableWord 32 0xD8012345 = some (.se 0x012345) ∧ decodeTableWord 32 0xC7000000 = some (.ce 0x000000) ∧
    decodeTableWord 32 0xAB000000 = some .rpd ∧ decodeTableWord 8 0xB9 = some .dpd ∧ decodeTableWord 8 0x07 = none ∧
    decodeTableWord 16 0x0501 = none

/-- A byte that is no value of `P_OPC` begins no frame of the block (R109). -/
def Obligations.NoFrameBeginsWithAnotherByte : Prop :=
  ∀ (c : Config) (b : Byte) (rest : List Byte), (∀ i, c.opc.get i ≠ b) →
    decode c (b :: rest) = .error (.unknownOpcode b) ∧ ∀ i : Instr, (encode c i).head? ≠ some b

/-! ### Frames: every instruction completes, and what it sends -/

/-- R158, R159, R160, R162, R165: the instructions that only send. When the three events of the frame succeed and the device
is not held, the instruction completes with exactly that frame on the wire, and changes nothing else. The one-, two- and four-byte
lengths are the spec's decisions D14 to D16. -/
def Obligations.SendingFramesComplete : Prop :=
  ∀ s : State, s.mode ≠ .held → Env.okNext 3 s.env = true →
    (∃ t, exec .wren s = .next t ∧ FrameDone [.write [s.cfg.opc.writeEnable] true] s t ∧ t.got = s.got ∧ t.buf = s.buf) ∧
    (∃ t, exec .wrdi s = .next t ∧ FrameDone [.write [s.cfg.opc.writeDisable] true] s t ∧ t.got = s.got ∧ t.buf = s.buf) ∧
    (∃ t, exec .dpd s = .next t ∧ FrameDone [.write [s.cfg.opc.deepSleep] true] s t ∧ t.got = s.got ∧ t.buf = s.buf) ∧
    (∀ v, ∃ t, exec (.wrsr v) s = .next t ∧ FrameDone [.write [s.cfg.opc.writeStatus, v] true] s t ∧ t.got = s.got ∧
      t.buf = s.buf) ∧
    (∀ a, ∃ t, exec (.pe a) s = .next t ∧
      FrameDone [.write (be32 (commandWord s.cfg.opc .pageErase a)) true] s t ∧ t.got = s.got ∧ t.buf = s.buf) ∧
    (∀ a, ∃ t, exec (.se a) s = .next t ∧
      FrameDone [.write (be32 (commandWord s.cfg.opc .sectorErase a)) true] s t ∧ t.got = s.got ∧ t.buf = s.buf) ∧
    (∀ a, ∃ t, exec (.ce a) s = .next t ∧
      FrameDone [.write (be32 (commandWord s.cfg.opc .chipErase a)) true] s t ∧ t.got = s.got ∧ t.buf = s.buf)

/-- R161: the status frame sends the opcode and one zero byte in one full-duplex call; the second byte received is the status
value. -/
def Obligations.StatusReadFrameCompletes : Prop :=
  ∀ s : State, s.mode ≠ .held → Env.okNext 3 s.env = true →
    ∃ t r0 r1, exec .rdsr s = .next t ∧ FrameDone [.xfer [s.cfg.opc.readStatus, 0x00] (some [r0, r1])] s t ∧
      t.got = some r1 ∧ t.buf = s.buf

/-- R166: the identity frame sends the opcode and 3 zero bytes, or 4 when `P_ID5`, in one full-duplex call; the identity is
the last byte received. -/
def Obligations.IdentityFrameCompletes : Prop :=
  ∀ s : State, s.mode ≠ .held → Env.okNext 3 s.env = true →
    ∃ t rs id, exec .rpd s = .next t ∧ rs.length = (if s.cfg.id5 then 4 else 3) ∧
      FrameDone [.xfer (s.cfg.opc.releasePowerDown :: List.replicate (if s.cfg.id5 then 4 else 3) 0x00)
        (some (rs ++ [id]))] s t ∧
      t.got = some id ∧ t.buf = s.buf

/-- R163: the read frame sends the header, then exchanges the buffer's bytes; what is received replaces them in the host
buffer, unless that exchange fails; a failed closing event comes after it. That the buffer's prior bytes are sent is the spec's
decision D13. -/
def Obligations.ReadFrameCompletes : Prop :=
  ∀ (s : State) (a : Addr) (buf : List Byte), s.mode ≠ .held →
    (Env.okNext 4 s.env = true →
      ∃ t rs, exec (.read a buf) s = .next t ∧ rs.length = buf.length ∧
        FrameDone [.write (be32 (commandWord s.cfg.opc .read a)) true, .xfer buf (some rs)] s t ∧
        t.buf = rs ++ s.buf.drop buf.length ∧ t.got = s.got) ∧
    (Env.failsAfter 2 s.env → ∃ t, exec (.read a buf) s = .next t ∧ t.buf = s.buf) ∧
    (Env.failsAfter 3 s.env →
      ∃ t rs, exec (.read a buf) s = .next t ∧ rs.length = buf.length ∧ t.buf = rs ++ s.buf.drop buf.length ∧
        t.trace = s.trace ++ [.sig .cs .asserted true, .write (be32 (commandWord s.cfg.opc .read a)) true,
          .xfer buf (some rs), .sig .cs .deasserted false])

/-- R164: the write frame sends the header and then the payload, of any length and at any address; the second call is issued
for an empty payload too (the spec's decision D12). -/
def Obligations.WriteFrameCompletes : Prop :=
  ∀ (s : State) (a : Addr) (d : List Byte), s.mode ≠ .held → Env.okNext 4 s.env = true →
    ∃ t, exec (.write a d) s = .next t ∧
      FrameDone [.write (be32 (commandWord s.cfg.opc .write a)) true, .write d true] s t ∧ t.got = s.got ∧ t.buf = s.buf

/-- R156: no frame is issued in mode Held; framed driver operations are refused there, and a storage operation leaves it
before its first frame. Outside Held an instruction ends in a next state whatever the environment draws (R24, R238). That each
meaning refuses in mode Held is the model's (log entry 7, DEDUCED). -/
def Obligations.NoFrameWhileHeld : Prop :=
  (∀ (i : Instr) (s : State), s.mode = .held → exec i s = .refused .heldTransaction) ∧
    (∀ (i : Instr) (s : State), s.mode ≠ .held → ∃ t, exec i s = .next t) ∧
    (∀ (r : Request) (o : OpName) (s : State), s.pc = .idle → s.life = .ready → s.mode = .held → r.opName = some o →
      o ≠ .init → r.operandsOk = true → o.framedDriver = true → accept r s = .refused .heldTransaction) ∧
    ∀ (c : Config) (off len : Nat) (buf : List Byte),
      (∃ pre post, storeReadLines c off buf = pre ++ .leaveHeld :: post ∧ ∀ bs, Line.frame bs ∉ pre) ∧
      (∃ pre post, storeWriteLines c off len = pre ++ .leaveHeld :: post ∧ ∀ bs, Line.frame bs ∉ pre)

/-- R151, R152, R155: the three places a frame can fail, the error each reports, the events issued, and where chip-select is
left, with `P_CSERR` and without (the spec's decision D24). -/
def Obligations.FailureInsideFrame : Prop :=
  ∀ (i : Instr) (s : State), s.mode ≠ .held →
    (Env.failsAfter 0 s.env →
      ∃ t, exec i s = .next t ∧ t.result = some (.err .signalError) ∧ t.pc = .idle ∧ t.cs = s.cs ∧
        t.trace = s.trace ++ [.sig .cs .asserted false]) ∧
    (∀ k, 1 ≤ k → k ≤ callCount i → Env.failsAfter k s.env →
      ∃ t ev, exec i s = .next t ∧ t.result = some (.err .transportError) ∧ t.pc = .idle ∧ ev.length = k ∧
        ev.all Event.isCall = true ∧
        (s.cfg.csErr = false → t.cs = .asserted ∧ t.trace = s.trace ++ .sig .cs .asserted true :: ev) ∧
        (s.cfg.csErr = true →
          t.cs = (if Env.outcomeAfter (k + 1) s.env then .deasserted else .asserted) ∧
          t.trace = s.trace ++ .sig .cs .asserted true :: ev ++ [.sig .cs .deasserted (Env.outcomeAfter (k + 1) s.env)])) ∧
    (Env.failsAfter (callCount i + 1) s.env →
      ∃ t ev, exec i s = .next t ∧ t.result = some (.err .signalError) ∧ t.pc = .idle ∧ ev.length = callCount i ∧
        ev.all Event.isCall = true ∧ t.cs = .asserted ∧
        t.trace = s.trace ++ .sig .cs .asserted true :: ev ++ [.sig .cs .deasserted false])

/-- The frame of the eleven instructions: what each leaves unchanged in the block, whether it completes or ends its operation
with an error (R168, R239). Only a read writes the host buffer, and only its first bytes; only the status and identity frames
keep a byte, in the model's own field `got` (log entry 8). -/
def Obligations.InstructionRegisterFrame : Prop :=
  ∀ (i : Instr) (s t : State), exec i s = .next t →
    Kept s t ∧ (writesBuffer i = false → t.buf = s.buf) ∧
    (∀ a buf, i = .read a buf → t.buf.drop buf.length = s.buf.drop buf.length) ∧
    ((t.pc = s.pc.plus (callCount i + 2) ∧ t.life = s.life ∧ t.todo = s.todo ∧ t.result = s.result ∧ t.cs = .deasserted ∧
        (returnsByte i = false → t.got = s.got)) ∨
      (∃ e, (e = .signalError ∨ e = .transportError) ∧ t.pc = .idle ∧ t.todo = [] ∧ t.got = none ∧
        t.result = some (.err e) ∧ t.life = (match s.pc with | .op .init _ => .dead | _ => s.life)))

/-- The frame of the eleven instructions in the reference device's array: the instructions that store nothing there leave
every byte, a write leaves every byte but its targets (R89), an erase every byte outside its extent (R91). With the oracle at
the other end there is no array to change. Chip-select is not asserted before the frame (else the device hears a continuation,
R271, log entry 15), and no event fails (else the device's state is a draw, R83, log entry 16). -/
def Obligations.InstructionArrayFrame : Prop :=
  ∀ (i : Instr) (s t : State), s.mode ≠ .held → Env.okNext (callCount i + 2) s.env = true → exec i s = .next t →
    (s.link = .oracle → t.link = .oracle) ∧
    ∀ d, s.link = .reference d → Memory.wf d.arr = true → s.cs ≠ .asserted → s.cfg.opc.injective = true →
      (i.opcode ∉ [Opcode.write, .pageErase, .sectorErase, .chipErase] →
        ∀ x, Memory.read t.memory x = Memory.read s.memory x) ∧
      (∀ a p, i = .write a p → ∀ x, (∀ k, k < p.length → burstTarget s.cfg.page a.toNat k ≠ x) →
        Memory.read t.memory x = Memory.read s.memory x) ∧
      (∀ a lo n, i ∈ [Instr.pe a, .se a, .ce a] → eraseExtent s.cfg d.sector i.opcode a.toNat = (lo, n) →
        ∀ x, ¬ (lo ≤ x ∧ x < lo + n) → Memory.read t.memory x = Memory.read s.memory x)

/-- The reference device ends a completed frame having heard exactly the bytes the encoding gives the instruction (R83, R104):
from the window of those bytes, what follows is the device's own effect (log entries 15 and 21). -/
def Obligations.DeviceHearsTheEncodedFrame : Prop :=
  ∀ (i : Instr) (s t : State) (d : Device), s.mode ≠ .held → s.cs ≠ .asserted → s.link = .reference d →
    Env.okNext (callCount i + 2) s.env = true → exec i s = .next t →
    ∃ e : Env, t.link = .reference (Device.deselect s.cfg s.wp { d with window := encode s.cfg i } e).1

/-! ### The reference device -/

/-- R82: the status byte the reference device reports, field by field. -/
def Obligations.DeviceStatusByteLayout : Prop :=
  ∀ d : Device,
    srBusy d.status = decide (0 < d.wip) ∧ srWel d.status = d.wel ∧ srPl d.status = levelOf d.pl ∧
      srWpen d.status = d.wpen ∧ d.status.extractLsb' 4 3 = d.hi

/-- R86, R92: a status frame is answered with the status byte in position 1, and counts the write cycle down; the read that
ends the cycle clears WEL. Nothing else of the device and no draw changes (log entry 21). -/
def Obligations.StatusReadCountsTheCycleDown : Prop :=
  ∀ (c : Config) (wp : Pin) (d : Device) (e : Env), c.opc.injective = true → d.asleep = false →
    Device.reply c d [c.opc.readStatus] = some d.status ∧ Device.reply c d [] = none ∧
    ∀ d' e', Device.deselect c wp { d with window := encode c .rdsr } e = (d', e') →
      e' = e ∧ d' = { d with window := [], wip := d.wip - 1, wel := if d.wip = 1 then false else d.wel }

/-- R84, R85: a sleeping device ignores every frame but ReleasePowerDown, a busy one every frame but ReadStatus: no effect,
and no byte of the answer is named (log entries 17 and 21). -/
def Obligations.SleepingOrBusyDeviceIgnores : Prop :=
  ∀ (c : Config) (wp : Pin) (d : Device) (e : Env) (i : Instr), c.opc.injective = true →
    ((d.asleep = true ∧ i ≠ .rpd) ∨ (0 < d.wip ∧ i ≠ .rdsr)) →
    Device.deselect c wp { d with window := encode c i } e = ({ d with window := [] }, e) ∧
    ∀ k, Device.reply c d ((encode c i).take k) = none

/-- R87, R93: write-enable and write-disable set and clear the latch, deep-sleep and release set and clear sleep; the release
frame is answered with the manufacturer code in its last position, and in no other position by a named byte (the reference device of
log entry 21, which applies a frame's effect at the deassertion, G9). -/
def Obligations.LatchAndSleepCommands : Prop :=
  ∀ (c : Config) (wp : Pin) (d : Device) (e : Env), c.opc.injective = true → d.wip = 0 →
    (d.asleep = false →
      Device.deselect c wp { d with window := encode c .wren } e = ({ d with window := [], wel := true }, e) ∧
      Device.deselect c wp { d with window := encode c .wrdi } e = ({ d with window := [], wel := false }, e) ∧
      Device.deselect c wp { d with window := encode c .dpd } e = ({ d with window := [], asleep := true }, e)) ∧
    Device.deselect c wp { d with window := encode c .rpd } e = ({ d with window := [], asleep := false }, e) ∧
    Device.reply c d ((encode c .rpd).dropLast) = some c.manuf ∧
    ∀ k, k < idDummies c → Device.reply c d ((encode c .rpd).take k) = none

/-- R88: a status write is accepted iff WEL is set and WPEN is clear or WP is deasserted; accepted, it sets the level and
WPEN and starts a cycle; otherwise it has no effect (the spec's decision D32; log entry 21). -/
def Obligations.StatusWriteAcceptance : Prop :=
  ∀ (c : Config) (wp : Pin) (d : Device) (e : Env) (v : Byte), c.opc.injective = true → d.asleep = false → d.wip = 0 →
    ∀ d' e', Device.deselect c wp { d with window := encode c (.wrsr v) } e = (d', e') →
      (d.wel = true ∧ (d.wpen = false ∨ wp = .deasserted) →
        d'.pl = v.extractLsb' 2 2 ∧ d'.wpen = v.getLsbD 7 ∧ d'.hi = d.hi ∧ d'.arr = d.arr ∧ d'.asleep = false ∧
          d'.wip = e.drawCycle.1 ∧ d'.wel = decide (e.drawCycle.1 ≠ 0) ∧ e' = e.drawCycle.2) ∧
      (¬ (d.wel = true ∧ (d.wpen = false ∨ wp = .deasserted)) → d' = { d with window := [] } ∧ e' = e)

/-- R89, R70: an accepted write puts payload byte `k` at its target in the page of the address, wrapping within the page; of
two bytes with one target the later one stays; a write cycle starts. Refused, it has no effect (log entry 21). -/
def Obligations.WriteBurstLandsInItsPage : Prop :=
  ∀ (c : Config) (wp : Pin) (d : Device) (e : Env) (a : Addr) (p : List Byte), c.opc.injective = true → 0 < c.page →
    Memory.wf d.arr = true → d.asleep = false → d.wip = 0 →
    ∀ d' e', Device.deselect c wp { d with window := encode c (.write a p) } e = (d', e') →
      ((d.wel = true ∧ a.toNat < c.cap ∧ p ≠ [] ∧
          ∀ k, k < p.length → burstTarget c.page a.toNat k < c.cap ∧ d.protects c (burstTarget c.page a.toNat k) = false) →
        (∀ k b, p[k]? = some b → p.length ≤ k + c.page → Memory.read d'.arr (burstTarget c.page a.toNat k) = b) ∧
        (∀ k, burstTarget c.page a.toNat k / c.page = a.toNat / c.page) ∧
        d'.wip = e.drawCycle.1 ∧ d'.wel = decide (e.drawCycle.1 ≠ 0) ∧ e' = e.drawCycle.2) ∧
      (¬ (d.wel = true ∧ a.toNat < c.cap ∧ p ≠ [] ∧
          ∀ k, k < p.length → burstTarget c.page a.toNat k < c.cap ∧ d.protects c (burstTarget c.page a.toNat k) = false) →
        d' = { d with window := [] } ∧ e' = e)

/-- R91, R95: an accepted erase makes every byte of the extent the erased value and starts a cycle; with a protected byte in
the extent, or a chip erase while a level is in force, it has no effect (log entry 21). -/
def Obligations.EraseClearsItsExtent : Prop :=
  ∀ (c : Config) (wp : Pin) (d : Device) (e : Env) (a : Addr) (i : Instr) (lo n : Nat), c.opc.injective = true →
    Memory.wf d.arr = true → d.asleep = false → d.wip = 0 → i ∈ [Instr.pe a, .se a, .ce a] →
    eraseExtent c d.sector i.opcode a.toNat = (lo, n) →
    ∀ d' e', Device.deselect c wp { d with window := encode c i } e = (d', e') →
      ((d.wel = true ∧ a.toNat < c.cap ∧ (∀ x, lo ≤ x → x < lo + n → d.protects c x = false) ∧
          ¬ (i = .ce a ∧ d.wpen = true ∧ levelOf d.pl ≠ .none)) →
        (∀ x, lo ≤ x → x < lo + n → Memory.read d'.arr x = d.erased) ∧
        d'.wip = e.drawCycle.1 ∧ d'.wel = decide (e.drawCycle.1 ≠ 0) ∧ e' = e.drawCycle.2) ∧
      (¬ (d.wel = true ∧ a.toNat < c.cap ∧ (∀ x, lo ≤ x → x < lo + n → d.protects c x = false) ∧
          ¬ (i = .ce a ∧ d.wpen = true ∧ levelOf d.pl ≠ .none)) →
        d' = { d with window := [] } ∧ e' = e)

/-- R90, R69: in a read frame the byte after the header and `k` data bytes is the array's at the address plus `k`, across page
boundaries, when that lies below the capacity; otherwise, and during the header, no byte is named. A read changes nothing (log entry 21). -/
def Obligations.ReadAnswersConsecutiveBytes : Prop :=
  ∀ (c : Config) (wp : Pin) (d : Device) (e : Env) (a : Addr) (x : List Byte), c.opc.injective = true →
    d.asleep = false → d.wip = 0 →
    (∀ k, k ≤ x.length →
      Device.reply c d ((encode c (.read a x)).take (4 + k)) =
        if a.toNat + k < c.cap then some (Memory.read d.arr (a.toNat + k)) else none) ∧
    (∀ k, k < 4 → Device.reply c d ((encode c (.read a x)).take k) = none) ∧
    Device.deselect c wp { d with window := encode c (.read a x) } e = ({ d with window := [] }, e)

/-! ### Requests -/

/-- R180, R237, R241: the admission of a request: the first of the tests that fails names the refusal, in R180's order, and a
request that passes all of them starts. -/
def Obligations.AdmissionFollowsTheTable : Prop :=
  ∀ (r : Request) (s : State),
    (s.pc ≠ .idle → accept r s = .refused .operationInProgress) ∧
    (s.pc = .idle →
      (∀ name, r = .unknown name → accept r s = .refused .unknownOperation) ∧
      (r.known = true → r.operandsOk = false → accept r s = .refused .badOperand) ∧
      (r.known = true → r.operandsOk = true →
        (r.opName = none → accept r s = .next (start r s)) ∧
        (r = .init → s.life = .uninit → accept r s = .next (start r s)) ∧
        (r = .init → s.life ≠ .uninit → accept r s = .refused .alreadyInitialised) ∧
        ∀ o, r.opName = some o → o ≠ .init →
          (s.life ≠ .ready → accept r s = .refused .notReady) ∧
          (s.life = .ready →
            (o.framedDriver = true → s.mode = .held → accept r s = .refused .heldTransaction) ∧
            (o = .deepSleep → s.mode ≠ .held → s.cfg.sleep = false → accept r s = .refused .noDeepSleep) ∧
            (o = .hold → s.cfg.hold = false → accept r s = .refused .noHold) ∧
            (o = .hold → s.cfg.hold = true → s.mode ≠ .active → accept r s = .refused .holdNotActive) ∧
            (¬ (o.framedDriver = true ∧ s.mode = .held) → ¬ (o = .deepSleep ∧ s.cfg.sleep = false) →
              ¬ (o = .hold ∧ (s.cfg.hold = false ∨ s.mode ≠ .active)) → accept r s = .next (start r s)))))

/-- R114: which operands are refused, of every request that has one (R111). -/
def Obligations.OperandValidity : Prop :=
  (∀ a buf, Request.operandsOk (.read a buf) = decide (a < 2 ^ 24) ∧ Request.operandsOk (.write a buf) = decide (a < 2 ^ 24)) ∧
    (∀ a g, Request.operandsOk (.erase a (some g)) = decide (a < 2 ^ 24) ∧ Request.operandsOk (.erase a none) = false) ∧
    (∀ a i, Request.operandsOk (.encode (some i) a) = decide (a < 2 ^ 24) ∧ Request.operandsOk (.encode none a) = false) ∧
    (∀ v, Request.operandsOk (.writeStatus v) = decide (v < 2 ^ 8) ∧ Request.operandsOk (.srBusy v) = decide (v < 2 ^ 8) ∧
      Request.operandsOk (.srWel v) = decide (v < 2 ^ 8) ∧ Request.operandsOk (.srPl v) = decide (v < 2 ^ 8) ∧
      Request.operandsOk (.srWpen v) = decide (v < 2 ^ 8)) ∧
    (∀ b l, Request.operandsOk (.srSetPl b (some l)) = decide (b < 2 ^ 8) ∧ Request.operandsOk (.srSetPl b none) = false) ∧
    (∀ b e, Request.operandsOk (.srSetWpen b e) = decide (b < 2 ^ 8 ∧ e < 2)) ∧
    ∀ off buf, Request.operandsOk (.storeRead off buf) = true ∧ Request.operandsOk (.storeWrite off buf) = true

/-! ### Reset, the step, and the invariant -/

/-- R47, R260: the state after reset, under every configuration: what R47 names, and no event issued. `State.reset` is that
state under one configuration. -/
def Obligations.ResetState : Prop :=
  (∀ c : Config,
    (State.resetWith c).cfg = c ∧ (State.resetWith c).life = .uninit ∧ (State.resetWith c).mode = .unknown ∧
      (State.resetWith c).cs = .unknown ∧ (State.resetWith c).wp = .unknown ∧ (State.resetWith c).hold = .unknown ∧
      (State.resetWith c).pc = .idle ∧ (State.resetWith c).trace = []) ∧
    ∃ c, State.reset = State.resetWith c

/-- The invariant holds after reset, under every well-formed configuration. `Inv` speaks of the model's own fields `todo` and `got`
(log entries 8 and 9). -/
def Obligations.ResetMeetsTheInvariant : Prop :=
  (∀ c : Config, c.wf = true → Inv (State.resetWith c)) ∧ Inv State.reset

/-- The headline: the invariant of the block (`Inv`) is kept by every step, from every state that meets it. `Inv` speaks of the
model's own fields `todo` and `got` (log entries 8 and 9). -/
def Obligations.EveryStepKeepsTheInvariant : Prop :=
  ∀ s t : State, Inv s → step s = .next t → Inv t

/-- A running operation is never stopped by a refusal or a fault: it goes on until it returns or ends with an error (R34,
R109, R156, R238). -/
def Obligations.RunningOperationNeverStops : Prop :=
  ∀ s : State, Inv s → s.pc ≠ .idle → s.port = none → ∃ t, step s = .next t

/-- A step runs the decoded instruction: when the next line is a frame whose bytes decode to `i`, the step is `exec i` with
the line taken off; a word placed by `withFetchWord` (log entry 5) is run so. -/
def Obligations.StepRunsTheDecodedInstruction : Prop :=
  (∀ (s : State) (bs : List Byte) (rest : List Line) (i : Instr), s.cfg.wf = true → s.port = none →
    s.todo = .frame bs :: rest → decode s.cfg bs = .ok i → step s = exec i { s with todo := rest }) ∧
  ∀ (s : State) (nbits w : Nat) (i : Instr), s.cfg.wf = true → decode s.cfg (tableFrame s.cfg nbits w) = .ok i →
    step (s.withFetchWord nbits w) = exec i { s with port := none }

/-- "Nothing in it changes at run time": no step changes the configuration (00_scope.md section 3). -/
def Obligations.ConfigurationNeverChanges : Prop :=
  ∀ s t : State, step s = .next t → t.cfg = s.cfg

/-- An ill-formed configuration is refused under R237's name BadConfig (R6, R12). That the configuration is tested at every step
and before any request is looked at is the model's choice (log entry 12, DEDUCED). -/
def Obligations.BadConfigurationRefused : Prop :=
  ∀ s : State, (s.cfg.cap = 0 ∨ 2 ^ 24 ≤ s.cfg.cap ∨ s.cfg.page ∉ [16, 32, 64, 128, 256] ∨
    (∃ i j, i ≠ j ∧ s.cfg.opc.get i = s.cfg.opc.get j)) → step s = .refused .badConfig

/-- R34: an event already issued stays issued; while an operation runs, the phase counts each event, until the operation
ends. What one step is is the model's choice (log entry 9). -/
def Obligations.PhaseCountsEvents : Prop :=
  ∀ s t : State, step s = .next t →
    ∃ ev, t.trace = s.trace ++ ev ∧ ∀ o k, s.pc = .op o k → t.pc = .idle ∨ t.pc = .op o (k + ev.length)

/-- R154, R157: the events of one step are none, one signal event, or those of one frame: chip-select asserted, channel calls
only, and at most the one deassertion that ends it. What one step is is the model's choice (log entry 9). -/
def Obligations.FramesAreAtomic : Prop :=
  ∀ s t : State, step s = .next t →
    ∃ ev, t.trace = s.trace ++ ev ∧ (ev = [] ∨ (∃ x l ok, ev = [.sig x l ok]) ∨ frameTrace ev = true)

/-- R31, R184, R249: the lifecycle goes from Uninit to Ready or Dead, only while INIT runs, and from Ready or Dead nowhere. -/
def Obligations.LifecycleMovesOnlyInInit : Prop :=
  ∀ s t : State, Inv s → step s = .next t → t.life ≠ s.life →
    s.life = .uninit ∧ (∃ k, s.pc = .op .init k) ∧ (t.life = .ready ∨ t.life = .dead)

/-- R196: the mode changes only by the transitions of R196's table, each right after its own event or frame, every outcome `ok`:
to DeepSleep after `F_DPD`; to Active after `F_RPD`, or from Held after HOLD deasserted; to Held only from Active, after HOLD
asserted; never back to Unknown. That a wake or sleep frame sets the mode whatever it was is the spec's decision (D19, D27).
`Inv` speaks of the model's own fields `todo` and `got` (log entries 8 and 9), and that the move
itself is a step that issues no event is the model's choice (log entry 9). -/
def Obligations.ModeTransitions : Prop :=
  ∀ s t : State, Inv s → step s = .next t → t.mode ≠ s.mode →
    t.trace = s.trace ∧
    ((s.mode ≠ .held ∧ t.mode = .active ∧
        ∃ pre rs, s.trace = pre ++ bracket [.xfer (s.cfg.opc.releasePowerDown :: zeroBytes (idDummies s.cfg)) (some rs)]) ∨
      (s.mode ≠ .held ∧ t.mode = .deepSleep ∧ ∃ pre, s.trace = pre ++ bracket [.write [s.cfg.opc.deepSleep] true]) ∨
      (s.mode = .active ∧ t.mode = .held ∧ s.hold = .asserted ∧ ∃ pre, s.trace = pre ++ [.sig .hold .asserted true]) ∨
      (s.mode = .held ∧ t.mode = .active ∧ s.hold = .deasserted ∧ ∃ pre, s.trace = pre ++ [.sig .hold .deasserted true]))

/-- R263: from a Ready state on, WP stays deasserted and the block stays Ready, however long it runs. -/
def Obligations.WriteProtectStaysDeasserted : Prop :=
  ∀ s t : State, Inv s → s.life = .ready → Reaches s t → t.life = .ready ∧ t.wp = .deasserted

/-- R36, R34: between operations the block holds no byte it received and no line of an operation (log entries 8 and 9). -/
def Obligations.NothingKeptBetweenOperations : Prop :=
  ∀ s t : State, Inv s → Reaches s t → t.pc = .idle → t.got = none ∧ t.todo = []

/-- R249: a Dead block issues no event ever again, refuses every request but the combinational ones, and a run that asks it
for nothing more ends in a fault (the moment of that fault is the model's, log entry 10, DEDUCED). -/
def Obligations.DeadIsFinal : Prop :=
  (∀ s t : State, Inv s → s.life = .dead → Reaches s t → t.trace = s.trace ∧ t.life = .dead) ∧
    (∀ s : State, Inv s → s.life = .dead → s.port = none → s.program = [] → step s = .fault .deadBlock) ∧
    ∀ (s : State) (r : Request), Inv s → s.life = .dead → r.known = true → r.operandsOk = true →
      accept r s = (match r.opName with
        | none => .next (start r s)
        | some .init => .refused .alreadyInitialised
        | some _ => .refused .notReady)

/-- R35, R210, R216: whenever a storage write is about to send a burst, the burst has 1 to `P_PAGE` bytes, lies inside one
page and below the capacity, and its address fits 24 bits. -/
def Obligations.EveryBurstIsInsideOnePage : Prop :=
  ∀ (s : State) (rest : List Line), Inv s → (∃ o k, s.pc = .op o k) → s.todo = .writeBurst :: rest →
    1 ≤ s.n ∧ s.n ≤ s.cfg.page ∧ s.cur + s.n ≤ s.cfg.cap ∧ s.cur / s.cfg.page = (s.cur + s.n - 1) / s.cfg.page ∧
      (addrField s.cur).toNat = s.cur ∧ (memRead s.buf s.idx s.n).length = s.n

/-- R184, R238, R239: a step that ends an operation with an error leaves the block idle and the mode, the outputs other than
chip-select and the requests to come as they were; INIT is left Dead, any other operation leaves the lifecycle as it was. -/
def Obligations.ErrorEndsTheOperation : Prop :=
  ∀ (s t : State) (e : ErrorKind), s.pc ≠ .idle → s.result = none → step s = .next t → t.result = some (.err e) →
    t.pc = .idle ∧ t.todo = [] ∧ t.got = none ∧ t.mode = s.mode ∧ t.wp = s.wp ∧ t.hold = s.hold ∧ t.program = s.program ∧
      t.life = (match s.pc with | .op .init _ => .dead | _ => s.life)

/-! ### Host operations, from the request to the result

How many steps an operation takes is the model's choice (log entry 9). -/

/-- R181, R182, R183, R263: INIT from the idle, never initialised block. Its first six events lead to the identity byte. Another
byte than `P_MANUF` ends it with WrongIdentity, Dead, after no further event. With `P_MANUF` it ends Ready, Active and with
all three outputs deasserted, after the hold release, or, when `P_SRPROT`, after the five frames of the protection sequence
and the hold release; the status byte they write is `P_INITSR` of the one just read, by default with the level None and every
other bit as read (R15). -/
def Obligations.InitRuns : Prop :=
  ∀ s : State, s.cfg.wf = true → s.pc = .idle → s.life = .uninit → s.mode ≠ .held → Env.okNext 6 s.env = true →
    ∃ u rs id, core.run 5 (s.ask .init) = .next u ∧ rs.length = (if s.cfg.id5 then 4 else 3) ∧
      u.trace = s.trace ++ [.sig .cs .deasserted true, .sig .hold .deasserted true, .sig .wp .deasserted true] ++
        bracket [.xfer (s.cfg.opc.releasePowerDown :: List.replicate (if s.cfg.id5 then 4 else 3) 0x00)
          (some (rs ++ [id]))] ∧
      (id ≠ s.cfg.manuf →
        ∃ t, core.run 7 (s.ask .init) = .next t ∧ t.result = some (.err .wrongIdentity) ∧ t.life = .dead ∧
          t.mode = .active ∧ t.trace = u.trace ∧ t.pc = .idle) ∧
      (id = s.cfg.manuf → s.cfg.srProt = false → Env.okNext 7 s.env = true →
        ∃ t, core.run 10 (s.ask .init) = .next t ∧ t.trace = u.trace ++ [.sig .hold .deasserted true] ∧
          t.result = some (.ok .unit) ∧ t.life = .ready ∧ t.mode = .active ∧ t.cs = .deasserted ∧ t.hold = .deasserted ∧
          t.wp = .deasserted ∧ t.pc = .idle ∧ t.got = none) ∧
      (id = s.cfg.manuf → s.cfg.srProt = true → Env.okNext 22 s.env = true →
        ∃ t r0 r1, core.run 16 (s.ask .init) = .next t ∧
          t.trace = u.trace ++ bracket [.xfer [s.cfg.opc.readStatus, 0x00] (some [r0, r1])] ++
            bracket [.write [s.cfg.opc.writeEnable] true] ++
            bracket [.write [s.cfg.opc.writeStatus, initStatus s.cfg r1] true] ++
            bracket [.write [s.cfg.opc.writeEnable] true] ++ bracket [.write [s.cfg.opc.writeDisable] true] ++
            [.sig .hold .deasserted true] ∧
          t.result = some (.ok .unit) ∧ t.life = .ready ∧ t.mode = .active ∧ t.cs = .deasserted ∧ t.hold = .deasserted ∧
          t.wp = .deasserted ∧ t.pc = .idle ∧ t.got = none) ∧
      (s.cfg.initSr = [] → ∀ b, initStatus s.cfg b = b &&& 0xF3#8)

/-- R185 to R188: READ_STATUS, WRITE_STATUS, WRITE_ENABLE and WRITE_DISABLE: one frame each, and the result. -/
def Obligations.StatusAndLatchOperationsRun : Prop :=
  ∀ s : State, ReadyIdle s → s.mode ≠ .held → Env.okNext 3 s.env = true →
    (∃ t r0 r1, core.run 3 (s.ask .readStatus) = .next t ∧
      OpDone (bracket [.xfer [s.cfg.opc.readStatus, 0x00] (some [r0, r1])]) (.byte r1) s t ∧ t.mode = s.mode ∧
      t.cs = .deasserted ∧ t.hold = s.hold ∧ t.buf = s.buf) ∧
    (∀ v, v < 2 ^ 8 → ∃ t, core.run 3 (s.ask (.writeStatus v)) = .next t ∧
      OpDone (bracket [.write [s.cfg.opc.writeStatus, BitVec.ofNat 8 v] true]) .unit s t ∧ t.mode = s.mode ∧
      t.cs = .deasserted ∧ t.hold = s.hold ∧ t.buf = s.buf) ∧
    (∃ t, core.run 3 (s.ask .writeEnable) = .next t ∧
      OpDone (bracket [.write [s.cfg.opc.writeEnable] true]) .unit s t ∧ t.mode = s.mode ∧ t.cs = .deasserted ∧
      t.hold = s.hold ∧ t.buf = s.buf) ∧
    (∃ t, core.run 3 (s.ask .writeDisable) = .next t ∧
      OpDone (bracket [.write [s.cfg.opc.writeDisable] true]) .unit s t ∧ t.mode = s.mode ∧ t.cs = .deasserted ∧
      t.hold = s.hold ∧ t.buf = s.buf)

/-- R189, R190: READ and WRITE: one frame each, with no capacity or length check; the read's bytes are its value and the new
contents of the host buffer. -/
def Obligations.ReadAndWriteOperationsRun : Prop :=
  ∀ (s : State) (a : Nat) (d : List Byte), ReadyIdle s → s.mode ≠ .held → Env.okNext 4 s.env = true → a < 2 ^ 24 →
    (∃ t rs, core.run 3 (s.ask (.read a d)) = .next t ∧ rs.length = d.length ∧
      OpDone (bracket [.write (be32 (commandWord s.cfg.opc .read (BitVec.ofNat 24 a))) true, .xfer d (some rs)]) (.bytes rs) s t ∧
      t.buf = rs ∧ t.mode = s.mode ∧ t.cs = .deasserted ∧ t.hold = s.hold) ∧
    (∃ t, core.run 3 (s.ask (.write a d)) = .next t ∧
      OpDone (bracket [.write (be32 (commandWord s.cfg.opc .write (BitVec.ofNat 24 a))) true, .write d true]) .unit s t ∧
      t.mode = s.mode ∧ t.cs = .deasserted ∧ t.hold = s.hold)

/-- R191: ERASE reads the status first. Busy, it ends with DeviceBusy after that one frame; idle, it sends write-enable and
the erase frame of its granularity, and does not wait. -/
def Obligations.EraseRuns : Prop :=
  ∀ (s : State) (a : Nat) (g : Granularity), ReadyIdle s → s.mode ≠ .held → Env.okNext 3 s.env = true → a < 2 ^ 24 →
    ∃ u r0 r1, core.run 2 (s.ask (.erase a (some g))) = .next u ∧
      u.trace = s.trace ++ bracket [.xfer [s.cfg.opc.readStatus, 0x00] (some [r0, r1])] ∧
      (r1.getLsbD 0 = true →
        ∃ t, core.run 3 (s.ask (.erase a (some g))) = .next t ∧ t.result = some (.err .deviceBusy) ∧ t.trace = u.trace ∧
          t.pc = .idle ∧ t.mode = s.mode ∧ t.life = s.life ∧ t.cs = .deasserted) ∧
      (r1.getLsbD 0 = false → Env.okNext 9 s.env = true →
        ∃ t, core.run 6 (s.ask (.erase a (some g))) = .next t ∧
          OpDone (bracket [.xfer [s.cfg.opc.readStatus, 0x00] (some [r0, r1])] ++
            bracket [.write [s.cfg.opc.writeEnable] true] ++
            bracket [.write (be32 (commandWord s.cfg.opc
              (match g with | .page => .pageErase | .sector => .sectorErase | .chip => .chipErase)
              (BitVec.ofNat 24 a))) true]) .unit s t ∧
          t.mode = s.mode ∧ t.cs = .deasserted)

/-- R192, R193: DEEP_SLEEP sends its frame and the mode becomes DeepSleep; WAKE sends the identity frame, the mode becomes
Active and the identity byte is the value, whatever it is. -/
def Obligations.SleepAndWakeOperationsRun : Prop :=
  ∀ s : State, ReadyIdle s → s.mode ≠ .held → Env.okNext 3 s.env = true →
    (s.cfg.sleep = true → ∃ t, core.run 4 (s.ask .deepSleep) = .next t ∧
      OpDone (bracket [.write [s.cfg.opc.deepSleep] true]) .unit s t ∧ t.mode = .deepSleep ∧ t.cs = .deasserted) ∧
    (∃ t rs id, core.run 4 (s.ask .wake) = .next t ∧ rs.length = (if s.cfg.id5 then 4 else 3) ∧
      OpDone (bracket [.xfer (s.cfg.opc.releasePowerDown :: List.replicate (if s.cfg.id5 then 4 else 3) 0x00)
        (some (rs ++ [id]))]) (.byte id) s t ∧ t.mode = .active ∧ t.cs = .deasserted)

/-- R194, R195: HOLD drives the hold output and the mode becomes Held; UNHOLD drives it back in every mode, and leaves Held for
Active. When the event fails the mode is as it was and the result is SignalError. -/
def Obligations.HoldAndUnholdOperationsRun : Prop :=
  ∀ s : State, ReadyIdle s →
    (s.cfg.hold = true → s.mode = .active →
      (Env.okNext 1 s.env = true → ∃ t, core.run 4 (s.ask .hold) = .next t ∧
        OpDone [.sig .hold .asserted true] .unit s t ∧ t.mode = .held ∧ t.hold = .asserted ∧ t.cs = s.cs) ∧
      (Env.okNext 1 s.env = false → ∃ t, core.run 2 (s.ask .hold) = .next t ∧ t.result = some (.err .signalError) ∧
        t.mode = .active ∧ t.hold = s.hold ∧ t.pc = .idle ∧ t.trace = s.trace ++ [.sig .hold .asserted false])) ∧
    (Env.okNext 1 s.env = true → ∃ t, core.run 4 (s.ask .unhold) = .next t ∧
      OpDone [.sig .hold .deasserted true] .unit s t ∧ t.mode = (if s.mode = .held then .active else s.mode) ∧
      t.hold = .deasserted ∧ t.cs = s.cs) ∧
    (Env.okNext 1 s.env = false → ∃ t, core.run 2 (s.ask .unhold) = .next t ∧ t.result = some (.err .signalError) ∧
      t.mode = s.mode ∧ t.hold = s.hold ∧ t.pc = .idle ∧ t.trace = s.trace ++ [.sig .hold .deasserted false])

/-- R210: a storage request that reaches past the capacity ends with OutOfRange before any event, in every mode. -/
def Obligations.OutOfRangeBeforeAnyEvent : Prop :=
  ∀ (s : State) (off : Nat) (d : List Byte), ReadyIdle s → s.cfg.cap < off + d.length →
    ∀ r, r = Request.storeRead off d ∨ r = Request.storeWrite off d →
      ∃ t, core.run 2 (s.ask r) = .next t ∧ t.result = some (.err .outOfRange) ∧ t.trace = s.trace ∧ t.pc = .idle ∧
        t.mode = s.mode ∧ t.life = s.life ∧ t.cs = s.cs ∧ t.wp = s.wp ∧ t.hold = s.hold ∧ t.link = s.link ∧
        t.env = s.env ∧ t.buf = d

/-- R212, R217, R218: STORE_READ in range reads the whole length in one frame between two hold releases, with the wake and the
return to deep-sleep around it when `P_SLEEP`; it is admitted in every mode, and leaves Held. -/
def Obligations.StoreReadRuns : Prop :=
  ∀ (s : State) (off : Nat) (d : List Byte), ReadyIdle s → off + d.length ≤ s.cfg.cap →
    (s.cfg.sleep = false → Env.okNext 6 s.env = true →
      ∃ t rs, core.run 8 (s.ask (.storeRead off d)) = .next t ∧ rs.length = d.length ∧
        OpDone ([.sig .hold .deasserted true] ++
          bracket [.write (be32 (commandWord s.cfg.opc .read (BitVec.ofNat 24 off))) true, .xfer d (some rs)] ++
          [.sig .hold .deasserted true]) (.bytes rs) s t ∧
        t.buf = rs ∧ t.mode = (if s.mode = .held then .active else s.mode) ∧ t.hold = .deasserted ∧ t.cs = .deasserted) ∧
    (s.cfg.sleep = true → Env.okNext 12 s.env = true →
      ∃ t rs ids, core.run 12 (s.ask (.storeRead off d)) = .next t ∧ rs.length = d.length ∧
        OpDone ([.sig .hold .deasserted true] ++
          bracket [.xfer (s.cfg.opc.releasePowerDown :: List.replicate (if s.cfg.id5 then 4 else 3) 0x00) (some ids)] ++
          bracket [.write (be32 (commandWord s.cfg.opc .read (BitVec.ofNat 24 off))) true, .xfer d (some rs)] ++
          bracket [.write [s.cfg.opc.deepSleep] true] ++ [.sig .hold .deasserted true]) (.bytes rs) s t ∧
        t.buf = rs ∧ t.mode = .deepSleep ∧ t.hold = .deasserted ∧ t.cs = .deasserted)

/-- R211, R215, R216: the bursts of a storage write: chunks of 1 to `P_PAGE` bytes, each inside one page, one after the other
from the offset to the end, every one after the first on a page boundary, as many as the pages the range touches. -/
def Obligations.BurstLaw : Prop :=
  ∀ page off len : Nat, 0 < page →
    (∀ x ∈ bursts page len off len, 1 ≤ x.2 ∧ x.2 ≤ page ∧ x.1 / page = (x.1 + x.2 - 1) / page ∧ off ≤ x.1 ∧
      x.1 + x.2 ≤ off + len ∧ (x.1 = off ∨ x.1 % page = 0) ∧
      (x.1 = off ∨ x.1 + x.2 = off + len ∨ x.2 = page)) ∧
    ((bursts page len off len).map (·.2)).sum = len ∧
    (∀ k x y, (bursts page len off len)[k]? = some x → (bursts page len off len)[k + 1]? = some y → y.1 = x.1 + x.2) ∧
    (1 ≤ len → (bursts page len off len).head?.map (·.1) = some off ∧
      (bursts page len off len).length = (off + len - 1) / page - off / page + 1) ∧
    (len = 0 → bursts page len off len = [])

/-- The headline of the storage layer (R213, R215, R217, R218): an in-range STORE_WRITE whose events all succeed and whose
status reads all find the device idle sends exactly the bursts of the burst law, each with its write-enable before, its status
read and its write-disable after, between two hold releases and, when `P_SLEEP`, the wake and the return to deep-sleep, and
returns Ok; with no payload there is no burst. -/
def Obligations.StoreWriteSendsItsBursts : Prop :=
  ∀ (s : State) (off : Nat) (d : List Byte), ReadyIdle s → off + d.length ≤ s.cfg.cap → s.link = .oracle →
    Env.okNext (13 * (bursts s.cfg.page d.length off d.length).length + if s.cfg.sleep then 8 else 2) s.env = true →
    Env.statusesRead false (bursts s.cfg.page d.length off d.length).length
      (Env.afterBytes (if s.cfg.sleep then idDummies s.cfg + 1 else 0) s.env) →
    ∃ k t rss ids, core.run k (s.ask (.storeWrite off d)) = .next t ∧
      rss.length = (bursts s.cfg.page d.length off d.length).length ∧ (∀ rs ∈ rss, rs.length = 2) ∧
      OpDone ([.sig .hold .deasserted true] ++
        (if s.cfg.sleep then bracket [.xfer (s.cfg.opc.releasePowerDown :: zeroBytes (idDummies s.cfg)) (some ids)] else []) ++
        ((bursts s.cfg.page d.length off d.length).zip rss).flatMap (fun x => burstEvents s.cfg off d x.1 x.2) ++
        (if s.cfg.sleep then bracket [.write [s.cfg.opc.deepSleep] true] else []) ++
        [.sig .hold .deasserted true]) .unit s t ∧
      t.mode = (if s.cfg.sleep then .deepSleep else if s.mode = .held then .active else s.mode) ∧ t.hold = .deasserted ∧
      t.cs = (if d = [] ∧ s.cfg.sleep = false then s.cs else .deasserted) ∧ t.buf = d

/-- R220: with `P_POLL = m` a STORE_WRITE presented to an idle Ready block is taken and ends with a result of its own, whatever the
environment draws and whatever device answers, after at most `B * (3m + 10) + 8` events, where `B` is the number of its bursts.
It ends at a step `k` of at least 1, before which no further request is taken: the first step clears the last operation's result
(log entry 14), and how many steps follow is the model's (log entry 9). -/
def Obligations.StoreWriteEndsWithinItsBound : Prop :=
  ∀ (s : State) (off m : Nat) (d : List Byte), ReadyIdle s → s.cfg.poll = some m →
    ∃ k t, 1 ≤ k ∧ core.run k (s.ask (.storeWrite off d)) = .next t ∧ t.pc = .idle ∧ t.port = none ∧
      t.program = s.program ∧ (∃ r, t.result = some r) ∧
      t.trace.length ≤ s.trace.length + (bursts s.cfg.page d.length off d.length).length * (3 * m + 10) + 8

/-- R214, R236: the tests of the busy-wait, on bit 0 of the status byte alone: idle goes on to the next line; the `m`-th busy
reading under `P_POLL = m` ends the operation with WriteTimeout; any other busy reading turns the loop with its own status
frame. -/
def Obligations.BusyWaitTests : Prop :=
  ∀ (s : State) (rest : List Line) (b : Byte), s.cfg.wf = true → s.port = none →
    (s.todo = .startPoll :: rest → step s = .next { s with todo := rest, polls := 0 }) ∧
    (s.todo = .poll :: rest →
      step s = .next { s with todo := .frame [s.cfg.opc.readStatus, 0x00] :: .testPoll :: rest }) ∧
    (s.todo = .testPoll :: rest → s.got = some b →
      (b.getLsbD 0 = false → step s = .next { s with todo := rest, polls := s.polls + 1 }) ∧
      (b.getLsbD 0 = true → (s.cfg.poll = none ∨ ∃ m, s.cfg.poll = some m ∧ s.polls + 1 < m) →
        step s = .next { s with todo := .poll :: rest, polls := s.polls + 1 }) ∧
      (b.getLsbD 0 = true → (∃ m, s.cfg.poll = some m ∧ m ≤ s.polls + 1) →
        ∃ t, step s = .next t ∧ t.result = some (.err .writeTimeout) ∧ t.pc = .idle ∧ t.polls = s.polls + 1 ∧
          t.trace = s.trace ∧ t.mode = s.mode))

/-- R220, R214: with `P_POLL = none` the busy-wait has no bound: as long as the device reports busy, for any number `j` of
status reads, the loop has made `j` turns and goes on. -/
def Obligations.UnboundedBusyWait : Prop :=
  ∀ (j : Nat) (s : State) (rest : List Line), s.cfg.wf = true → s.cfg.poll = none → s.port = none → s.mode ≠ .held →
    s.link = .oracle → s.todo = .poll :: rest → Env.okNext (3 * j) s.env = true →
    Env.statusesRead true j s.env →
    ∃ t, core.run (3 * j) s = .next t ∧ t.todo = .poll :: rest ∧ t.polls = s.polls + j ∧
      t.trace.length = s.trace.length + 3 * j

/-- R214, R220: with `P_POLL = m` the busy-wait of a device that stays busy ends with WriteTimeout at the `m`-th reading,
counted from the start of the wait. -/
def Obligations.BoundedBusyWaitTimesOut : Prop :=
  ∀ (m : Nat) (s : State) (rest : List Line), s.cfg.wf = true → s.cfg.poll = some m → s.port = none → s.mode ≠ .held →
    s.pc ≠ .idle → s.link = .oracle → s.todo = .startPoll :: .poll :: rest → Env.okNext (3 * m) s.env = true →
    Env.statusesRead true m s.env →
    ∃ t, core.run (3 * m + 1) s = .next t ∧ t.result = some (.err .writeTimeout) ∧ t.pc = .idle ∧ t.polls = m ∧
      t.trace.length = s.trace.length + 3 * m
end

