-- ==== Sys2Proof/Laws/Encoding.lean ====
section
/-! SUPPORT. The small laws of the encoding: header bytes, the opcode of a byte, and opcode bytes told apart. -/

namespace Sys2Proof

theorem Opcode.mem_all (i : Opcode) : i ∈ Opcode.all := by
  cases i <;> decide

/-- The four bytes of a header: the opcode, then the address most significant byte first (R100, R101). -/
theorem header_eq (m : OpcodeMap) (i : Opcode) (a : Addr) :
    header m i a = [m.get i, a.extractLsb' 16 8, a.extractLsb' 8 8, a.extractLsb' 0 8] := by
  simp only [header, be32, commandWord, List.cons.injEq, and_true]
  refine ⟨?_, ?_, ?_, ?_⟩ <;>
    (apply BitVec.eq_of_getLsbD_eq; intro k hk; interval_cases k <;> simp)

theorem addrOf_bytes (a : Addr) : addrOf (a.extractLsb' 16 8) (a.extractLsb' 8 8) (a.extractLsb' 0 8) = a := by
  apply BitVec.eq_of_getLsbD_eq
  intro k hk
  unfold addrOf
  rw [BitVec.getLsbD_append, BitVec.getLsbD_append]
  interval_cases k <;> simp

theorem bytes_addrOf (b2 b1 b0 : Byte) :
    (addrOf b2 b1 b0).extractLsb' 16 8 = b2 ∧ (addrOf b2 b1 b0).extractLsb' 8 8 = b1 ∧
      (addrOf b2 b1 b0).extractLsb' 0 8 = b0 := by
  unfold addrOf
  refine ⟨?_, ?_, ?_⟩ <;>
    (apply BitVec.eq_of_getLsbD_eq
     intro k hk
     rw [BitVec.getLsbD_extractLsb', BitVec.getLsbD_append, BitVec.getLsbD_append]
     interval_cases k <;> simp)

/-- What `opcodeOf` finds has that opcode byte. -/
theorem opcodeOf_some {m : OpcodeMap} {b : Byte} {i : Opcode} (h : opcodeOf m b = some i) : m.get i = b := by
  simpa using List.find?_some h

/-- With distinct opcode bytes the instruction of an opcode byte is the one it is the byte of. -/
theorem opcodeOf_get {m : OpcodeMap} (h : m.injective = true) (i : Opcode) : opcodeOf m (m.get i) = some i := by
  have hn : (Opcode.all.map m.get).Nodup := by simpa [OpcodeMap.injective] using h
  have hinj := List.inj_on_of_nodup_map hn
  cases hf : opcodeOf m (m.get i) with
  | none =>
    have := List.find?_eq_none.mp hf i (Opcode.mem_all i)
    simp at this
  | some j => rw [hinj (Opcode.mem_all j) (Opcode.mem_all i) (opcodeOf_some hf)]

end Sys2Proof
end

