-- ==== Sys2Proof/Laws/State.lean ====
section
/-! SUPPORT. One lemma per field and update of the state: what each update leaves as it was, and what it sets. Every later
proof reads a field through these. -/

namespace Sys2Proof.Machine

/-! ### Recording an event and taking an outcome -/

@[simp] theorem record_cfg (v : Event) (s : State) : (s.record v).cfg = s.cfg := rfl
@[simp] theorem record_life (v : Event) (s : State) : (s.record v).life = s.life := rfl
@[simp] theorem record_mode (v : Event) (s : State) : (s.record v).mode = s.mode := rfl
@[simp] theorem record_cs (v : Event) (s : State) : (s.record v).cs = s.cs := rfl
@[simp] theorem record_wp (v : Event) (s : State) : (s.record v).wp = s.wp := rfl
@[simp] theorem record_hold (v : Event) (s : State) : (s.record v).hold = s.hold := rfl
@[simp] theorem record_cur (v : Event) (s : State) : (s.record v).cur = s.cur := rfl
@[simp] theorem record_idx (v : Event) (s : State) : (s.record v).idx = s.idx := rfl
@[simp] theorem record_n (v : Event) (s : State) : (s.record v).n = s.n := rfl
@[simp] theorem record_polls (v : Event) (s : State) : (s.record v).polls = s.polls := rfl
@[simp] theorem record_todo (v : Event) (s : State) : (s.record v).todo = s.todo := rfl
@[simp] theorem record_got (v : Event) (s : State) : (s.record v).got = s.got := rfl
@[simp] theorem record_buf (v : Event) (s : State) : (s.record v).buf = s.buf := rfl
@[simp] theorem record_result (v : Event) (s : State) : (s.record v).result = s.result := rfl
@[simp] theorem record_program (v : Event) (s : State) : (s.record v).program = s.program := rfl
@[simp] theorem record_port (v : Event) (s : State) : (s.record v).port = s.port := rfl
@[simp] theorem record_env (v : Event) (s : State) : (s.record v).env = s.env := rfl
@[simp] theorem record_link (v : Event) (s : State) : (s.record v).link = s.link := rfl

@[simp] theorem record_pc (v : Event) (s : State) : (s.record v).pc = s.pc.tick := rfl
@[simp] theorem record_trace (v : Event) (s : State) : (s.record v).trace = s.trace ++ [v] := rfl

@[simp] theorem drawn_cfg (s : State) : (s.drawn).cfg = s.cfg := rfl
@[simp] theorem drawn_life (s : State) : (s.drawn).life = s.life := rfl
@[simp] theorem drawn_mode (s : State) : (s.drawn).mode = s.mode := rfl
@[simp] theorem drawn_cs (s : State) : (s.drawn).cs = s.cs := rfl
@[simp] theorem drawn_wp (s : State) : (s.drawn).wp = s.wp := rfl
@[simp] theorem drawn_hold (s : State) : (s.drawn).hold = s.hold := rfl
@[simp] theorem drawn_pc (s : State) : (s.drawn).pc = s.pc := rfl
@[simp] theorem drawn_cur (s : State) : (s.drawn).cur = s.cur := rfl
@[simp] theorem drawn_idx (s : State) : (s.drawn).idx = s.idx := rfl
@[simp] theorem drawn_n (s : State) : (s.drawn).n = s.n := rfl
@[simp] theorem drawn_polls (s : State) : (s.drawn).polls = s.polls := rfl
@[simp] theorem drawn_todo (s : State) : (s.drawn).todo = s.todo := rfl
@[simp] theorem drawn_got (s : State) : (s.drawn).got = s.got := rfl
@[simp] theorem drawn_buf (s : State) : (s.drawn).buf = s.buf := rfl
@[simp] theorem drawn_result (s : State) : (s.drawn).result = s.result := rfl
@[simp] theorem drawn_program (s : State) : (s.drawn).program = s.program := rfl
@[simp] theorem drawn_port (s : State) : (s.drawn).port = s.port := rfl
@[simp] theorem drawn_link (s : State) : (s.drawn).link = s.link := rfl
@[simp] theorem drawn_trace (s : State) : (s.drawn).trace = s.trace := rfl

@[simp] theorem drawn_env (s : State) : s.drawn.env = s.env.drawOutcome.2 := rfl

/-! ### Outputs -/

@[simp] theorem setPin_cfg (x : Signal) (l : Level) (s : State) : (s.setPin x l).cfg = s.cfg := by cases x <;> rfl
@[simp] theorem setPin_life (x : Signal) (l : Level) (s : State) : (s.setPin x l).life = s.life := by cases x <;> rfl
@[simp] theorem setPin_mode (x : Signal) (l : Level) (s : State) : (s.setPin x l).mode = s.mode := by cases x <;> rfl
@[simp] theorem setPin_pc (x : Signal) (l : Level) (s : State) : (s.setPin x l).pc = s.pc := by cases x <;> rfl
@[simp] theorem setPin_cur (x : Signal) (l : Level) (s : State) : (s.setPin x l).cur = s.cur := by cases x <;> rfl
@[simp] theorem setPin_idx (x : Signal) (l : Level) (s : State) : (s.setPin x l).idx = s.idx := by cases x <;> rfl
@[simp] theorem setPin_n (x : Signal) (l : Level) (s : State) : (s.setPin x l).n = s.n := by cases x <;> rfl
@[simp] theorem setPin_polls (x : Signal) (l : Level) (s : State) : (s.setPin x l).polls = s.polls := by cases x <;> rfl
@[simp] theorem setPin_todo (x : Signal) (l : Level) (s : State) : (s.setPin x l).todo = s.todo := by cases x <;> rfl
@[simp] theorem setPin_got (x : Signal) (l : Level) (s : State) : (s.setPin x l).got = s.got := by cases x <;> rfl
@[simp] theorem setPin_buf (x : Signal) (l : Level) (s : State) : (s.setPin x l).buf = s.buf := by cases x <;> rfl
@[simp] theorem setPin_result (x : Signal) (l : Level) (s : State) : (s.setPin x l).result = s.result := by cases x <;> rfl
@[simp] theorem setPin_program (x : Signal) (l : Level) (s : State) : (s.setPin x l).program = s.program := by cases x <;> rfl
@[simp] theorem setPin_port (x : Signal) (l : Level) (s : State) : (s.setPin x l).port = s.port := by cases x <;> rfl
@[simp] theorem setPin_env (x : Signal) (l : Level) (s : State) : (s.setPin x l).env = s.env := by cases x <;> rfl
@[simp] theorem setPin_link (x : Signal) (l : Level) (s : State) : (s.setPin x l).link = s.link := by cases x <;> rfl
@[simp] theorem setPin_trace (x : Signal) (l : Level) (s : State) : (s.setPin x l).trace = s.trace := by cases x <;> rfl

@[simp] theorem setPin_cs_cs (l : Level) (s : State) : (s.setPin .cs l).cs = l.pin := rfl
@[simp] theorem setPin_cs_wp (l : Level) (s : State) : (s.setPin .cs l).wp = s.wp := rfl
@[simp] theorem setPin_cs_hold (l : Level) (s : State) : (s.setPin .cs l).hold = s.hold := rfl
@[simp] theorem setPin_wp_cs (l : Level) (s : State) : (s.setPin .wp l).cs = s.cs := rfl
@[simp] theorem setPin_wp_wp (l : Level) (s : State) : (s.setPin .wp l).wp = l.pin := rfl
@[simp] theorem setPin_wp_hold (l : Level) (s : State) : (s.setPin .wp l).hold = s.hold := rfl
@[simp] theorem setPin_hold_cs (l : Level) (s : State) : (s.setPin .hold l).cs = s.cs := rfl
@[simp] theorem setPin_hold_wp (l : Level) (s : State) : (s.setPin .hold l).wp = s.wp := rfl
@[simp] theorem setPin_hold_hold (l : Level) (s : State) : (s.setPin .hold l).hold = l.pin := rfl

/-! ### The device at the other end -/

@[simp] theorem tellDevice_cfg (x : Signal) (l : Level) (s : State) : (s.tellDevice x l).cfg = s.cfg := by
  unfold State.tellDevice; split <;> rfl
@[simp] theorem tellDevice_life (x : Signal) (l : Level) (s : State) : (s.tellDevice x l).life = s.life := by
  unfold State.tellDevice; split <;> rfl
@[simp] theorem tellDevice_mode (x : Signal) (l : Level) (s : State) : (s.tellDevice x l).mode = s.mode := by
  unfold State.tellDevice; split <;> rfl
@[simp] theorem tellDevice_cs (x : Signal) (l : Level) (s : State) : (s.tellDevice x l).cs = s.cs := by
  unfold State.tellDevice; split <;> rfl
@[simp] theorem tellDevice_wp (x : Signal) (l : Level) (s : State) : (s.tellDevice x l).wp = s.wp := by
  unfold State.tellDevice; split <;> rfl
@[simp] theorem tellDevice_hold (x : Signal) (l : Level) (s : State) : (s.tellDevice x l).hold = s.hold := by
  unfold State.tellDevice; split <;> rfl
@[simp] theorem tellDevice_pc (x : Signal) (l : Level) (s : State) : (s.tellDevice x l).pc = s.pc := by
  unfold State.tellDevice; split <;> rfl
@[simp] theorem tellDevice_cur (x : Signal) (l : Level) (s : State) : (s.tellDevice x l).cur = s.cur := by
  unfold State.tellDevice; split <;> rfl
@[simp] theorem tellDevice_idx (x : Signal) (l : Level) (s : State) : (s.tellDevice x l).idx = s.idx := by
  unfold State.tellDevice; split <;> rfl
@[simp] theorem tellDevice_n (x : Signal) (l : Level) (s : State) : (s.tellDevice x l).n = s.n := by
  unfold State.tellDevice; split <;> rfl
@[simp] theorem tellDevice_polls (x : Signal) (l : Level) (s : State) : (s.tellDevice x l).polls = s.polls := by
  unfold State.tellDevice; split <;> rfl
@[simp] theorem tellDevice_todo (x : Signal) (l : Level) (s : State) : (s.tellDevice x l).todo = s.todo := by
  unfold State.tellDevice; split <;> rfl
@[simp] theorem tellDevice_got (x : Signal) (l : Level) (s : State) : (s.tellDevice x l).got = s.got := by
  unfold State.tellDevice; split <;> rfl
@[simp] theorem tellDevice_buf (x : Signal) (l : Level) (s : State) : (s.tellDevice x l).buf = s.buf := by
  unfold State.tellDevice; split <;> rfl
@[simp] theorem tellDevice_result (x : Signal) (l : Level) (s : State) : (s.tellDevice x l).result = s.result := by
  unfold State.tellDevice; split <;> rfl
@[simp] theorem tellDevice_program (x : Signal) (l : Level) (s : State) : (s.tellDevice x l).program = s.program := by
  unfold State.tellDevice; split <;> rfl
@[simp] theorem tellDevice_port (x : Signal) (l : Level) (s : State) : (s.tellDevice x l).port = s.port := by
  unfold State.tellDevice; split <;> rfl
@[simp] theorem tellDevice_trace (x : Signal) (l : Level) (s : State) : (s.tellDevice x l).trace = s.trace := by
  unfold State.tellDevice; split <;> rfl

@[simp] theorem deliver_cfg (bs : List Byte) (s : State) : (s.deliver bs).cfg = s.cfg := by
  unfold State.deliver; split <;> rfl
@[simp] theorem deliver_life (bs : List Byte) (s : State) : (s.deliver bs).life = s.life := by
  unfold State.deliver; split <;> rfl
@[simp] theorem deliver_mode (bs : List Byte) (s : State) : (s.deliver bs).mode = s.mode := by
  unfold State.deliver; split <;> rfl
@[simp] theorem deliver_cs (bs : List Byte) (s : State) : (s.deliver bs).cs = s.cs := by
  unfold State.deliver; split <;> rfl
@[simp] theorem deliver_wp (bs : List Byte) (s : State) : (s.deliver bs).wp = s.wp := by
  unfold State.deliver; split <;> rfl
@[simp] theorem deliver_hold (bs : List Byte) (s : State) : (s.deliver bs).hold = s.hold := by
  unfold State.deliver; split <;> rfl
@[simp] theorem deliver_pc (bs : List Byte) (s : State) : (s.deliver bs).pc = s.pc := by
  unfold State.deliver; split <;> rfl
@[simp] theorem deliver_cur (bs : List Byte) (s : State) : (s.deliver bs).cur = s.cur := by
  unfold State.deliver; split <;> rfl
@[simp] theorem deliver_idx (bs : List Byte) (s : State) : (s.deliver bs).idx = s.idx := by
  unfold State.deliver; split <;> rfl
@[simp] theorem deliver_n (bs : List Byte) (s : State) : (s.deliver bs).n = s.n := by
  unfold State.deliver; split <;> rfl
@[simp] theorem deliver_polls (bs : List Byte) (s : State) : (s.deliver bs).polls = s.polls := by
  unfold State.deliver; split <;> rfl
@[simp] theorem deliver_todo (bs : List Byte) (s : State) : (s.deliver bs).todo = s.todo := by
  unfold State.deliver; split <;> rfl
@[simp] theorem deliver_got (bs : List Byte) (s : State) : (s.deliver bs).got = s.got := by
  unfold State.deliver; split <;> rfl
@[simp] theorem deliver_buf (bs : List Byte) (s : State) : (s.deliver bs).buf = s.buf := by
  unfold State.deliver; split <;> rfl
@[simp] theorem deliver_result (bs : List Byte) (s : State) : (s.deliver bs).result = s.result := by
  unfold State.deliver; split <;> rfl
@[simp] theorem deliver_program (bs : List Byte) (s : State) : (s.deliver bs).program = s.program := by
  unfold State.deliver; split <;> rfl
@[simp] theorem deliver_port (bs : List Byte) (s : State) : (s.deliver bs).port = s.port := by
  unfold State.deliver; split <;> rfl
@[simp] theorem deliver_env (bs : List Byte) (s : State) : (s.deliver bs).env = s.env := by
  unfold State.deliver; split <;> rfl
@[simp] theorem deliver_trace (bs : List Byte) (s : State) : (s.deliver bs).trace = s.trace := by
  unfold State.deliver; split <;> rfl

@[simp] theorem exchange_cfg (bs : List Byte) (s : State) : ((s.exchange bs).2).cfg = s.cfg := by
  unfold State.exchange; split <;> rfl
@[simp] theorem exchange_life (bs : List Byte) (s : State) : ((s.exchange bs).2).life = s.life := by
  unfold State.exchange; split <;> rfl
@[simp] theorem exchange_mode (bs : List Byte) (s : State) : ((s.exchange bs).2).mode = s.mode := by
  unfold State.exchange; split <;> rfl
@[simp] theorem exchange_cs (bs : List Byte) (s : State) : ((s.exchange bs).2).cs = s.cs := by
  unfold State.exchange; split <;> rfl
@[simp] theorem exchange_wp (bs : List Byte) (s : State) : ((s.exchange bs).2).wp = s.wp := by
  unfold State.exchange; split <;> rfl
@[simp] theorem exchange_hold (bs : List Byte) (s : State) : ((s.exchange bs).2).hold = s.hold := by
  unfold State.exchange; split <;> rfl
@[simp] theorem exchange_pc (bs : List Byte) (s : State) : ((s.exchange bs).2).pc = s.pc := by
  unfold State.exchange; split <;> rfl
@[simp] theorem exchange_cur (bs : List Byte) (s : State) : ((s.exchange bs).2).cur = s.cur := by
  unfold State.exchange; split <;> rfl
@[simp] theorem exchange_idx (bs : List Byte) (s : State) : ((s.exchange bs).2).idx = s.idx := by
  unfold State.exchange; split <;> rfl
@[simp] theorem exchange_n (bs : List Byte) (s : State) : ((s.exchange bs).2).n = s.n := by
  unfold State.exchange; split <;> rfl
@[simp] theorem exchange_polls (bs : List Byte) (s : State) : ((s.exchange bs).2).polls = s.polls := by
  unfold State.exchange; split <;> rfl
@[simp] theorem exchange_todo (bs : List Byte) (s : State) : ((s.exchange bs).2).todo = s.todo := by
  unfold State.exchange; split <;> rfl
@[simp] theorem exchange_got (bs : List Byte) (s : State) : ((s.exchange bs).2).got = s.got := by
  unfold State.exchange; split <;> rfl
@[simp] theorem exchange_buf (bs : List Byte) (s : State) : ((s.exchange bs).2).buf = s.buf := by
  unfold State.exchange; split <;> rfl
@[simp] theorem exchange_result (bs : List Byte) (s : State) : ((s.exchange bs).2).result = s.result := by
  unfold State.exchange; split <;> rfl
@[simp] theorem exchange_program (bs : List Byte) (s : State) : ((s.exchange bs).2).program = s.program := by
  unfold State.exchange; split <;> rfl
@[simp] theorem exchange_port (bs : List Byte) (s : State) : ((s.exchange bs).2).port = s.port := by
  unfold State.exchange; split <;> rfl
@[simp] theorem exchange_trace (bs : List Byte) (s : State) : ((s.exchange bs).2).trace = s.trace := by
  unfold State.exchange; split <;> rfl

@[simp] theorem scramble_cfg (s : State) : (s.scramble).cfg = s.cfg := by
  unfold State.scramble; split <;> rfl
@[simp] theorem scramble_life (s : State) : (s.scramble).life = s.life := by
  unfold State.scramble; split <;> rfl
@[simp] theorem scramble_mode (s : State) : (s.scramble).mode = s.mode := by
  unfold State.scramble; split <;> rfl
@[simp] theorem scramble_cs (s : State) : (s.scramble).cs = s.cs := by
  unfold State.scramble; split <;> rfl
@[simp] theorem scramble_wp (s : State) : (s.scramble).wp = s.wp := by
  unfold State.scramble; split <;> rfl
@[simp] theorem scramble_hold (s : State) : (s.scramble).hold = s.hold := by
  unfold State.scramble; split <;> rfl
@[simp] theorem scramble_pc (s : State) : (s.scramble).pc = s.pc := by
  unfold State.scramble; split <;> rfl
@[simp] theorem scramble_cur (s : State) : (s.scramble).cur = s.cur := by
  unfold State.scramble; split <;> rfl
@[simp] theorem scramble_idx (s : State) : (s.scramble).idx = s.idx := by
  unfold State.scramble; split <;> rfl
@[simp] theorem scramble_n (s : State) : (s.scramble).n = s.n := by
  unfold State.scramble; split <;> rfl
@[simp] theorem scramble_polls (s : State) : (s.scramble).polls = s.polls := by
  unfold State.scramble; split <;> rfl
@[simp] theorem scramble_todo (s : State) : (s.scramble).todo = s.todo := by
  unfold State.scramble; split <;> rfl
@[simp] theorem scramble_got (s : State) : (s.scramble).got = s.got := by
  unfold State.scramble; split <;> rfl
@[simp] theorem scramble_buf (s : State) : (s.scramble).buf = s.buf := by
  unfold State.scramble; split <;> rfl
@[simp] theorem scramble_result (s : State) : (s.scramble).result = s.result := by
  unfold State.scramble; split <;> rfl
@[simp] theorem scramble_program (s : State) : (s.scramble).program = s.program := by
  unfold State.scramble; split <;> rfl
@[simp] theorem scramble_port (s : State) : (s.scramble).port = s.port := by
  unfold State.scramble; split <;> rfl
@[simp] theorem scramble_trace (s : State) : (s.scramble).trace = s.trace := by
  unfold State.scramble; split <;> rfl

@[simp] theorem endWindow_cfg (s : State) : (s.endWindow).cfg = s.cfg := by
  unfold State.endWindow; split <;> rfl
@[simp] theorem endWindow_life (s : State) : (s.endWindow).life = s.life := by
  unfold State.endWindow; split <;> rfl
@[simp] theorem endWindow_mode (s : State) : (s.endWindow).mode = s.mode := by
  unfold State.endWindow; split <;> rfl
@[simp] theorem endWindow_cs (s : State) : (s.endWindow).cs = s.cs := by
  unfold State.endWindow; split <;> rfl
@[simp] theorem endWindow_wp (s : State) : (s.endWindow).wp = s.wp := by
  unfold State.endWindow; split <;> rfl
@[simp] theorem endWindow_hold (s : State) : (s.endWindow).hold = s.hold := by
  unfold State.endWindow; split <;> rfl
@[simp] theorem endWindow_pc (s : State) : (s.endWindow).pc = s.pc := by
  unfold State.endWindow; split <;> rfl
@[simp] theorem endWindow_cur (s : State) : (s.endWindow).cur = s.cur := by
  unfold State.endWindow; split <;> rfl
@[simp] theorem endWindow_idx (s : State) : (s.endWindow).idx = s.idx := by
  unfold State.endWindow; split <;> rfl
@[simp] theorem endWindow_n (s : State) : (s.endWindow).n = s.n := by
  unfold State.endWindow; split <;> rfl
@[simp] theorem endWindow_polls (s : State) : (s.endWindow).polls = s.polls := by
  unfold State.endWindow; split <;> rfl
@[simp] theorem endWindow_todo (s : State) : (s.endWindow).todo = s.todo := by
  unfold State.endWindow; split <;> rfl
@[simp] theorem endWindow_got (s : State) : (s.endWindow).got = s.got := by
  unfold State.endWindow; split <;> rfl
@[simp] theorem endWindow_buf (s : State) : (s.endWindow).buf = s.buf := by
  unfold State.endWindow; split <;> rfl
@[simp] theorem endWindow_result (s : State) : (s.endWindow).result = s.result := by
  unfold State.endWindow; split <;> rfl
@[simp] theorem endWindow_program (s : State) : (s.endWindow).program = s.program := by
  unfold State.endWindow; split <;> rfl
@[simp] theorem endWindow_port (s : State) : (s.endWindow).port = s.port := by
  unfold State.endWindow; split <;> rfl
@[simp] theorem endWindow_env (s : State) : (s.endWindow).env = s.env := by
  unfold State.endWindow; split <;> rfl
@[simp] theorem endWindow_trace (s : State) : (s.endWindow).trace = s.trace := by
  unfold State.endWindow; split <;> rfl

/-! ### The three events with outcome `ok` -/

@[simp] theorem afterSignal_cfg (x : Signal) (l : Level) (s : State) : (s.afterSignal x l).cfg = s.cfg := by simp [State.afterSignal]
@[simp] theorem afterSignal_life (x : Signal) (l : Level) (s : State) : (s.afterSignal x l).life = s.life := by simp [State.afterSignal]
@[simp] theorem afterSignal_mode (x : Signal) (l : Level) (s : State) : (s.afterSignal x l).mode = s.mode := by simp [State.afterSignal]
@[simp] theorem afterSignal_cur (x : Signal) (l : Level) (s : State) : (s.afterSignal x l).cur = s.cur := by simp [State.afterSignal]
@[simp] theorem afterSignal_idx (x : Signal) (l : Level) (s : State) : (s.afterSignal x l).idx = s.idx := by simp [State.afterSignal]
@[simp] theorem afterSignal_n (x : Signal) (l : Level) (s : State) : (s.afterSignal x l).n = s.n := by simp [State.afterSignal]
@[simp] theorem afterSignal_polls (x : Signal) (l : Level) (s : State) : (s.afterSignal x l).polls = s.polls := by simp [State.afterSignal]
@[simp] theorem afterSignal_todo (x : Signal) (l : Level) (s : State) : (s.afterSignal x l).todo = s.todo := by simp [State.afterSignal]
@[simp] theorem afterSignal_got (x : Signal) (l : Level) (s : State) : (s.afterSignal x l).got = s.got := by simp [State.afterSignal]
@[simp] theorem afterSignal_buf (x : Signal) (l : Level) (s : State) : (s.afterSignal x l).buf = s.buf := by simp [State.afterSignal]
@[simp] theorem afterSignal_result (x : Signal) (l : Level) (s : State) : (s.afterSignal x l).result = s.result := by simp [State.afterSignal]
@[simp] theorem afterSignal_program (x : Signal) (l : Level) (s : State) : (s.afterSignal x l).program = s.program := by simp [State.afterSignal]
@[simp] theorem afterSignal_port (x : Signal) (l : Level) (s : State) : (s.afterSignal x l).port = s.port := by simp [State.afterSignal]

@[simp] theorem afterSignal_pc (x : Signal) (l : Level) (s : State) : (s.afterSignal x l).pc = s.pc.tick := by
  simp [State.afterSignal]
@[simp] theorem afterSignal_trace (x : Signal) (l : Level) (s : State) :
    (s.afterSignal x l).trace = s.trace ++ [.sig x l true] := by simp [State.afterSignal]
@[simp] theorem afterSignal_cs_cs (l : Level) (s : State) : (s.afterSignal .cs l).cs = l.pin := by
  simp [State.afterSignal]
@[simp] theorem afterSignal_cs_wp (l : Level) (s : State) : (s.afterSignal .cs l).wp = s.wp := by
  simp [State.afterSignal]
@[simp] theorem afterSignal_cs_hold (l : Level) (s : State) : (s.afterSignal .cs l).hold = s.hold := by
  simp [State.afterSignal]
@[simp] theorem afterSignal_wp_cs (l : Level) (s : State) : (s.afterSignal .wp l).cs = s.cs := by
  simp [State.afterSignal]
@[simp] theorem afterSignal_wp_wp (l : Level) (s : State) : (s.afterSignal .wp l).wp = l.pin := by
  simp [State.afterSignal]
@[simp] theorem afterSignal_wp_hold (l : Level) (s : State) : (s.afterSignal .wp l).hold = s.hold := by
  simp [State.afterSignal]
@[simp] theorem afterSignal_hold_cs (l : Level) (s : State) : (s.afterSignal .hold l).cs = s.cs := by
  simp [State.afterSignal]
@[simp] theorem afterSignal_hold_wp (l : Level) (s : State) : (s.afterSignal .hold l).wp = s.wp := by
  simp [State.afterSignal]
@[simp] theorem afterSignal_hold_hold (l : Level) (s : State) : (s.afterSignal .hold l).hold = l.pin := by
  simp [State.afterSignal]

@[simp] theorem afterWrite_cfg (bs : List Byte) (s : State) : (s.afterWrite bs).cfg = s.cfg := by simp [State.afterWrite]
@[simp] theorem afterWrite_life (bs : List Byte) (s : State) : (s.afterWrite bs).life = s.life := by simp [State.afterWrite]
@[simp] theorem afterWrite_mode (bs : List Byte) (s : State) : (s.afterWrite bs).mode = s.mode := by simp [State.afterWrite]
@[simp] theorem afterWrite_cs (bs : List Byte) (s : State) : (s.afterWrite bs).cs = s.cs := by simp [State.afterWrite]
@[simp] theorem afterWrite_wp (bs : List Byte) (s : State) : (s.afterWrite bs).wp = s.wp := by simp [State.afterWrite]
@[simp] theorem afterWrite_hold (bs : List Byte) (s : State) : (s.afterWrite bs).hold = s.hold := by simp [State.afterWrite]
@[simp] theorem afterWrite_cur (bs : List Byte) (s : State) : (s.afterWrite bs).cur = s.cur := by simp [State.afterWrite]
@[simp] theorem afterWrite_idx (bs : List Byte) (s : State) : (s.afterWrite bs).idx = s.idx := by simp [State.afterWrite]
@[simp] theorem afterWrite_n (bs : List Byte) (s : State) : (s.afterWrite bs).n = s.n := by simp [State.afterWrite]
@[simp] theorem afterWrite_polls (bs : List Byte) (s : State) : (s.afterWrite bs).polls = s.polls := by simp [State.afterWrite]
@[simp] theorem afterWrite_todo (bs : List Byte) (s : State) : (s.afterWrite bs).todo = s.todo := by simp [State.afterWrite]
@[simp] theorem afterWrite_got (bs : List Byte) (s : State) : (s.afterWrite bs).got = s.got := by simp [State.afterWrite]
@[simp] theorem afterWrite_buf (bs : List Byte) (s : State) : (s.afterWrite bs).buf = s.buf := by simp [State.afterWrite]
@[simp] theorem afterWrite_result (bs : List Byte) (s : State) : (s.afterWrite bs).result = s.result := by simp [State.afterWrite]
@[simp] theorem afterWrite_program (bs : List Byte) (s : State) : (s.afterWrite bs).program = s.program := by simp [State.afterWrite]
@[simp] theorem afterWrite_port (bs : List Byte) (s : State) : (s.afterWrite bs).port = s.port := by simp [State.afterWrite]

@[simp] theorem afterWrite_pc (bs : List Byte) (s : State) : (s.afterWrite bs).pc = s.pc.tick := by
  simp [State.afterWrite]
@[simp] theorem afterWrite_env (bs : List Byte) (s : State) : (s.afterWrite bs).env = s.env.drawOutcome.2 := by
  simp [State.afterWrite]
@[simp] theorem afterWrite_trace (bs : List Byte) (s : State) : (s.afterWrite bs).trace = s.trace ++ [.write bs true] := by
  simp [State.afterWrite]

@[simp] theorem afterXfer_cfg (bs : List Byte) (s : State) : (s.afterXfer bs).cfg = s.cfg := by simp [State.afterXfer]
@[simp] theorem afterXfer_life (bs : List Byte) (s : State) : (s.afterXfer bs).life = s.life := by simp [State.afterXfer]
@[simp] theorem afterXfer_mode (bs : List Byte) (s : State) : (s.afterXfer bs).mode = s.mode := by simp [State.afterXfer]
@[simp] theorem afterXfer_cs (bs : List Byte) (s : State) : (s.afterXfer bs).cs = s.cs := by simp [State.afterXfer]
@[simp] theorem afterXfer_wp (bs : List Byte) (s : State) : (s.afterXfer bs).wp = s.wp := by simp [State.afterXfer]
@[simp] theorem afterXfer_hold (bs : List Byte) (s : State) : (s.afterXfer bs).hold = s.hold := by simp [State.afterXfer]
@[simp] theorem afterXfer_cur (bs : List Byte) (s : State) : (s.afterXfer bs).cur = s.cur := by simp [State.afterXfer]
@[simp] theorem afterXfer_idx (bs : List Byte) (s : State) : (s.afterXfer bs).idx = s.idx := by simp [State.afterXfer]
@[simp] theorem afterXfer_n (bs : List Byte) (s : State) : (s.afterXfer bs).n = s.n := by simp [State.afterXfer]
@[simp] theorem afterXfer_polls (bs : List Byte) (s : State) : (s.afterXfer bs).polls = s.polls := by simp [State.afterXfer]
@[simp] theorem afterXfer_todo (bs : List Byte) (s : State) : (s.afterXfer bs).todo = s.todo := by simp [State.afterXfer]
@[simp] theorem afterXfer_got (bs : List Byte) (s : State) : (s.afterXfer bs).got = s.got := by simp [State.afterXfer]
@[simp] theorem afterXfer_buf (bs : List Byte) (s : State) : (s.afterXfer bs).buf = s.buf := by simp [State.afterXfer]
@[simp] theorem afterXfer_result (bs : List Byte) (s : State) : (s.afterXfer bs).result = s.result := by simp [State.afterXfer]
@[simp] theorem afterXfer_program (bs : List Byte) (s : State) : (s.afterXfer bs).program = s.program := by simp [State.afterXfer]
@[simp] theorem afterXfer_port (bs : List Byte) (s : State) : (s.afterXfer bs).port = s.port := by simp [State.afterXfer]

@[simp] theorem afterXfer_pc (bs : List Byte) (s : State) : (s.afterXfer bs).pc = s.pc.tick := by
  simp [State.afterXfer]
@[simp] theorem afterXfer_trace (bs : List Byte) (s : State) :
    (s.afterXfer bs).trace = s.trace ++ [.xfer bs (some (s.received bs))] := by simp [State.afterXfer]

/-! ### The ends of an operation and of a frame -/

@[simp] theorem latch_cfg (b : Byte) (s : State) : (s.latch b).cfg = s.cfg := rfl
@[simp] theorem latch_life (b : Byte) (s : State) : (s.latch b).life = s.life := rfl
@[simp] theorem latch_mode (b : Byte) (s : State) : (s.latch b).mode = s.mode := rfl
@[simp] theorem latch_cs (b : Byte) (s : State) : (s.latch b).cs = s.cs := rfl
@[simp] theorem latch_wp (b : Byte) (s : State) : (s.latch b).wp = s.wp := rfl
@[simp] theorem latch_hold (b : Byte) (s : State) : (s.latch b).hold = s.hold := rfl
@[simp] theorem latch_pc (b : Byte) (s : State) : (s.latch b).pc = s.pc := rfl
@[simp] theorem latch_cur (b : Byte) (s : State) : (s.latch b).cur = s.cur := rfl
@[simp] theorem latch_idx (b : Byte) (s : State) : (s.latch b).idx = s.idx := rfl
@[simp] theorem latch_n (b : Byte) (s : State) : (s.latch b).n = s.n := rfl
@[simp] theorem latch_polls (b : Byte) (s : State) : (s.latch b).polls = s.polls := rfl
@[simp] theorem latch_todo (b : Byte) (s : State) : (s.latch b).todo = s.todo := rfl
@[simp] theorem latch_buf (b : Byte) (s : State) : (s.latch b).buf = s.buf := rfl
@[simp] theorem latch_result (b : Byte) (s : State) : (s.latch b).result = s.result := rfl
@[simp] theorem latch_program (b : Byte) (s : State) : (s.latch b).program = s.program := rfl
@[simp] theorem latch_port (b : Byte) (s : State) : (s.latch b).port = s.port := rfl
@[simp] theorem latch_env (b : Byte) (s : State) : (s.latch b).env = s.env := rfl
@[simp] theorem latch_link (b : Byte) (s : State) : (s.latch b).link = s.link := rfl
@[simp] theorem latch_trace (b : Byte) (s : State) : (s.latch b).trace = s.trace := rfl

@[simp] theorem latch_got (b : Byte) (s : State) : (s.latch b).got = some b := rfl

@[simp] theorem raise_cfg (e : ErrorKind) (s : State) : (raise e s).cfg = s.cfg := rfl
@[simp] theorem raise_mode (e : ErrorKind) (s : State) : (raise e s).mode = s.mode := rfl
@[simp] theorem raise_cs (e : ErrorKind) (s : State) : (raise e s).cs = s.cs := rfl
@[simp] theorem raise_wp (e : ErrorKind) (s : State) : (raise e s).wp = s.wp := rfl
@[simp] theorem raise_hold (e : ErrorKind) (s : State) : (raise e s).hold = s.hold := rfl
@[simp] theorem raise_cur (e : ErrorKind) (s : State) : (raise e s).cur = s.cur := rfl
@[simp] theorem raise_idx (e : ErrorKind) (s : State) : (raise e s).idx = s.idx := rfl
@[simp] theorem raise_n (e : ErrorKind) (s : State) : (raise e s).n = s.n := rfl
@[simp] theorem raise_polls (e : ErrorKind) (s : State) : (raise e s).polls = s.polls := rfl
@[simp] theorem raise_buf (e : ErrorKind) (s : State) : (raise e s).buf = s.buf := rfl
@[simp] theorem raise_program (e : ErrorKind) (s : State) : (raise e s).program = s.program := rfl
@[simp] theorem raise_port (e : ErrorKind) (s : State) : (raise e s).port = s.port := rfl
@[simp] theorem raise_env (e : ErrorKind) (s : State) : (raise e s).env = s.env := rfl
@[simp] theorem raise_link (e : ErrorKind) (s : State) : (raise e s).link = s.link := rfl
@[simp] theorem raise_trace (e : ErrorKind) (s : State) : (raise e s).trace = s.trace := rfl

@[simp] theorem raise_pc (e : ErrorKind) (s : State) : (raise e s).pc = .idle := rfl
@[simp] theorem raise_todo (e : ErrorKind) (s : State) : (raise e s).todo = [] := rfl
@[simp] theorem raise_got (e : ErrorKind) (s : State) : (raise e s).got = none := rfl
@[simp] theorem raise_result (e : ErrorKind) (s : State) : (raise e s).result = some (.err e) := rfl

theorem raise_life_init (e : ErrorKind) (s : State) (k : Nat) (h : s.pc = .op .init k) : (raise e s).life = .dead := by
  simp [raise, h]

theorem raise_life_other (e : ErrorKind) (s : State) (h : ∀ k, s.pc ≠ .op .init k) : (raise e s).life = s.life := by
  unfold raise
  split
  · exact absurd ‹_› (h _)
  · rfl

@[simp] theorem finish_cfg (v : Value) (s : State) : (finish v s).cfg = s.cfg := rfl
@[simp] theorem finish_life (v : Value) (s : State) : (finish v s).life = s.life := rfl
@[simp] theorem finish_mode (v : Value) (s : State) : (finish v s).mode = s.mode := rfl
@[simp] theorem finish_cs (v : Value) (s : State) : (finish v s).cs = s.cs := rfl
@[simp] theorem finish_wp (v : Value) (s : State) : (finish v s).wp = s.wp := rfl
@[simp] theorem finish_hold (v : Value) (s : State) : (finish v s).hold = s.hold := rfl
@[simp] theorem finish_cur (v : Value) (s : State) : (finish v s).cur = s.cur := rfl
@[simp] theorem finish_idx (v : Value) (s : State) : (finish v s).idx = s.idx := rfl
@[simp] theorem finish_n (v : Value) (s : State) : (finish v s).n = s.n := rfl
@[simp] theorem finish_polls (v : Value) (s : State) : (finish v s).polls = s.polls := rfl
@[simp] theorem finish_buf (v : Value) (s : State) : (finish v s).buf = s.buf := rfl
@[simp] theorem finish_program (v : Value) (s : State) : (finish v s).program = s.program := rfl
@[simp] theorem finish_port (v : Value) (s : State) : (finish v s).port = s.port := rfl
@[simp] theorem finish_env (v : Value) (s : State) : (finish v s).env = s.env := rfl
@[simp] theorem finish_link (v : Value) (s : State) : (finish v s).link = s.link := rfl
@[simp] theorem finish_trace (v : Value) (s : State) : (finish v s).trace = s.trace := rfl

@[simp] theorem finish_pc (v : Value) (s : State) : (finish v s).pc = .idle := rfl
@[simp] theorem finish_todo (v : Value) (s : State) : (finish v s).todo = [] := rfl
@[simp] theorem finish_got (v : Value) (s : State) : (finish v s).got = none := rfl
@[simp] theorem finish_result (v : Value) (s : State) : (finish v s).result = some (.ok v) := rfl

@[simp] theorem releaseSelect_cfg (s : State) : (releaseSelect s).cfg = s.cfg := by
  unfold releaseSelect; split <;> [split <;> simp; rfl]
@[simp] theorem releaseSelect_life (s : State) : (releaseSelect s).life = s.life := by
  unfold releaseSelect; split <;> [split <;> simp; rfl]
@[simp] theorem releaseSelect_mode (s : State) : (releaseSelect s).mode = s.mode := by
  unfold releaseSelect; split <;> [split <;> simp; rfl]
@[simp] theorem releaseSelect_wp (s : State) : (releaseSelect s).wp = s.wp := by
  unfold releaseSelect; split <;> [split <;> simp; rfl]
@[simp] theorem releaseSelect_hold (s : State) : (releaseSelect s).hold = s.hold := by
  unfold releaseSelect; split <;> [split <;> simp; rfl]
@[simp] theorem releaseSelect_cur (s : State) : (releaseSelect s).cur = s.cur := by
  unfold releaseSelect; split <;> [split <;> simp; rfl]
@[simp] theorem releaseSelect_idx (s : State) : (releaseSelect s).idx = s.idx := by
  unfold releaseSelect; split <;> [split <;> simp; rfl]
@[simp] theorem releaseSelect_n (s : State) : (releaseSelect s).n = s.n := by
  unfold releaseSelect; split <;> [split <;> simp; rfl]
@[simp] theorem releaseSelect_polls (s : State) : (releaseSelect s).polls = s.polls := by
  unfold releaseSelect; split <;> [split <;> simp; rfl]
@[simp] theorem releaseSelect_todo (s : State) : (releaseSelect s).todo = s.todo := by
  unfold releaseSelect; split <;> [split <;> simp; rfl]
@[simp] theorem releaseSelect_got (s : State) : (releaseSelect s).got = s.got := by
  unfold releaseSelect; split <;> [split <;> simp; rfl]
@[simp] theorem releaseSelect_buf (s : State) : (releaseSelect s).buf = s.buf := by
  unfold releaseSelect; split <;> [split <;> simp; rfl]
@[simp] theorem releaseSelect_result (s : State) : (releaseSelect s).result = s.result := by
  unfold releaseSelect; split <;> [split <;> simp; rfl]
@[simp] theorem releaseSelect_program (s : State) : (releaseSelect s).program = s.program := by
  unfold releaseSelect; split <;> [split <;> simp; rfl]
@[simp] theorem releaseSelect_port (s : State) : (releaseSelect s).port = s.port := by
  unfold releaseSelect; split <;> [split <;> simp; rfl]

end Sys2Proof.Machine
end

