-- ==== Sys2Proof/Laws/Draws.lean ====
section
/-! SUPPORT. The outcomes still to come depend on two parts of the draws only, which nothing but the draw of an outcome
changes; so `Env.okNext` passes through everything a frame does. -/

namespace Sys2Proof.Machine

/-- Two draw states give the same outcomes from here on. -/
def Env.sameOutcomes (e e' : Env) : Prop :=
  e.outcomes = e'.outcomes ∧ e.outcomeCount = e'.outcomeCount

theorem Env.sameOutcomes_refl (e : Env) : e.sameOutcomes e := ⟨rfl, rfl⟩

theorem Env.sameOutcomes_trans {e e' e'' : Env} (h : e.sameOutcomes e') (h' : e'.sameOutcomes e'') : e.sameOutcomes e'' :=
  ⟨h.1.trans h'.1, h.2.trans h'.2⟩

theorem Env.sameOutcomes_outcome {e e' : Env} (h : e.sameOutcomes e') : e.drawOutcome.1 = e'.drawOutcome.1 := by
  obtain ⟨h1, h2⟩ := h
  unfold Env.drawOutcome
  rw [h1, h2]
  split <;> rfl

theorem Env.sameOutcomes_drawOutcome {e e' : Env} (h : e.sameOutcomes e') :
    e.drawOutcome.2.sameOutcomes e'.drawOutcome.2 := by
  obtain ⟨h1, h2⟩ := h
  unfold Env.drawOutcome
  rw [← h1]
  split
  · exact ⟨rfl, h2⟩
  · exact ⟨by simp_all, by simp [h2]⟩

theorem Env.okNext_congr {e e' : Env} (n : Nat) (h : e.sameOutcomes e') : Env.okNext n e = Env.okNext n e' := by
  induction n generalizing e e' with
  | zero => rfl
  | succ n ih =>
    simp only [Env.okNext]
    rw [Env.sameOutcomes_outcome h, ih (Env.sameOutcomes_drawOutcome h)]

theorem Env.okNext_succ {e : Env} {n : Nat} (h : Env.okNext (n + 1) e = true) :
    e.drawOutcome.1 = true ∧ Env.okNext n e.drawOutcome.2 = true := by
  simpa [Env.okNext] using h

theorem Env.drawByte_same (e : Env) : e.drawByte.2.sameOutcomes e := by
  unfold Env.drawByte; split <;> exact ⟨rfl, rfl⟩

theorem Env.drawCycle_same (e : Env) : e.drawCycle.2.sameOutcomes e := by
  unfold Env.drawCycle; split <;> exact ⟨rfl, rfl⟩

theorem drawBytes_same (bs : List Byte) (e : Env) : (drawBytes bs e).2.sameOutcomes e := by
  induction bs generalizing e with
  | nil => exact e.sameOutcomes_refl
  | cons b bs ih => exact Env.sameOutcomes_trans (ih e.drawByte.2) e.drawByte_same

theorem Device.exchange_same (c : Config) (bs : List Byte) (d : Device) (e : Env) :
    (Device.exchange c bs d e).2.2.sameOutcomes e := by
  induction bs generalizing d e with
  | nil => exact e.sameOutcomes_refl
  | cons b bs ih =>
    simp only [Device.exchange]
    split
    · exact ih (d.take [b]) e
    · exact Env.sameOutcomes_trans (ih (d.take [b]) e.drawByte.2) e.drawByte_same

theorem Device.startCycle_same (d : Device) (e : Env) : (d.startCycle e).2.sameOutcomes e :=
  e.drawCycle_same

theorem Device.effect_same (c : Config) (wp : Pin) (i : Opcode) (rest : List Byte) (d : Device) (e : Env) :
    (Device.effect c wp i rest d e).2.sameOutcomes e := by
  unfold Device.effect
  split <;> first
    | exact e.sameOutcomes_refl
    | (unfold Device.writeStatus; split <;> [exact Device.startCycle_same _ e; exact e.sameOutcomes_refl])
    | (unfold Device.writeBurst; dsimp only; split <;> [exact Device.startCycle_same _ e; exact e.sameOutcomes_refl])
    | (unfold Device.eraseAt; dsimp only; split <;> [exact Device.startCycle_same _ e; exact e.sameOutcomes_refl])

theorem Device.deselect_same (c : Config) (wp : Pin) (d : Device) (e : Env) : (d.deselect c wp e).2.sameOutcomes e := by
  unfold Device.deselect
  dsimp only
  split
  · exact e.sameOutcomes_refl
  · exact Device.effect_same c wp _ _ _ e

theorem tellDevice_same (x : Signal) (l : Level) (s : State) : (s.tellDevice x l).env.sameOutcomes s.env := by
  unfold State.tellDevice
  split
  · exact s.env.sameOutcomes_refl
  · exact Device.deselect_same s.cfg s.wp _ s.env
  · exact s.env.sameOutcomes_refl

theorem exchange_same (bs : List Byte) (s : State) : (s.exchange bs).2.env.sameOutcomes s.env := by
  unfold State.exchange
  split
  · exact drawBytes_same bs s.env
  · exact Device.exchange_same s.cfg bs _ s.env

@[simp] theorem okNext_afterSignal (n : Nat) (x : Signal) (l : Level) (s : State) :
    Env.okNext n (s.afterSignal x l).env = Env.okNext n s.env.drawOutcome.2 := by
  have h := tellDevice_same x l (s.drawn.record (.sig x l true))
  simp only [record_env, drawn_env] at h
  simpa [State.afterSignal] using Env.okNext_congr n h

@[simp] theorem okNext_afterWrite (n : Nat) (bs : List Byte) (s : State) :
    Env.okNext n (s.afterWrite bs).env = Env.okNext n s.env.drawOutcome.2 := by
  simp

@[simp] theorem okNext_afterXfer (n : Nat) (bs : List Byte) (s : State) :
    Env.okNext n (s.afterXfer bs).env = Env.okNext n s.env.drawOutcome.2 := by
  have h := exchange_same bs s.drawn
  simp only [drawn_env] at h
  simpa [State.afterXfer] using Env.okNext_congr n h

theorem outcome_of_okNext {n : Nat} {s : State} (h : Env.okNext (n + 1) s.env = true) :
    s.outcome = true ∧ Env.okNext n s.env.drawOutcome.2 = true :=
  Env.okNext_succ h

/-- The next event succeeds, and after it the outcomes are those still to come. -/
theorem okNext_signal {n : Nat} {s : State} (x : Signal) (l : Level) (h : Env.okNext (n + 1) s.env = true) :
    s.outcome = true ∧ Env.okNext n (s.afterSignal x l).env = true := by
  rw [okNext_afterSignal]; exact outcome_of_okNext h

theorem okNext_write {n : Nat} {s : State} (bs : List Byte) (h : Env.okNext (n + 1) s.env = true) :
    s.outcome = true ∧ Env.okNext n (s.afterWrite bs).env = true := by
  rw [okNext_afterWrite]; exact outcome_of_okNext h

theorem okNext_xfer {n : Nat} {s : State} (bs : List Byte) (h : Env.okNext (n + 1) s.env = true) :
    s.outcome = true ∧ Env.okNext n (s.afterXfer bs).env = true := by
  rw [okNext_afterXfer]; exact outcome_of_okNext h

/-! ### The bytes to come -/

/-- The draw of an outcome draws no byte. -/
@[simp] theorem Env.nextBytes_drawOutcome (n : Nat) (e : Env) : Env.nextBytes n e.drawOutcome.2 = Env.nextBytes n e := by
  have h : ∀ (n : Nat) (e e' : Env), e.bytes = e'.bytes → e.byteCount = e'.byteCount → Env.nextBytes n e = Env.nextBytes n e' := by
    intro n
    induction n with
    | zero => intros; rfl
    | succ n ih =>
      intro e e' h1 h2
      simp only [Env.nextBytes, Env.drawByte, ← h1, ← h2]
      split
      · exact congrArg _ (ih _ _ rfl rfl)
      · exact congrArg _ (ih _ _ rfl rfl)
  refine h n _ _ ?_ ?_ <;> simp only [Env.drawOutcome] <;> split <;> rfl

/-- The bytes of an exchange with the oracle are the next ones to come. -/
theorem drawBytes_eq (bs : List Byte) (e : Env) : (drawBytes bs e).1 = Env.nextBytes bs.length e := by
  induction bs generalizing e with
  | nil => rfl
  | cons b bs ih => simp [drawBytes, Env.nextBytes, ih]

/-- After an exchange with the oracle the bytes to come are those after the exchanged ones. -/
theorem drawBytes_rest (bs : List Byte) (n : Nat) (e : Env) :
    Env.nextBytes n (drawBytes bs e).2 = (Env.nextBytes (bs.length + n) e).drop bs.length := by
  induction bs generalizing e with
  | nil => simp [drawBytes]
  | cons b bs ih => simp [drawBytes, ih, Nat.succ_add, Env.nextBytes]

theorem Env.nextBytes_length (n : Nat) (e : Env) : (Env.nextBytes n e).length = n := by
  induction n generalizing e with
  | zero => rfl
  | succ n ih => simp [Env.nextBytes, ih]

/-- As many bytes are delivered as were sent (R152). -/
theorem received_length (bs : List Byte) (s : State) : (s.received bs).length = bs.length := by
  have h1 : ∀ (bs : List Byte) (e : Env), (drawBytes bs e).1.length = bs.length := by
    intro bs
    induction bs with
    | nil => intro e; rfl
    | cons b bs ih => intro e; simp [drawBytes, ih]
  have h2 : ∀ (bs : List Byte) (d : Device) (e : Env), (Device.exchange s.cfg bs d e).1.length = bs.length := by
    intro bs
    induction bs with
    | nil => intro d e; rfl
    | cons b bs ih =>
      intro d e
      simp only [Device.exchange]
      split <;> simp [ih]
  simp only [State.received, State.exchange]
  split
  · simp [h1]
  · simp [h2]

end Sys2Proof.Machine
end

