-- ==== Sys2Proof/Laws/Ops.lean ====
section
/-! SUPPORT. What the shared operations can do, said once: the outcomes of one event, the five ways a frame ends (R155), a frame
whose events all succeed, and the two outcomes of an instruction (R156). Provers cite these instead of unfolding them. -/

namespace Sys2Proof.Machine

theorem signal_ok {x : Signal} {l : Level} {s : State} (h : s.outcome = true) : signal x l s = .done () (s.afterSignal x l) := by
  simp [signal, h]

theorem signal_fail {x : Signal} {l : Level} {s : State} (h : s.outcome = false) :
    signal x l s = .failed .signalError (s.drawn.record (.sig x l false)) := by
  simp [signal, h]

theorem chWrite_ok {bs : List Byte} {s : State} (h : s.outcome = true) : chWrite bs s = .done () (s.afterWrite bs) := by
  simp [chWrite, h]

theorem chWrite_fail {bs : List Byte} {s : State} (h : s.outcome = false) :
    chWrite bs s = .failed .transportError (s.drawn.record (.write bs false)) := by
  simp [chWrite, h]

theorem chXfer_ok {bs : List Byte} {s : State} (h : s.outcome = true) :
    chXfer bs s = .done (s.received bs) (s.afterXfer bs) := by
  simp [chXfer, h]

theorem chXfer_fail {bs : List Byte} {s : State} (h : s.outcome = false) :
    chXfer bs s = .failed .transportError (s.drawn.record (.xfer bs none)) := by
  simp [chXfer, h]

/-- The state in which a frame's first channel call is issued. -/
def State.opened (s : State) : State := s.afterSignal .cs .asserted

/-- The state a frame leaves when its closing chip-select event succeeds. -/
def State.closed (s : State) : State := s.afterSignal .cs .deasserted

/-- A frame ends in one of four ways (R155). -/
theorem frame_cases {α : Type} (c : State → Ev α) (s : State) :
    (s.outcome = false ∧ frame c s = .failed .signalError (s.drawn.record (.sig .cs .asserted false)).scramble) ∨
    (s.outcome = true ∧ ∃ e t, c s.opened = .failed e t ∧ frame c s = .failed e (releaseSelect t.scramble)) ∨
    (s.outcome = true ∧ ∃ v t, c s.opened = .done v t ∧ t.outcome = false ∧
      frame c s = .failed .signalError (t.drawn.record (.sig .cs .deasserted false)).scramble) ∨
    (s.outcome = true ∧ ∃ v t, c s.opened = .done v t ∧ t.outcome = true ∧ frame c s = .done v t.closed) := by
  cases h : s.outcome with
  | false => exact .inl ⟨rfl, by simp [frame, signal_fail h]⟩
  | true =>
    cases hc : c s.opened with
    | failed e t =>
      refine .inr (.inl ⟨rfl, e, t, rfl, ?_⟩)
      simp only [frame, signal_ok h]
      rw [show s.afterSignal .cs .asserted = s.opened from rfl, hc]
    | done v t =>
      cases ht : t.outcome with
      | false =>
        refine .inr (.inr (.inl ⟨rfl, v, t, rfl, ht, ?_⟩))
        simp only [frame, signal_ok h]
        rw [show s.afterSignal .cs .asserted = s.opened from rfl, hc]
        simp [signal_fail ht]
      | true =>
        refine .inr (.inr (.inr ⟨rfl, v, t, rfl, ht, ?_⟩))
        simp only [frame, signal_ok h]
        rw [show s.afterSignal .cs .asserted = s.opened from rfl, hc]
        simp [signal_ok ht, State.closed]

theorem frame_ok {α : Type} {c : State → Ev α} {s t : State} {v : α} (h : s.outcome = true)
    (hc : c s.opened = .done v t) (ht : t.outcome = true) : frame c s = .done v t.closed := by
  rcases frame_cases c s with ⟨h', _⟩ | ⟨_, e, u, hu, _⟩ | ⟨_, w, u, hu, hu', _⟩ | ⟨_, w, u, hu, _, hf⟩
  · simp [h] at h'
  · simp [hc] at hu
  · rw [hc] at hu; cases hu; simp [ht] at hu'
  · rw [hc] at hu; cases hu; exact hf

/-- An instruction is refused while held (R156), and otherwise goes on. -/
theorem issueFrame_cases {α : Type} (c : State → Ev α) (f : α → State → State) (s : State) :
    (s.mode = .held ∧ issueFrame c f s = .refused .heldTransaction) ∨
    (s.mode ≠ .held ∧ issueFrame c f s = .next ((frame c s).settle f)) := by
  by_cases h : s.mode = .held
  · exact .inl ⟨h, if_pos h⟩
  · exact .inr ⟨h, if_neg h⟩

theorem issueFrame_next {α : Type} {c : State → Ev α} {f : α → State → State} {s t : State}
    (h : issueFrame c f s = .next t) : s.mode ≠ .held ∧ t = (frame c s).settle f := by
  rcases issueFrame_cases c f s with ⟨_, h'⟩ | ⟨hm, h'⟩
  · rw [h'] at h; cases h
  · rw [h'] at h; cases h; exact ⟨hm, rfl⟩

theorem issueFrame_ok {α : Type} {c : State → Ev α} {f : α → State → State} {s t : State} {v : α} (hm : s.mode ≠ .held)
    (h : s.outcome = true) (hc : c s.opened = .done v t) (ht : t.outcome = true) :
    issueFrame c f s = .next (f v t.closed) := by
  rw [issueFrame, if_neg hm, frame_ok h hc ht]
  rfl

/-! ### What a run of events leaves -/

/-- The draws after `k` outcomes have been taken. -/
def Env.dropOutcomes : Nat → Env → Env
  | 0, e => e
  | k + 1, e => Env.dropOutcomes k e.drawOutcome.2

theorem Env.dropOutcomes_congr {e e' : Env} (k : Nat) (h : e.sameOutcomes e') :
    (e.dropOutcomes k).sameOutcomes (e'.dropOutcomes k) := by
  induction k generalizing e e' with
  | zero => exact h
  | succ k ih => exact ih (Env.sameOutcomes_drawOutcome h)

theorem Env.dropOutcomes_add (j k : Nat) (e : Env) : e.dropOutcomes (j + k) = (e.dropOutcomes j).dropOutcomes k := by
  induction j generalizing e with
  | zero => simp [Env.dropOutcomes]
  | succ j ih => rw [Nat.succ_add]; exact ih _

theorem Env.outcomeAfter_eq (k : Nat) (e : Env) : Env.outcomeAfter k e = (e.dropOutcomes k).drawOutcome.1 := by
  induction k generalizing e with
  | zero => rfl
  | succ k ih => exact ih _

theorem Phase.plus_plus (j k : Nat) (p : Phase) : (p.plus j).plus k = p.plus (j + k) := by
  cases p <;> simp [Phase.plus, Nat.add_assoc]

@[simp] theorem Phase.plus_zero (p : Phase) : p.plus 0 = p := by cases p <;> rfl

theorem Phase.tick_eq (p : Phase) : p.tick = p.plus 1 := by cases p <;> rfl

/-- `t` is `s` after the events `ev`: they stand in the trace, the phase has counted them, their outcomes are taken, and what
no frame touches but chip-select, the host buffer, the draws and the device is as it was. -/
structure Ran (ev : List Event) (s t : State) : Prop where
  trace : t.trace = s.trace ++ ev
  env : t.env.sameOutcomes (s.env.dropOutcomes ev.length)
  pc : t.pc = s.pc.plus ev.length
  kept : Kept s t
  life : t.life = s.life
  todo : t.todo = s.todo
  got : t.got = s.got
  result : t.result = s.result
  oracle : s.link = .oracle → t.link = .oracle

theorem Kept.refl (s : State) : Kept s s := ⟨rfl, rfl, rfl, rfl, rfl, rfl, rfl, rfl, rfl, rfl⟩

theorem Kept.trans {s t u : State} (h : Kept s t) (h' : Kept t u) : Kept s u :=
  ⟨h'.cfg.trans h.cfg, h'.mode.trans h.mode, h'.wp.trans h.wp, h'.hold.trans h.hold, h'.cur.trans h.cur,
    h'.idx.trans h.idx, h'.n.trans h.n, h'.polls.trans h.polls, h'.program.trans h.program, h'.port.trans h.port⟩

theorem Ran.trans {ev ev' : List Event} {s t u : State} (h : Ran ev s t) (h' : Ran ev' t u) : Ran (ev ++ ev') s u where
  trace := by rw [h'.trace, h.trace, List.append_assoc]
  env := by
    rw [List.length_append, Env.dropOutcomes_add]
    exact Env.sameOutcomes_trans h'.env (Env.dropOutcomes_congr _ h.env)
  pc := by rw [h'.pc, h.pc, Phase.plus_plus, List.length_append]
  kept := h.kept.trans h'.kept
  life := h'.life.trans h.life
  todo := h'.todo.trans h.todo
  got := h'.got.trans h.got
  result := h'.result.trans h.result
  oracle := fun hs => h'.oracle (h.oracle hs)

theorem ran_record (v : Event) (s : State) : Ran [v] s (s.drawn.record v) where
  trace := rfl
  env := Env.sameOutcomes_refl _
  pc := Phase.tick_eq _
  kept := ⟨rfl, rfl, rfl, rfl, rfl, rfl, rfl, rfl, rfl, rfl⟩
  life := rfl
  todo := rfl
  got := rfl
  result := rfl
  oracle := id

theorem tellDevice_oracle {x : Signal} {l : Level} {s : State} (h : s.link = .oracle) : (s.tellDevice x l).link = .oracle := by
  simp [State.tellDevice, h]

/-- A chip-select event with outcome `ok`. -/
theorem ran_select (l : Level) (s : State) : Ran [.sig .cs l true] s (s.afterSignal .cs l) where
  trace := by simp
  env := by simpa [State.afterSignal, Env.dropOutcomes] using tellDevice_same .cs l (s.drawn.record (.sig .cs l true))
  pc := by simp [Phase.tick_eq]
  kept := by constructor <;> simp
  life := by simp
  todo := by simp
  got := by simp
  result := by simp
  oracle := fun h => by simpa [State.afterSignal] using tellDevice_oracle (s := s.drawn.record (.sig .cs l true)) (by simpa using h)

theorem ran_write (bs : List Byte) (s : State) : Ran [.write bs true] s (s.afterWrite bs) where
  trace := by simp
  env := by simp [Env.dropOutcomes, Env.sameOutcomes_refl]
  pc := by simp [Phase.tick_eq]
  kept := by constructor <;> simp
  life := by simp
  todo := by simp
  got := by simp
  result := by simp
  oracle := fun h => by simp [State.afterWrite, State.deliver, h]

theorem ran_xfer (bs : List Byte) (s : State) : Ran [.xfer bs (some (s.received bs))] s (s.afterXfer bs) where
  trace := by simp
  env := by simpa [State.afterXfer, Env.dropOutcomes] using exchange_same bs s.drawn
  pc := by simp [Phase.tick_eq]
  kept := by constructor <;> simp
  life := by simp
  todo := by simp
  got := by simp
  result := by simp
  oracle := fun h => by simp [State.afterXfer, State.exchange, h]

theorem ran_scramble (s : State) : Ran [] s s.scramble where
  trace := by simp
  env := by
    unfold State.scramble
    split
    · exact Env.sameOutcomes_refl _
    · exact ⟨rfl, rfl⟩
  pc := by simp
  kept := by constructor <;> simp
  life := by simp
  todo := by simp
  got := by simp
  result := by simp
  oracle := fun h => by simp [State.scramble, h]

/-- The events of `c` are `n` channel calls: they stop at the first that fails, or all succeed. Nothing but the host buffer,
and that only when `c` is a read of `keep` bytes, changes beside what `Ran` says. -/
structure CallsSpec {α : Type} (c : State → Ev α) (n : Nat) (keep : Option Nat) : Prop where
  cases : ∀ s,
    (∃ ev t k, k < n ∧ Env.failsAfter k s.env ∧ c s = .failed .transportError t ∧ ev.length = k + 1 ∧
      ev.all Event.isCall = true ∧ Ran ev s t ∧ t.cs = s.cs ∧ t.buf = s.buf) ∨
    (∃ ev v t, Env.okNext n s.env = true ∧ c s = .done v t ∧ ev.length = n ∧ ev.all Event.isCall = true ∧ Ran ev s t ∧
      t.cs = s.cs ∧ (keep = none → t.buf = s.buf) ∧ (∀ k, keep = some k → t.buf.drop k = s.buf.drop k))

theorem Env.failsAfter_zero {e : Env} : Env.failsAfter 0 e ↔ e.drawOutcome.1 = false := by
  simp [Env.failsAfter, Env.okNext]

theorem Env.failsAfter_succ {k : Nat} {e : Env} :
    Env.failsAfter (k + 1) e ↔ e.drawOutcome.1 = true ∧ Env.failsAfter k e.drawOutcome.2 := by
  simp only [Env.failsAfter, Env.okNext, Bool.and_eq_true]
  constructor
  · rintro ⟨⟨h1, h2⟩, h3⟩; simp_all
  · rintro ⟨h1, h2, h3⟩; simp_all

theorem Env.failsAfter_congr {k : Nat} {e e' : Env} (h : e.sameOutcomes e') : Env.failsAfter k e ↔ Env.failsAfter k e' := by
  simp only [Env.failsAfter, Env.okNext_congr _ h]

theorem Env.okNext_le {j k : Nat} {e : Env} (h : Env.okNext k e = true) (hj : j ≤ k) : Env.okNext j e = true := by
  induction j generalizing k e with
  | zero => rfl
  | succ j ih =>
    obtain ⟨k, rfl⟩ : ∃ m, k = m + 1 := ⟨k - 1, by omega⟩
    have h := Env.okNext_succ h
    rw [Env.okNext, h.1, ih h.2 (by omega)]
    rfl

/-- At most one event is the first to fail. -/
theorem Env.failsAfter_unique {j k : Nat} {e : Env} (h : Env.failsAfter j e) (h' : Env.failsAfter k e) : j = k := by
  rcases Nat.lt_trichotomy j k with hl | hl | hl
  · have := Env.okNext_le h'.1 (show j + 1 ≤ k by omega); rw [h.2] at this; cases this
  · exact hl
  · have := Env.okNext_le h.1 (show k + 1 ≤ j by omega); rw [h'.2] at this; cases this

/-- No event before the first to fail fails. -/
theorem Env.failsAfter_ok {j k : Nat} {e : Env} (h : Env.failsAfter j e) (h' : Env.okNext k e = true) : k ≤ j := by
  by_contra hl
  have := Env.okNext_le h' (show j + 1 ≤ k by omega)
  rw [h.2] at this
  cases this

theorem calls_write {c : State → Ev Unit} {f : Config → List Byte} (hc : ∀ s, c s = chWrite (f s.cfg) s) :
    CallsSpec c 1 none where
  cases s := by
    cases h : s.outcome with
    | false =>
      exact .inl ⟨_, _, 0, Nat.one_pos, Env.failsAfter_zero.mpr h, (hc s).trans (chWrite_fail h), rfl, rfl, ran_record _ s,
        rfl, rfl⟩
    | true =>
      refine .inr ⟨_, _, _, ?_, (hc s).trans (chWrite_ok h), rfl, rfl, ran_write _ s, by simp, by simp, by simp⟩
      simpa [Env.okNext, State.outcome] using h

theorem calls_xfer {c : State → Ev (List Byte)} {f : Config → List Byte} (hc : ∀ s, c s = chXfer (f s.cfg) s) :
    CallsSpec c 1 none where
  cases s := by
    cases h : s.outcome with
    | false =>
      exact .inl ⟨_, _, 0, Nat.one_pos, Env.failsAfter_zero.mpr h, (hc s).trans (chXfer_fail h), rfl, rfl, ran_record _ s,
        rfl, rfl⟩
    | true =>
      refine .inr ⟨_, _, _, ?_, (hc s).trans (chXfer_ok h), rfl, rfl, ran_xfer _ s, by simp, by simp, by simp⟩
      simpa [Env.okNext, State.outcome] using h

theorem calls_both {α : Type} {c1 : State → Ev Unit} {c2 : State → Ev α} {keep : Option Nat} (h1 : CallsSpec c1 1 none)
    (h2 : CallsSpec c2 1 keep) : CallsSpec (both c1 c2) 2 keep where
  cases s := by
    rcases h1.cases s with ⟨ev, t, k, hk, hf, hc, hl, ha, hr, hcs, hb⟩ | ⟨ev, v, t, ho, hc, hl, ha, hr, hcs, hb, _⟩
    · exact .inl ⟨ev, t, k, by omega, hf, by rw [both, hc], hl, ha, hr, hcs, hb⟩
    · have hd := (Env.okNext_succ ho).1
      have he : t.env.sameOutcomes s.env.drawOutcome.2 := by
        have := hr.env
        rw [hl] at this
        exact this
      rcases h2.cases t with ⟨ev', t', k, hk, hf, hc', hl', ha', hr', hcs', hb'⟩ | ⟨ev', v', t', ho', hc', hl', ha', hr', hcs', hb', hb''⟩
      · exact .inl ⟨ev ++ ev', t', k + 1, by omega, Env.failsAfter_succ.mpr ⟨hd, (Env.failsAfter_congr he).mp hf⟩,
          by rw [both, hc]; exact hc', by simp [hl, hl']; omega, by simp [ha, ha'], hr.trans hr', hcs'.trans hcs,
          hb'.trans (hb rfl)⟩
      · refine .inr ⟨ev ++ ev', v', t', ?_, by rw [both, hc]; exact hc', by simp [hl, hl'], by simp [ha, ha'], hr.trans hr',
          hcs'.trans hcs, fun hn => (hb' hn).trans (hb rfl), fun k hk => by rw [hb'' k hk, hb rfl]⟩
        simp only [Env.okNext, Bool.and_eq_true]
        rw [Env.okNext_congr 1 he] at ho'
        simpa [Env.okNext, hd] using ho'

/-- The events of a frame whose calls are `ev` and whose closing event had outcome `ok`. -/
def closing (ok : Bool) (ev : List Event) : List Event :=
  .sig .cs .asserted true :: ev ++ [.sig .cs .deasserted ok]

/-- Everything a frame can do (R155), given what its channel calls can do. -/
theorem frame_spec {α : Type} {c : State → Ev α} {n : Nat} {keep : Option Nat} (hc : CallsSpec c n keep) (s : State) :
    (∃ t, Env.failsAfter 0 s.env ∧ frame c s = .failed .signalError t ∧ Ran [.sig .cs .asserted false] s t ∧ t.cs = s.cs ∧
      t.buf = s.buf) ∨
    (∃ ev k t, k < n ∧ Env.failsAfter (k + 1) s.env ∧ frame c s = .failed .transportError t ∧ ev.length = k + 1 ∧
      ev.all Event.isCall = true ∧ t.buf = s.buf ∧
      (s.cfg.csErr = false → Ran (.sig .cs .asserted true :: ev) s t ∧ t.cs = .asserted) ∧
      (s.cfg.csErr = true → Ran (closing (Env.outcomeAfter (k + 2) s.env) ev) s t ∧
        t.cs = if Env.outcomeAfter (k + 2) s.env then .deasserted else .asserted)) ∨
    (∃ ev t, Env.failsAfter (n + 1) s.env ∧ frame c s = .failed .signalError t ∧ ev.length = n ∧
      ev.all Event.isCall = true ∧ Ran (closing false ev) s t ∧ t.cs = .asserted ∧ (keep = none → t.buf = s.buf) ∧
      (∀ k, keep = some k → t.buf.drop k = s.buf.drop k)) ∨
    (∃ ev v t, Env.okNext (n + 2) s.env = true ∧ frame c s = .done v t ∧ ev.length = n ∧ ev.all Event.isCall = true ∧
      Ran (closing true ev) s t ∧ t.cs = .deasserted ∧ (keep = none → t.buf = s.buf) ∧
      (∀ k, keep = some k → t.buf.drop k = s.buf.drop k)) := by
  have ho : Ran [.sig .cs .asserted true] s s.opened := ran_select .asserted s
  have hcs : s.opened.cs = .asserted := by simp [State.opened, Level.pin]
  have hbuf : s.opened.buf = s.buf := by simp [State.opened]
  have hoe : s.opened.env.sameOutcomes s.env.drawOutcome.2 := ho.env
  rcases frame_cases c s with ⟨h, hf⟩ | ⟨h, e, t, hct, hf⟩ | ⟨h, v, t, hct, hto, hf⟩ | ⟨h, v, t, hct, hto, hf⟩
  · refine .inl ⟨_, Env.failsAfter_zero.mpr h, hf, ?_, by simp, by simp⟩
    simpa using (ran_record (.sig .cs .asserted false) s).trans (ran_scramble _)
  · rcases hc.cases s.opened with ⟨ev, t', k, hk, hk', hc', hl, ha, hr, hcs', hb⟩ | ⟨ev, v, t', _, hc', _⟩
    · rw [hct] at hc'
      obtain ⟨rfl, rfl⟩ := by simpa using hc'
      have hr1 : Ran (.sig .cs .asserted true :: ev) s t.scramble := by
        simpa using (ho.trans hr).trans (ran_scramble t)
      have ht : t.scramble.outcome = Env.outcomeAfter (k + 2) s.env := by
        have := Env.sameOutcomes_outcome hr1.env
        rw [Env.outcomeAfter_eq]
        simpa [hl, State.outcome] using this
      refine .inr (.inl ⟨ev, k, _, hk, Env.failsAfter_succ.mpr ⟨h, (Env.failsAfter_congr hoe).mp hk'⟩, hf, hl, ha, ?_, ?_, ?_⟩)
      · simp [hb, hbuf]
      · intro hcf
        have hcf' : t.scramble.cfg.csErr = false := by rw [hr1.kept.cfg]; exact hcf
        simp only [releaseSelect, hcf']
        exact ⟨hr1, by simp [hcs', hcs]⟩
      · intro hcf
        have hcf' : t.scramble.cfg.csErr = true := by rw [hr1.kept.cfg]; exact hcf
        rw [← ht]
        cases hd : t.scramble.outcome with
        | false =>
          simp only [releaseSelect, hcf', hd]
          exact ⟨by simpa [closing] using hr1.trans (ran_record (.sig .cs .deasserted false) t.scramble), by simp [hcs', hcs]⟩
        | true =>
          simp only [releaseSelect, hcf', hd]
          refine ⟨?_, by simp [Level.pin]⟩
          have h2 := hr1.trans (ran_record (.sig .cs .deasserted true) t.scramble)
          constructor
          · simpa [closing] using h2.trace
          · have he := h2.env
            simp only [if_true, setPin_env, endWindow_env]
            simpa [closing] using he
          · simpa [closing] using h2.pc
          · have hk := h2.kept
            exact hk.trans (by constructor <;> simp)
          · simpa using h2.life
          · simpa using h2.todo
          · simpa using h2.got
          · simpa using h2.result
          · intro hl'
            have := h2.oracle hl'
            simp only [if_true, setPin_link, State.endWindow, this]
    · rw [hct] at hc'; simp at hc'
  · rcases hc.cases s.opened with ⟨ev, t', k, hk, hk', hc', hl, ha, hr, hcs', hb⟩ | ⟨ev, v', t', hok, hc', hl, ha, hr, hcs', hb, hb'⟩
    · rw [hct] at hc'; simp at hc'
    · rw [hct] at hc'
      obtain ⟨rfl, rfl⟩ := by simpa using hc'
      have hr1 := ho.trans hr
      have hr2 := (hr1.trans (ran_record (.sig .cs .deasserted false) t)).trans (ran_scramble _)
      refine .inr (.inr (.inl ⟨ev, _, ?_, hf, hl, ha, by simpa [closing] using hr2, by simp [hcs', hcs], ?_, ?_⟩))
      · refine Env.failsAfter_succ.mpr ⟨h, ?_⟩
        refine (Env.failsAfter_congr hoe).mp ⟨hok, ?_⟩
        have hx : ∀ (n : Nat) (e : Env), Env.okNext n e = true → (e.dropOutcomes n).drawOutcome.1 = false →
            Env.okNext (n + 1) e = false := by
          intro n
          induction n with
          | zero => intro e _ h; simpa [Env.okNext, Env.dropOutcomes] using h
          | succ n ih =>
            intro e h h'
            have h := Env.okNext_succ h
            rw [Env.okNext, h.1, Bool.true_and]
            exact ih _ h.2 h'
        refine hx n _ hok ?_
        rw [← hl, ← Env.sameOutcomes_outcome hr.env]
        exact hto
      · intro hn; simp [hb hn, hbuf]
      · intro k hk; simp [hb' k hk, hbuf]
  · rcases hc.cases s.opened with ⟨ev, t', k, hk, hk', hc', hl, ha, hr, hcs', hb⟩ | ⟨ev, v', t', hok, hc', hl, ha, hr, hcs', hb, hb'⟩
    · rw [hct] at hc'; simp at hc'
    · rw [hct] at hc'
      obtain ⟨rfl, rfl⟩ := by simpa using hc'
      have hr1 := (ho.trans hr).trans (ran_select .deasserted t)
      refine .inr (.inr (.inr ⟨ev, _, _, ?_, hf, hl, ha, by simpa [closing, State.closed] using hr1, by simp [State.closed, Level.pin], ?_, ?_⟩))
      · have hx : ∀ (n : Nat) (e : Env), Env.okNext n e = true → (e.dropOutcomes n).drawOutcome.1 = true →
            Env.okNext (n + 1) e = true := by
          intro n
          induction n with
          | zero => intro e _ h; simpa [Env.okNext, Env.dropOutcomes] using h
          | succ n ih =>
            intro e h h'
            have h := Env.okNext_succ h
            rw [Env.okNext, h.1, Bool.true_and]
            exact ih _ h.2 h'
        have hlast := hx n _ hok (by rw [← hl, ← Env.sameOutcomes_outcome hr.env]; exact hto)
        rw [Env.okNext, Bool.and_eq_true]
        exact ⟨h, by rw [← Env.okNext_congr _ hoe]; exact hlast⟩
      · intro hn; simp [State.closed, hb hn, hbuf]
      · intro k hk; simp [State.closed, hb' k hk, hbuf]

end Sys2Proof.Machine
end

