-- ==== Sys2Proof/Laws/Exec.lean ====
section
/-! SUPPORT. One lemma per meaning: the state an instruction answers when every event of its frame has outcome `ok`; and what
an instruction can answer at all. -/

namespace Sys2Proof.Machine

/-- The state after a frame of one half-duplex call. -/
def State.afterSend (bs : List Byte) (s : State) : State :=
  (s.opened.afterWrite bs).closed

/-- The state after a frame of one full-duplex call. -/
def State.afterExchange (bs : List Byte) (s : State) : State :=
  (s.opened.afterXfer bs).closed

/-- The state after a write frame. -/
def State.afterBurst (hdr d : List Byte) (s : State) : State :=
  ((s.opened.afterWrite hdr).afterWrite d).closed

/-- The host buffer after the data phase of a read. -/
def State.fillBuffer (rs : List Byte) (s : State) : State :=
  { s with buf := memWrite s.buf 0 rs }

/-- The state after a read frame. -/
def State.afterFetch (hdr buf : List Byte) (s : State) : State :=
  (((s.opened.afterWrite hdr).afterXfer buf).fillBuffer ((s.opened.afterWrite hdr).received buf)).closed

/-- A frame of one half-duplex call whose three events succeed. -/
theorem issue_send_ok {c : State → Ev Unit} {bs : List Byte} {s : State} (hc : ∀ t, t.cfg = s.cfg → c t = chWrite bs t)
    (hm : s.mode ≠ .held) (h : Env.okNext 3 s.env = true) : issueFrame c noValue s = .next (s.afterSend bs) := by
  obtain ⟨h1, h⟩ := okNext_signal .cs .asserted h
  obtain ⟨h2, h⟩ := okNext_write bs h
  exact issueFrame_ok hm h1 ((hc _ (by simp [State.opened])).trans (chWrite_ok h2)) (outcome_of_okNext h).1

/-- A frame of one full-duplex call whose three events succeed. -/
theorem issue_exchange_ok {c : State → Ev (List Byte)} {f : List Byte → State → State} {bs : List Byte} {s : State}
    (hc : ∀ t, t.cfg = s.cfg → c t = chXfer bs t) (hm : s.mode ≠ .held) (h : Env.okNext 3 s.env = true) :
    issueFrame c f s = .next (f (s.opened.received bs) (s.afterExchange bs)) := by
  obtain ⟨h1, h⟩ := okNext_signal .cs .asserted h
  obtain ⟨h2, h⟩ := okNext_xfer bs h
  exact issueFrame_ok hm h1 ((hc _ (by simp [State.opened])).trans (chXfer_ok h2)) (outcome_of_okNext h).1

theorem execWren_ok {s : State} (hm : s.mode ≠ .held) (h : Env.okNext 3 s.env = true) :
    execWren s = .next (s.afterSend [s.cfg.opc.get .writeEnable]) :=
  issue_send_ok (fun t ht => by simp [sendOpcode, ht]) hm h

theorem execWrdi_ok {s : State} (hm : s.mode ≠ .held) (h : Env.okNext 3 s.env = true) :
    execWrdi s = .next (s.afterSend [s.cfg.opc.get .writeDisable]) :=
  issue_send_ok (fun t ht => by simp [sendOpcode, ht]) hm h

theorem execDpd_ok {s : State} (hm : s.mode ≠ .held) (h : Env.okNext 3 s.env = true) :
    execDpd s = .next (s.afterSend [s.cfg.opc.get .deepSleep]) :=
  issue_send_ok (fun t ht => by simp [sendOpcode, ht]) hm h

theorem execWrsr_ok {v : Byte} {s : State} (hm : s.mode ≠ .held) (h : Env.okNext 3 s.env = true) :
    execWrsr v s = .next (s.afterSend [s.cfg.opc.get .writeStatus, v]) :=
  issue_send_ok (fun t ht => by simp [ht]) hm h

theorem execPe_ok {a : Addr} {s : State} (hm : s.mode ≠ .held) (h : Env.okNext 3 s.env = true) :
    execPe a s = .next (s.afterSend (header s.cfg.opc .pageErase a)) :=
  issue_send_ok (fun t ht => by simp [sendHeader, ht]) hm h

theorem execSe_ok {a : Addr} {s : State} (hm : s.mode ≠ .held) (h : Env.okNext 3 s.env = true) :
    execSe a s = .next (s.afterSend (header s.cfg.opc .sectorErase a)) :=
  issue_send_ok (fun t ht => by simp [sendHeader, ht]) hm h

theorem execCe_ok {a : Addr} {s : State} (hm : s.mode ≠ .held) (h : Env.okNext 3 s.env = true) :
    execCe a s = .next (s.afterSend (header s.cfg.opc .chipErase a)) :=
  issue_send_ok (fun t ht => by simp [sendHeader, ht]) hm h

theorem execRdsr_ok {s : State} (hm : s.mode ≠ .held) (h : Env.okNext 3 s.env = true) :
    execRdsr s = .next ((s.afterExchange [s.cfg.opc.get .readStatus, 0x00]).latch
      ((s.opened.received [s.cfg.opc.get .readStatus, 0x00]).getD 1 0)) :=
  issue_exchange_ok (f := fun rs t => t.latch (rs.getD 1 0)) (fun t ht => by simp [ht]) hm h

theorem afterExchange_cfg (bs : List Byte) (s : State) : (s.afterExchange bs).cfg = s.cfg := by
  simp [State.afterExchange, State.opened, State.closed]

theorem execRpd_ok {s : State} (hm : s.mode ≠ .held) (h : Env.okNext 3 s.env = true) :
    execRpd s = .next ((s.afterExchange (s.cfg.opc.get .releasePowerDown :: zeroBytes (idDummies s.cfg))).latch
      ((s.opened.received (s.cfg.opc.get .releasePowerDown :: zeroBytes (idDummies s.cfg))).getD (idDummies s.cfg) 0)) := by
  rw [execRpd, issue_exchange_ok (bs := s.cfg.opc.get .releasePowerDown :: zeroBytes (idDummies s.cfg))
    (fun t ht => by simp [ht]) hm h, afterExchange_cfg]

theorem execWrite_ok {a : Addr} {d : List Byte} {s : State} (hm : s.mode ≠ .held) (h : Env.okNext 4 s.env = true) :
    execWrite a d s = .next (s.afterBurst (header s.cfg.opc .write a) d) := by
  obtain ⟨h1, h⟩ := okNext_signal .cs .asserted h
  obtain ⟨h2, h⟩ := okNext_write (header s.cfg.opc .write a) h
  obtain ⟨h3, h⟩ := okNext_write d h
  refine issueFrame_ok (v := ()) hm h1 ?_ (outcome_of_okNext h).1
  rw [both, sendHeader, show s.opened.cfg = s.cfg by simp [State.opened], chWrite_ok (s := s.opened) h2]
  exact chWrite_ok h3

theorem execRead_ok {a : Addr} {buf : List Byte} {s : State} (hm : s.mode ≠ .held) (h : Env.okNext 4 s.env = true) :
    execRead a buf s = .next (s.afterFetch (header s.cfg.opc .read a) buf) := by
  obtain ⟨h1, h⟩ := okNext_signal .cs .asserted h
  obtain ⟨h2, h⟩ := okNext_write (header s.cfg.opc .read a) h
  obtain ⟨h3, h⟩ := okNext_xfer buf h
  refine issueFrame_ok (v := ()) (t := ((s.opened.afterWrite (header s.cfg.opc .read a)).afterXfer buf).fillBuffer
    ((s.opened.afterWrite (header s.cfg.opc .read a)).received buf)) hm h1 ?_ (outcome_of_okNext h).1
  rw [both, sendHeader, show s.opened.cfg = s.cfg by simp [State.opened], chWrite_ok (s := s.opened) h2]
  simp only [receiveBuffer]
  rw [chXfer_ok (show (s.opened.afterWrite (header s.cfg.opc .read a)).outcome = true from h3)]
  rfl

/-! ### Everything an instruction can do -/

/-- The data phase of a read is one channel call, and changes the host buffer in its first bytes only (R163). -/
theorem calls_receive (buf : List Byte) : CallsSpec (receiveBuffer buf) 1 (some buf.length) where
  cases s := by
    cases h : s.outcome with
    | false =>
      refine .inl ⟨_, _, 0, Nat.one_pos, Env.failsAfter_zero.mpr h, ?_, rfl, rfl, ran_record (.xfer buf none) s, rfl, rfl⟩
      simp only [receiveBuffer, chXfer_fail h]
    | true =>
      have hr := ran_xfer buf s
      refine .inr ⟨[.xfer buf (some (s.received buf))], (), (s.afterXfer buf).fillBuffer (s.received buf), ?_, ?_, rfl, rfl,
        ⟨hr.trace, hr.env, hr.pc, ?_, hr.life, hr.todo, hr.got, hr.result, hr.oracle⟩, by simp [State.fillBuffer], by simp, ?_⟩
      · simpa [Env.okNext, State.outcome] using h
      · simp only [receiveBuffer, chXfer_ok h]; rfl
      · exact ⟨hr.kept.cfg, hr.kept.mode, hr.kept.wp, hr.kept.hold, hr.kept.cur, hr.kept.idx, hr.kept.n, hr.kept.polls,
          hr.kept.program, hr.kept.port⟩
      · intro k hk
        cases hk
        have hl := received_length buf s
        simp [State.fillBuffer, memWrite, hl]

/-- The five ways an instruction ends (R155, R156), with `k` of `n` channel calls done when one fails: what it answers, the
events it issued, and where chip-select and the host buffer are left. -/
structure ExecSpec (i : Instr) (s : State) : Prop where
  cases :
    (∃ t, Env.failsAfter 0 s.env ∧ exec i s = .next (raise .signalError t) ∧ Ran [.sig .cs .asserted false] s t ∧
      t.cs = s.cs ∧ t.buf = s.buf) ∨
    (∃ ev k t, k < callCount i ∧ Env.failsAfter (k + 1) s.env ∧ exec i s = .next (raise .transportError t) ∧
      ev.length = k + 1 ∧ ev.all Event.isCall = true ∧ t.buf = s.buf ∧
      (s.cfg.csErr = false → Ran (.sig .cs .asserted true :: ev) s t ∧ t.cs = .asserted) ∧
      (s.cfg.csErr = true → Ran (closing (Env.outcomeAfter (k + 2) s.env) ev) s t ∧
        t.cs = if Env.outcomeAfter (k + 2) s.env then .deasserted else .asserted)) ∨
    (∃ ev t, Env.failsAfter (callCount i + 1) s.env ∧ exec i s = .next (raise .signalError t) ∧ ev.length = callCount i ∧
      ev.all Event.isCall = true ∧ Ran (closing false ev) s t ∧ t.cs = .asserted ∧ (writesBuffer i = false → t.buf = s.buf) ∧
      (∀ a buf, i = .read a buf → t.buf.drop buf.length = s.buf.drop buf.length)) ∨
    (∃ ev t u, Env.okNext (callCount i + 2) s.env = true ∧ exec i s = .next u ∧ (u = t ∨ returnsByte i = true ∧ ∃ b, u = t.latch b) ∧
      (returnsByte i = true → u.got.isSome = true) ∧ ev.length = callCount i ∧ ev.all Event.isCall = true ∧
      Ran (closing true ev) s t ∧ t.cs = .deasserted ∧ (writesBuffer i = false → t.buf = s.buf) ∧
      (∀ a buf, i = .read a buf → t.buf.drop buf.length = s.buf.drop buf.length))

/-- An instruction that is a frame of the calls `c`, with `f` done with the value it returns. -/
theorem exec_spec_of {α : Type} {i : Instr} {c : State → Ev α} {f : α → State → State} {keep : Option Nat} {s : State}
    (hm : s.mode ≠ .held) (he : exec i s = issueFrame c f s) (hc : CallsSpec c (callCount i) keep)
    (hf : ∀ v t, f v t = t ∧ returnsByte i = false ∨ returnsByte i = true ∧ ∃ b, f v t = t.latch b)
    (hk : (writesBuffer i = false ∧ keep = none) ∨ ∃ a buf, i = .read a buf ∧ keep = some buf.length) : ExecSpec i s where
  cases := by
    have hx : exec i s = .next ((frame c s).settle f) := by
      rw [he, issueFrame, if_neg hm]
    have hk1 : ∀ t : State, (keep = none → t.buf = s.buf) → writesBuffer i = false → t.buf = s.buf := by
      intro t h hw
      rcases hk with ⟨_, hk⟩ | ⟨a, buf, rfl, hk⟩
      · exact h hk
      · cases hw
    have hk2 : ∀ t : State, (∀ k, keep = some k → t.buf.drop k = s.buf.drop k) → ∀ a buf, i = .read a buf →
        t.buf.drop buf.length = s.buf.drop buf.length := by
      intro t h a buf hi
      rcases hk with ⟨hw, _⟩ | ⟨a', buf', hi', hk⟩
      · rw [hi] at hw; cases hw
      · rw [hi] at hi'; cases hi'; exact h _ hk
    rcases frame_spec hc s with ⟨t, h1, h2, h3, h4, h5⟩ | ⟨ev, k, t, h1, h2, h3, h4, h5, h6, h7, h8⟩ |
      ⟨ev, t, h1, h2, h3, h4, h5, h6, h7, h8⟩ | ⟨ev, v, t, h1, h2, h3, h4, h5, h6, h7, h8⟩
    · exact .inl ⟨t, h1, by rw [hx, h2]; rfl, h3, h4, h5⟩
    · exact .inr (.inl ⟨ev, k, t, h1, h2, by rw [hx, h3]; rfl, h4, h5, h6, h7, h8⟩)
    · exact .inr (.inr (.inl ⟨ev, t, h1, by rw [hx, h2]; rfl, h3, h4, h5, h6, hk1 t h7, hk2 t h8⟩))
    · refine .inr (.inr (.inr ⟨ev, t, f v t, h1, by rw [hx, h2]; rfl, ?_, ?_, h3, h4, h5, h6, hk1 t h7, hk2 t h8⟩))
      · rcases hf v t with ⟨h, _⟩ | h
        · exact .inl h
        · exact .inr h
      · intro hr
        rcases hf v t with ⟨_, h⟩ | ⟨_, b, h⟩
        · rw [hr] at h; cases h
        · rw [h]; rfl

/-- Outside mode Held every instruction ends in one of these ways. -/
theorem exec_spec (i : Instr) {s : State} (hm : s.mode ≠ .held) : ExecSpec i s := by
  have hn : ∀ i : Instr, returnsByte i = false → ∀ (v : Unit) (t : State),
      noValue v t = t ∧ returnsByte i = false ∨ returnsByte i = true ∧ ∃ b, noValue v t = t.latch b :=
    fun i h v t => .inl ⟨rfl, h⟩
  cases i with
  | read a buf =>
    exact exec_spec_of hm rfl (calls_both (calls_write (f := fun c => header c.opc .read a) fun _ => rfl) (calls_receive buf)) (hn _ (by rfl))
      (.inr ⟨a, buf, rfl, rfl⟩)
  | write a d =>
    exact exec_spec_of hm rfl (calls_both (calls_write (f := fun c => header c.opc .write a) fun _ => rfl)
      (calls_write (f := fun _ => d) fun _ => rfl)) (hn _ (by rfl)) (.inl ⟨rfl, rfl⟩)
  | wren =>
    exact exec_spec_of hm rfl (calls_write (f := fun c => [c.opc.get .writeEnable]) fun _ => rfl) (hn _ (by rfl)) (.inl ⟨rfl, rfl⟩)
  | wrdi =>
    exact exec_spec_of hm rfl (calls_write (f := fun c => [c.opc.get .writeDisable]) fun _ => rfl) (hn _ (by rfl)) (.inl ⟨rfl, rfl⟩)
  | rdsr =>
    exact exec_spec_of hm rfl (calls_xfer (f := fun c => [c.opc.get .readStatus, 0x00]) fun _ => rfl)
      (fun v t => .inr ⟨rfl, _, rfl⟩) (.inl ⟨rfl, rfl⟩)
  | wrsr v =>
    exact exec_spec_of hm rfl (calls_write (f := fun c => [c.opc.get .writeStatus, v]) fun _ => rfl) (hn _ (by rfl)) (.inl ⟨rfl, rfl⟩)
  | pe a =>
    exact exec_spec_of hm rfl (calls_write (f := fun c => header c.opc .pageErase a) fun _ => rfl) (hn _ (by rfl)) (.inl ⟨rfl, rfl⟩)
  | se a =>
    exact exec_spec_of hm rfl (calls_write (f := fun c => header c.opc .sectorErase a) fun _ => rfl) (hn _ (by rfl)) (.inl ⟨rfl, rfl⟩)
  | ce a =>
    exact exec_spec_of hm rfl (calls_write (f := fun c => header c.opc .chipErase a) fun _ => rfl) (hn _ (by rfl)) (.inl ⟨rfl, rfl⟩)
  | rpd =>
    exact exec_spec_of hm rfl (calls_xfer (f := fun c => c.opc.get .releasePowerDown :: zeroBytes (idDummies c)) fun _ => rfl)
      (fun v t => .inr ⟨rfl, _, rfl⟩) (.inl ⟨rfl, rfl⟩)
  | dpd =>
    exact exec_spec_of hm rfl (calls_write (f := fun c => [c.opc.get .deepSleep]) fun _ => rfl) (hn _ (by rfl)) (.inl ⟨rfl, rfl⟩)

/-- While held an instruction is refused (R156). -/
theorem exec_held (i : Instr) {s : State} (hm : s.mode = .held) : exec i s = .refused .heldTransaction := by
  cases i <;> exact if_pos hm

end Sys2Proof.Machine
end

