-- ==== Sys2Proof/Laws/Memory.lean ====
section
/-! SUPPORT. The laws of the byte memory: reading after a write, and that every operation keeps the canonical form and stays
below the capacity. -/

namespace Sys2Proof.Machine

/-- Past the first address of a canonical list everything below it is blank. -/
theorem Memory.read_below (m : Memory) (lo a : Nat) (h : Memory.wfFrom lo m = true) (ha : a < lo) :
    Memory.read m a = Memory.blank := by
  induction m generalizing lo with
  | nil => rfl
  | cons c rest ih =>
    obtain ⟨k, v⟩ := c
    simp only [Memory.wfFrom, Bool.and_eq_true, decide_eq_true_eq] at h
    simp only [Memory.read]
    rw [if_neg (by omega)]
    exact ih (k + 1) h.2 (by omega)

theorem Memory.read_write (m : Memory) (lo a x : Nat) (b : Byte) (h : Memory.wfFrom lo m = true) :
    Memory.read (Memory.write m a b) x = if x = a then b else Memory.read m x := by
  induction m generalizing lo with
  | nil =>
    simp only [Memory.write]
    split
    · subst b; simp [Memory.read]
    · simp only [Memory.read]; simp only [eq_comm]
  | cons c rest ih =>
    obtain ⟨k, v⟩ := c
    simp only [Memory.wfFrom, Bool.and_eq_true, decide_eq_true_eq] at h
    have hb := Memory.read_below rest (k + 1)
    simp only [Memory.write]
    split
    · simp only [Memory.read]
      rw [ih (k + 1) h.2]
      split <;> split <;> first | rfl | omega
    · split
      · subst a
        split
        · simp only [Memory.read]
          by_cases hx : x = k
          · subst x; simp [hb k h.2 (by omega), *]
          · rw [if_neg hx, if_neg (Ne.symm hx)]
        · simp only [Memory.read, eq_comm]
          split <;> simp_all
      · split
        · by_cases hx : x = a
          · subst x
            simp only [Memory.read, if_true]
            rw [if_neg (by omega), hb a h.2 (by omega)]
            exact Eq.symm ‹_›
          · rw [if_neg hx]
        · simp only [Memory.read, eq_comm]

theorem Memory.wfFrom_mono (m : Memory) (lo lo' : Nat) (hl : lo' ≤ lo) (h : Memory.wfFrom lo m = true) :
    Memory.wfFrom lo' m = true := by
  cases m with
  | nil => rfl
  | cons c rest =>
    simp only [Memory.wfFrom, Bool.and_eq_true, decide_eq_true_eq] at h ⊢
    exact ⟨⟨by omega, h.1.2⟩, h.2⟩

theorem Memory.wfFrom_write (m : Memory) (lo a : Nat) (b : Byte) (h : Memory.wfFrom lo m = true) (ha : lo ≤ a) :
    Memory.wfFrom lo (Memory.write m a b) = true := by
  induction m generalizing lo with
  | nil =>
    simp only [Memory.write]
    split
    · rfl
    · simp [Memory.wfFrom, *]
  | cons c rest ih =>
    obtain ⟨k, v⟩ := c
    have h' := h
    simp only [Memory.wfFrom, Bool.and_eq_true, decide_eq_true_eq] at h
    simp only [Memory.write]
    split
    · simp only [Memory.wfFrom, Bool.and_eq_true, decide_eq_true_eq]
      exact ⟨h.1, ih (k + 1) h.2 (by omega)⟩
    · split
      · split
        · exact Memory.wfFrom_mono rest (k + 1) lo (by omega) h.2
        · subst a
          simp only [Memory.wfFrom, Bool.and_eq_true, decide_eq_true_eq]
          exact ⟨⟨ha, by simpa using ‹¬b = _›⟩, h.2⟩
      · split
        · exact h'
        · simp only [Memory.wfFrom, Bool.and_eq_true, decide_eq_true_eq]
          exact ⟨⟨ha, by simpa using ‹¬b = _›⟩, ⟨by omega, h.1.2⟩, h.2⟩

theorem Memory.wf_write (m : Memory) (a : Nat) (b : Byte) (h : Memory.wf m = true) :
    Memory.wf (Memory.write m a b) = true :=
  Memory.wfFrom_write m 0 a b h (Nat.zero_le a)

theorem Memory.wf_writeAll (cells : List (Nat × Byte)) (m : Memory) (h : Memory.wf m = true) :
    Memory.wf (Memory.writeAll m cells) = true := by
  induction cells generalizing m with
  | nil => exact h
  | cons c rest ih => exact ih _ (Memory.wf_write m c.1 c.2 h)

theorem Memory.wf_fill (n lo : Nat) (b : Byte) (m : Memory) (h : Memory.wf m = true) :
    Memory.wf (Memory.fill m lo n b) = true := by
  induction n generalizing lo m with
  | zero => exact h
  | succ n ih => exact ih (lo + 1) _ (Memory.wf_write m lo b h)

theorem Memory.wf_ofCells (cap : Nat) (cells : List (Nat × Byte)) : Memory.wf (Memory.ofCells cap cells) = true :=
  Memory.wf_writeAll _ [] rfl

/-- A read after writes sees the last byte written to the address, and elsewhere what was there. -/
theorem Memory.read_fill (n lo : Nat) (b : Byte) (m : Memory) (x : Nat) (h : Memory.wf m = true) :
    Memory.read (Memory.fill m lo n b) x = if lo ≤ x ∧ x < lo + n then b else Memory.read m x := by
  induction n generalizing lo m with
  | zero => rw [if_neg (by omega)]; rfl
  | succ n ih =>
    rw [Memory.fill, ih (lo + 1) _ (Memory.wf_write m lo b h), Memory.read_write m 0 lo x b h]
    split
    · rw [if_pos (by omega)]
    · split
      · rw [if_pos (by omega)]
      · rw [if_neg (by omega)]

theorem Memory.read_writeAll_other (cells : List (Nat × Byte)) (m : Memory) (x : Nat) (h : Memory.wf m = true)
    (hx : ∀ c ∈ cells, c.1 ≠ x) : Memory.read (Memory.writeAll m cells) x = Memory.read m x := by
  induction cells generalizing m with
  | nil => rfl
  | cons c rest ih =>
    rw [Memory.writeAll, ih _ (Memory.wf_write m c.1 c.2 h) (fun d hd => hx d (List.mem_cons_of_mem _ hd)),
      Memory.read_write m 0 c.1 x c.2 h, if_neg (Ne.symm (hx c (List.mem_cons_self)))]

theorem Memory.below_write (cap a : Nat) (b : Byte) (m : Memory) (h : Memory.below cap m = true) (ha : a < cap) :
    Memory.below cap (Memory.write m a b) = true := by
  unfold Memory.below at h ⊢
  induction m with
  | nil =>
    simp only [Memory.write]
    split <;> simp [ha]
  | cons c rest ih =>
    obtain ⟨k, v⟩ := c
    simp only [List.all_cons, Bool.and_eq_true, decide_eq_true_eq] at h
    simp only [Memory.write]
    split
    · simp only [List.all_cons, Bool.and_eq_true, decide_eq_true_eq]
      exact ⟨h.1, ih h.2⟩
    · split <;> split <;>
        (try simp only [List.all_cons, Bool.and_eq_true, decide_eq_true_eq]) <;>
        first | exact h.2 | exact ⟨ha, h.2⟩ | exact h | exact ⟨ha, h.1, h.2⟩

theorem Memory.below_writeAll (cap : Nat) (cells : List (Nat × Byte)) (m : Memory) (h : Memory.below cap m = true)
    (hc : ∀ c ∈ cells, c.1 < cap) : Memory.below cap (Memory.writeAll m cells) = true := by
  induction cells generalizing m with
  | nil => exact h
  | cons c rest ih =>
    exact ih _ (Memory.below_write cap c.1 c.2 m h (hc c (List.mem_cons_self)))
      (fun d hd => hc d (List.mem_cons_of_mem _ hd))

theorem Memory.below_fill (cap n lo : Nat) (b : Byte) (m : Memory) (h : Memory.below cap m = true) (hn : lo + n ≤ cap) :
    Memory.below cap (Memory.fill m lo n b) = true := by
  induction n generalizing lo m with
  | zero => exact h
  | succ n ih => exact ih (lo + 1) _ (Memory.below_write cap lo b m h (by omega)) (by omega)

theorem Memory.below_ofCells (cap : Nat) (cells : List (Nat × Byte)) :
    Memory.below cap (Memory.ofCells cap cells) = true :=
  Memory.below_writeAll cap _ [] rfl (fun c hc => by simpa using (List.mem_filter.mp hc).2)

end Sys2Proof.Machine
end

