-- ==== Sys2Proof/Laws/Device.lean ====
section
/-! SUPPORT. What the reference device does with the frames of the block: it hears the encoded instruction, ends the frame with
its own effect on exactly those bytes, and its array changes nowhere but at a write's targets or in an erase's extent. -/

namespace Sys2Proof.Machine

/-- The first byte of an instruction's frame names it, to a device that takes it (R83 to R85). -/
theorem Device.heard_encode {c : Config} (h : c.opc.injective = true) (d : Device) (i : Instr) :
    d.heard c (encode c i) = if d.listens i.opcode then some i.opcode else none := by
  cases i <;> simp [encode, Device.heard, header_eq, opcodeOf_get h, Instr.opcode] <;> rfl

/-! ### The array -/

@[simp] theorem Device.startCycle_arr (d : Device) (e : Env) : (d.startCycle e).1.arr = d.arr := by
  simp only [Device.startCycle]; split <;> rfl

@[simp] theorem Device.countDown_arr (d : Device) : d.countDown.arr = d.arr := by
  simp only [Device.countDown]; repeat' split
  all_goals rfl

/-- A write burst changes the array at its targets only (R89). -/
theorem Device.writeBurst_arr (c : Config) (a : Nat) (p : List Byte) (d : Device) (e : Env) (h : Memory.wf d.arr = true)
    (x : Nat) (hx : ∀ k, k < p.length → burstTarget c.page a k ≠ x) :
    Memory.read (d.writeBurst c a p e).1.arr x = Memory.read d.arr x := by
  simp only [Device.writeBurst]
  split
  · rw [Device.startCycle_arr]
    refine Memory.read_writeAll_other _ _ _ h fun cell hc => ?_
    obtain ⟨k, hk, he⟩ := List.mem_map.mp (List.of_mem_zip (a := cell.1) (b := cell.2) hc).1
    rw [← he]
    exact hx k (List.mem_range.mp hk)
  · rfl

/-- An erase changes the array in its extent only (R91). -/
theorem Device.eraseAt_arr (c : Config) (i : Opcode) (a : Nat) (d : Device) (e : Env) (h : Memory.wf d.arr = true) (x : Nat)
    (hx : ¬ ((eraseExtent c d.sector i a).1 ≤ x ∧ x < (eraseExtent c d.sector i a).1 + (eraseExtent c d.sector i a).2)) :
    Memory.read (d.eraseAt c i a e).1.arr x = Memory.read d.arr x := by
  simp only [Device.eraseAt]
  split
  · rw [Device.startCycle_arr, Memory.read_fill _ _ _ _ _ h, if_neg hx]
  · rfl

/-- Two payload bytes fewer than a page apart have different targets (R89). -/
theorem burstTarget_ne {page a j k : Nat} (hj : k < j) (hj' : j < k + page) :
    burstTarget page a j ≠ burstTarget page a k := by
  unfold burstTarget
  intro he
  have he : (a % page + j) % page = (a % page + k) % page := by omega
  have hz : (a % page + j - (a % page + k)) % page = 0 := Nat.sub_mod_eq_zero_of_mod_eq he
  rw [show a % page + j - (a % page + k) = j - k by omega, Nat.mod_eq_of_lt (by omega)] at hz
  omega

/-- Every target of a burst lies in the page of its address (R70). -/
theorem burstTarget_page {page : Nat} (a k : Nat) (h : 0 < page) : burstTarget page a k / page = a / page := by
  have h1 := Nat.div_add_mod a page
  have h2 := Nat.mod_lt (a % page + k) h
  unfold burstTarget
  rw [show a - a % page = page * (a / page) by omega, Nat.mul_add_div h, Nat.div_eq_of_lt h2]
  rfl

/-- Of writes to the targets `f`, the last one at a target is the one that is read there. -/
theorem Memory.read_writeAll_last (f : Nat → Nat) (b : Byte) (p : List Byte) (j k : Nat) (m : Memory)
    (h : Memory.wf m = true) (hk : p[k]? = some b)
    (hlast : ∀ i, k < i → i < p.length → f (j + i) ≠ f (j + k)) :
    Memory.read (Memory.writeAll m (((List.range' j p.length).map f).zip p)) (f (j + k)) = b := by
  induction p generalizing j k m with
  | nil => simp at hk
  | cons y p ih =>
    simp only [List.length_cons, List.range'_succ, List.map_cons, List.zip_cons_cons, Memory.writeAll]
    cases k with
    | zero =>
      simp at hk; subst hk
      rw [Memory.read_writeAll_other _ _ _ (Memory.wf_write _ _ _ h), Memory.read_write m 0 _ _ _ h]
      · simp
      · intro c hc
        obtain ⟨i, hi, rfl⟩ := List.mem_iff_getElem.mp hc
        simp at hi
        simpa [Nat.add_assoc, Nat.add_comm 1 i] using hlast (i + 1) (by omega) (by simp; omega)
    | succ k =>
      have := ih (j + 1) k (Memory.write m (f j) y) (Memory.wf_write _ _ _ h) (by simpa using hk) (by
        intro i h1 h2
        simpa [Nat.add_assoc, Nat.add_comm 1] using hlast (i + 1) (by omega) (by simp; omega))
      simpa [Nat.add_assoc, Nat.add_comm 1] using this

/-! ### The window -/

/-- An exchange takes the bytes sent and changes nothing else of the device (R83). -/
theorem Device.exchange_device (c : Config) (bs : List Byte) (d : Device) (e : Env) :
    (Device.exchange c bs d e).2.1 = d.take bs := by
  induction bs generalizing d e with
  | nil => simp [Device.exchange, Device.take]
  | cons b bs ih =>
    simp only [Device.exchange]
    split <;> simp [ih, Device.take]

theorem opened_device {s : State} {d : Device} (h : s.link = .reference d) (hc : s.cs ≠ .asserted) :
    s.opened.link = .reference { d with window := [] } := by
  simp [State.opened, State.afterSignal, State.tellDevice, h, Device.select, hc]

theorem afterWrite_device {s : State} {d : Device} (bs : List Byte) (h : s.link = .reference d) :
    (s.afterWrite bs).link = .reference (d.take bs) := by
  simp [State.afterWrite, State.deliver, h]

theorem afterXfer_device {s : State} {d : Device} (bs : List Byte) (h : s.link = .reference d) :
    (s.afterXfer bs).link = .reference (d.take bs) := by
  simp [State.afterXfer, State.exchange, h, Device.exchange_device]

theorem closed_device {s : State} {d : Device} (h : s.link = .reference d) :
    ∃ e, s.closed.link = .reference (d.deselect s.cfg s.wp e).1 :=
  ⟨s.env.drawOutcome.2, by simp [State.closed, State.afterSignal, State.tellDevice, h]⟩

/-- A completed frame ends with the device's own effect on exactly the bytes of its window (R83). -/
theorem afterSend_device {s : State} {d : Device} (bs : List Byte) (h : s.link = .reference d) (hc : s.cs ≠ .asserted) :
    ∃ e : Env, (s.afterSend bs).link = .reference (Device.deselect s.cfg s.wp { d with window := bs } e).1 := by
  obtain ⟨e, h⟩ := closed_device (afterWrite_device bs (opened_device h hc))
  exact ⟨e, by simpa [State.afterSend, State.opened, Device.take] using h⟩

theorem afterExchange_device {s : State} {d : Device} (bs : List Byte) (h : s.link = .reference d)
    (hc : s.cs ≠ .asserted) :
    ∃ e : Env, (s.afterExchange bs).link = .reference (Device.deselect s.cfg s.wp { d with window := bs } e).1 := by
  obtain ⟨e, h⟩ := closed_device (afterXfer_device bs (opened_device h hc))
  exact ⟨e, by simpa [State.afterExchange, State.opened, Device.take] using h⟩

theorem afterBurst_device {s : State} {d : Device} (hdr p : List Byte) (h : s.link = .reference d)
    (hc : s.cs ≠ .asserted) :
    ∃ e : Env, (s.afterBurst hdr p).link = .reference (Device.deselect s.cfg s.wp { d with window := hdr ++ p } e).1 := by
  obtain ⟨e, h⟩ := closed_device (afterWrite_device p (afterWrite_device hdr (opened_device h hc)))
  exact ⟨e, by simpa [State.afterBurst, State.opened, Device.take] using h⟩

theorem afterFetch_device {s : State} {d : Device} (hdr buf : List Byte) (h : s.link = .reference d)
    (hc : s.cs ≠ .asserted) :
    ∃ e : Env, (s.afterFetch hdr buf).link = .reference (Device.deselect s.cfg s.wp { d with window := hdr ++ buf } e).1 := by
  obtain ⟨e, h⟩ := closed_device
    (s := ((s.opened.afterWrite hdr).afterXfer buf).fillBuffer ((s.opened.afterWrite hdr).received buf))
    (afterXfer_device buf (afterWrite_device hdr (opened_device h hc)))
  exact ⟨e, by simpa [State.afterFetch, State.fillBuffer, State.opened, Device.take] using h⟩

end Sys2Proof.Machine
end

