-- ==== Sys2Proof/Laws/Link.lean ====
section
/-! SUPPORT. Every operation that touches the reference device keeps its array canonical and below the capacity, and its sector
size (`Link.ok`). -/

namespace Sys2Proof.Machine

/-- The reference device is as `Link.ok` asks (R16, R61, R82). -/
def Device.ok (c : Config) (d : Device) : Prop :=
  Memory.wf d.arr = true ∧ Memory.below c.cap d.arr = true ∧ 0 < d.sector

theorem Device.ok_window {c : Config} {d : Device} (w : List Byte) (h : d.ok c) : Device.ok c { d with window := w } := h

theorem Device.ok_startCycle {c : Config} {d : Device} (e : Env) (h : d.ok c) : Device.ok c (d.startCycle e).1 := by
  simp only [Device.startCycle]; split <;> exact h

theorem Device.ok_countDown {c : Config} {d : Device} (h : d.ok c) : Device.ok c d.countDown := by
  simp only [Device.countDown]; split <;> [exact h; skip]; split <;> exact h

theorem Device.ok_writeStatus {c : Config} {d : Device} (wp : Pin) (v : Byte) (e : Env) (h : d.ok c) :
    Device.ok c (d.writeStatus wp v e).1 := by
  simp only [Device.writeStatus]
  split
  · exact Device.ok_startCycle e (show Device.ok c { d with pl := _, wpen := _ } from h)
  · exact h

theorem Device.ok_writeBurst {c : Config} {d : Device} (a : Nat) (p : List Byte) (e : Env) (h : d.ok c) :
    Device.ok c (d.writeBurst c a p e).1 := by
  simp only [Device.writeBurst]
  split
  · rename_i hc
    refine Device.ok_startCycle e ⟨Memory.wf_writeAll _ _ h.1, Memory.below_writeAll _ _ _ h.2.1 fun cell hm => ?_, h.2.2⟩
    simp only [Bool.and_eq_true, List.all_eq_true, decide_eq_true_eq] at hc
    exact (hc.2 _ (List.of_mem_zip (a := cell.1) (b := cell.2) hm).1).1
  · exact h

/-- An erase extent lies below the capacity when its address does (R91). -/
theorem eraseExtent_below (c : Config) (sector : Nat) (i : Opcode) {a : Nat} (ha : a < c.cap) :
    (eraseExtent c sector i a).1 + (eraseExtent c sector i a).2 ≤ c.cap := by
  cases i <;> simp only [eraseExtent] <;> omega

theorem Device.ok_eraseAt {c : Config} {d : Device} (i : Opcode) (a : Nat) (e : Env) (h : d.ok c) :
    Device.ok c (d.eraseAt c i a e).1 := by
  simp only [Device.eraseAt]
  split
  · rename_i hc
    simp only [Bool.and_eq_true, decide_eq_true_eq] at hc
    exact Device.ok_startCycle e ⟨Memory.wf_fill _ _ _ _ h.1,
      Memory.below_fill _ _ _ _ _ h.2.1 (eraseExtent_below c d.sector i hc.1.2), h.2.2⟩
  · exact h

theorem Device.ok_effect {c : Config} {d : Device} (wp : Pin) (i : Opcode) (rest : List Byte) (e : Env) (h : d.ok c) :
    Device.ok c (d.effect c wp i rest e).1 := by
  unfold Device.effect
  split <;> first
    | exact h
    | exact Device.ok_countDown h
    | exact Device.ok_writeStatus _ _ _ h
    | exact Device.ok_writeBurst _ _ _ h
    | exact Device.ok_eraseAt _ _ _ h
    | (split <;> exact h)

theorem Device.ok_deselect {c : Config} {d : Device} (wp : Pin) (e : Env) (h : d.ok c) :
    Device.ok c (d.deselect c wp e).1 := by
  unfold Device.deselect
  dsimp only
  split
  · exact h
  · exact Device.ok_effect wp _ _ e (Device.ok_window [] h)

theorem Link.ok_reference {c : Config} {d : Device} : Link.ok c (.reference d) ↔ d.ok c := Iff.rfl

theorem Device.ok_draw {c : Config} {d : Device} (e : Env) (h : d.ok c) : Device.ok c (e.drawDevice c.cap d).1 :=
  ⟨Memory.wf_ofCells _ _, Memory.below_ofCells _ _, h.2.2⟩

theorem Link.ok_tellDevice {s : State} (x : Signal) (l : Level) (h : Link.ok s.cfg s.link) :
    Link.ok s.cfg (s.tellDevice x l).link := by
  unfold State.tellDevice
  split
  · rename_i d hd
    rw [hd] at h
    simp only [Device.select]
    split <;> exact h
  · rename_i d hd
    rw [hd] at h
    exact Device.ok_deselect s.wp s.env h
  · exact h

theorem Link.ok_deliver {s : State} (bs : List Byte) (h : Link.ok s.cfg s.link) : Link.ok s.cfg (s.deliver bs).link := by
  unfold State.deliver
  split
  · exact h
  · rename_i d hd
    rw [hd] at h
    exact h

theorem Link.ok_exchange {s : State} (bs : List Byte) (h : Link.ok s.cfg s.link) :
    Link.ok s.cfg (s.exchange bs).2.link := by
  unfold State.exchange
  split
  · exact h
  · rename_i d hd
    rw [hd] at h
    simp only [Device.exchange_device]
    exact h

theorem Link.ok_scramble {s : State} (h : Link.ok s.cfg s.link) : Link.ok s.cfg s.scramble.link := by
  unfold State.scramble
  split
  · exact h
  · rename_i d hd
    rw [hd] at h
    exact Device.ok_draw s.env h

theorem Link.ok_endWindow {s : State} (h : Link.ok s.cfg s.link) : Link.ok s.cfg s.endWindow.link := by
  unfold State.endWindow
  split
  · exact h
  · rename_i d hd
    rw [hd] at h
    exact h

theorem Link.ok_afterSignal {s : State} (x : Signal) (l : Level) (h : Link.ok s.cfg s.link) :
    Link.ok s.cfg (s.afterSignal x l).link := by
  have := Link.ok_tellDevice (s := s.drawn.record (.sig x l true)) x l (by simpa using h)
  simpa [State.afterSignal] using this

theorem Link.ok_afterWrite {s : State} (bs : List Byte) (h : Link.ok s.cfg s.link) :
    Link.ok s.cfg (s.afterWrite bs).link := by
  have := Link.ok_deliver (s := s.drawn.record (.write bs true)) bs (by simpa using h)
  simpa [State.afterWrite] using this

theorem Link.ok_afterXfer {s : State} (bs : List Byte) (h : Link.ok s.cfg s.link) :
    Link.ok s.cfg (s.afterXfer bs).link := by
  have := Link.ok_exchange (s := s.drawn) bs (by simpa using h)
  simpa [State.afterXfer] using this

theorem Link.ok_releaseSelect {s : State} (h : Link.ok s.cfg s.link) : Link.ok s.cfg (releaseSelect s).link := by
  unfold releaseSelect
  split
  · split
    · have := Link.ok_endWindow (s := s.drawn.record (.sig .cs .deasserted true)) (by simpa using h)
      simpa using this
    · simpa using h
  · exact h

/-- A meaning's channel calls keep the link. -/
def CallsKeepLink {α : Type} (c : State → Ev α) : Prop :=
  ∀ s, Link.ok s.cfg s.link →
    match c s with
    | .done _ t => t.cfg = s.cfg ∧ Link.ok s.cfg t.link
    | .failed _ t => t.cfg = s.cfg ∧ Link.ok s.cfg t.link

theorem keeps_write (f : Config → List Byte) : CallsKeepLink (fun s => chWrite (f s.cfg) s) := by
  intro s h
  cases ho : s.outcome with
  | true => simp only [chWrite_ok ho]; exact ⟨by simp, Link.ok_afterWrite _ h⟩
  | false => simp only [chWrite_fail ho]; exact ⟨by simp, by simpa using h⟩

theorem keeps_xfer (f : Config → List Byte) : CallsKeepLink (fun s => chXfer (f s.cfg) s) := by
  intro s h
  cases ho : s.outcome with
  | true => simp only [chXfer_ok ho]; exact ⟨by simp, Link.ok_afterXfer _ h⟩
  | false => simp only [chXfer_fail ho]; exact ⟨by simp, by simpa using h⟩

theorem keeps_receive (buf : List Byte) : CallsKeepLink (receiveBuffer buf) := by
  intro s h
  simp only [receiveBuffer]
  cases ho : s.outcome with
  | true => simp only [chXfer_ok ho]; exact ⟨by simp, Link.ok_afterXfer _ h⟩
  | false => simp only [chXfer_fail ho]; exact ⟨by simp, by simpa using h⟩

theorem keeps_both {α : Type} {c1 : State → Ev Unit} {c2 : State → Ev α} (h1 : CallsKeepLink c1) (h2 : CallsKeepLink c2) :
    CallsKeepLink (both c1 c2) := by
  intro s h
  have g1 := h1 s h
  simp only [both]
  cases hc : c1 s with
  | failed e t => rw [hc] at g1; exact g1
  | done v t =>
    rw [hc] at g1
    have g2 := h2 t (g1.1 ▸ g1.2)
    rw [g1.1] at g2
    exact g2

/-- A frame keeps the link, whatever the environment draws. -/
theorem keeps_frame {α : Type} {c : State → Ev α} (h : CallsKeepLink c) : CallsKeepLink (frame c) := by
  intro s hl
  have ho := Link.ok_afterSignal (s := s) .cs .asserted hl
  have hcfg : s.opened.cfg = s.cfg := by simp [State.opened]
  have hc := h s.opened (by rw [hcfg]; exact ho)
  rw [hcfg] at hc
  rcases frame_cases c s with ⟨_, hf⟩ | ⟨_, e, t, ht, hf⟩ | ⟨_, v, t, ht, _, hf⟩ | ⟨_, v, t, ht, _, hf⟩ <;> rw [hf]
  · exact ⟨by simp, by simpa using Link.ok_scramble (s := s.drawn.record (.sig .cs .asserted false)) (by simpa using hl)⟩
  · rw [ht] at hc
    have h1 : Link.ok t.scramble.cfg t.scramble.link := by
      have := Link.ok_scramble (s := t) (by rw [hc.1]; exact hc.2)
      simpa using this
    have := Link.ok_releaseSelect h1
    refine ⟨by simp [hc.1], ?_⟩
    simpa [hc.1] using this
  · rw [ht] at hc
    have := Link.ok_scramble (s := t.drawn.record (.sig .cs .deasserted false)) (by simpa [hc.1] using hc.2)
    exact ⟨by simp [hc.1], by simpa [hc.1] using this⟩
  · rw [ht] at hc
    have := Link.ok_afterSignal (s := t) .cs .deasserted (by rw [hc.1]; exact hc.2)
    exact ⟨by simp [State.closed, hc.1], by simpa [State.closed, hc.1] using this⟩

theorem keeps_issue {α : Type} {c : State → Ev α} {f : α → State → State} {s t : State} (h : CallsKeepLink c)
    (hf : ∀ v u, (f v u).link = u.link) (hl : Link.ok s.cfg s.link) (he : issueFrame c f s = .next t) :
    Link.ok s.cfg t.link := by
  obtain ⟨_, rfl⟩ := issueFrame_next he
  have := keeps_frame h s hl
  cases hc : frame c s with
  | done v u => rw [hc] at this; simpa [Ev.settle, hf] using this.2
  | failed e u => rw [hc] at this; exact this.2

/-- Every instruction keeps the reference device's array canonical and below the capacity. -/
theorem Link.ok_exec {i : Instr} {s t : State} (hl : Link.ok s.cfg s.link) (he : exec i s = .next t) :
    Link.ok s.cfg t.link := by
  cases i with
  | read a buf =>
    exact keeps_issue (keeps_both (keeps_write fun c => header c.opc .read a) (keeps_receive buf)) (by intros; rfl) hl he
  | write a d =>
    exact keeps_issue (keeps_both (keeps_write fun c => header c.opc .write a) (keeps_write fun _ => d))
      (by intros; rfl) hl he
  | wren => exact keeps_issue (keeps_write fun c => [c.opc.get .writeEnable]) (by intros; rfl) hl he
  | wrdi => exact keeps_issue (keeps_write fun c => [c.opc.get .writeDisable]) (by intros; rfl) hl he
  | rdsr =>
    exact keeps_issue (keeps_xfer fun c => [c.opc.get .readStatus, 0x00])
      (by intros; rfl) hl he
  | wrsr v => exact keeps_issue (keeps_write fun c => [c.opc.get .writeStatus, v]) (by intros; rfl) hl he
  | pe a => exact keeps_issue (keeps_write fun c => header c.opc .pageErase a) (by intros; rfl) hl he
  | se a => exact keeps_issue (keeps_write fun c => header c.opc .sectorErase a) (by intros; rfl) hl he
  | ce a => exact keeps_issue (keeps_write fun c => header c.opc .chipErase a) (by intros; rfl) hl he
  | rpd =>
    exact keeps_issue (keeps_xfer fun c => c.opc.get .releasePowerDown :: zeroBytes (idDummies c))
      (by intros; rfl) hl he
  | dpd => exact keeps_issue (keeps_write fun c => [c.opc.get .deepSleep]) (by intros; rfl) hl he

/-- The reset state's memory is canonical. -/
theorem reset_memory_wf : Memory.wf State.reset.memory = true := rfl

end Sys2Proof.Machine
end

