-- ==== Sys2Proof/Laws/PerInstr.lean ====
section
/-! SUPPORT. Statements made for every instruction, one lemma per constructor: the first byte of its frame (R106, R109), and
the least length its frame has (R104). -/

namespace Sys2Proof.Laws.HeadByte

/-- Byte 0 of the frame is the opcode byte of the instruction, under every configuration (R104, R106). -/
def Statement (i : Instr) : Prop :=
  ∀ c : Config, (encode c i).head? = some (c.opc.get i.opcode)

theorem read (a : Addr) (buf : List Byte) : Statement (.read a buf) := by
  intro c
  simp [encode, Instr.opcode, header_eq]

theorem write (a : Addr) (d : List Byte) : Statement (.write a d) := by
  intro c
  simp [encode, Instr.opcode, header_eq]

theorem wren : Statement (.wren) := by
  intro c
  simp [encode, Instr.opcode]

theorem wrdi : Statement (.wrdi) := by
  intro c
  simp [encode, Instr.opcode]

theorem rdsr : Statement (.rdsr) := by
  intro c
  simp [encode, Instr.opcode]

theorem wrsr (v : Byte) : Statement (.wrsr v) := by
  intro c
  simp [encode, Instr.opcode]

theorem pe (a : Addr) : Statement (.pe a) := by
  intro c
  simp [encode, Instr.opcode, header_eq]

theorem se (a : Addr) : Statement (.se a) := by
  intro c
  simp [encode, Instr.opcode, header_eq]

theorem ce (a : Addr) : Statement (.ce a) := by
  intro c
  simp [encode, Instr.opcode, header_eq]

theorem rpd : Statement (.rpd) := by
  intro c
  simp [encode, Instr.opcode]

theorem dpd : Statement (.dpd) := by
  intro c
  simp [encode, Instr.opcode]

end Sys2Proof.Laws.HeadByte

namespace Sys2Proof.Laws.LeastLength

/-- The frame is no shorter than the shortest its instruction has, under every configuration (R104). -/
def Statement (i : Instr) : Prop :=
  ∀ c : Config, minFrameLength c i.opcode ≤ (encode c i).length

theorem read (a : Addr) (buf : List Byte) : Statement (.read a buf) := by
  intro c
  simp [encode, Instr.opcode, minFrameLength, header_eq]

theorem write (a : Addr) (d : List Byte) : Statement (.write a d) := by
  intro c
  simp [encode, Instr.opcode, minFrameLength, header_eq]

theorem wren : Statement (.wren) := by
  intro c
  simp [encode, Instr.opcode, minFrameLength]

theorem wrdi : Statement (.wrdi) := by
  intro c
  simp [encode, Instr.opcode, minFrameLength]

theorem rdsr : Statement (.rdsr) := by
  intro c
  simp [encode, Instr.opcode, minFrameLength]

theorem wrsr (v : Byte) : Statement (.wrsr v) := by
  intro c
  simp [encode, Instr.opcode, minFrameLength]

theorem pe (a : Addr) : Statement (.pe a) := by
  intro c
  simp [encode, Instr.opcode, minFrameLength, header_eq]

theorem se (a : Addr) : Statement (.se a) := by
  intro c
  simp [encode, Instr.opcode, minFrameLength, header_eq]

theorem ce (a : Addr) : Statement (.ce a) := by
  intro c
  simp [encode, Instr.opcode, minFrameLength, header_eq]

theorem rpd : Statement (.rpd) := by
  intro c
  simp [encode, Instr.opcode, minFrameLength, zeroBytes]
  omega

theorem dpd : Statement (.dpd) := by
  intro c
  simp [encode, Instr.opcode, minFrameLength]

end Sys2Proof.Laws.LeastLength
end

