-- ==== Sys2Proof/Laws/Step.lean ====
section
/-! SUPPORT. What a step can do, said once: which of a request, a line of the running operation, the next request of the host or
nothing it takes; and what a started request leaves. -/

namespace Sys2Proof.Machine

/-- A request that is accepted was admitted, and has been started. -/
theorem accept_next {r : Request} {s t : State} (h : accept r s = .next t) :
    s.pc = .idle ∧ admission r s = none ∧ t = start r s := by
  unfold accept at h
  cases ha : admission r s with
  | some why => rw [ha] at h; cases h
  | none =>
    rw [ha] at h
    cases h
    refine ⟨?_, rfl, rfl⟩
    by_contra hp
    simp [admission, hp] at ha

/-- What a step does when it answers a next state: it starts the request on the port, runs the next line of the operation,
starts the host's next request, or waits. -/
theorem step_cases {s t : State} (h : Machine.step s = .next t) :
    s.cfg.wf = true ∧
    ((∃ r, s.port = some r ∧ accept r { s with port := none } = .next t) ∨
      (∃ l rest, s.port = none ∧ s.todo = l :: rest ∧ runLine l { s with todo := rest } = .next t) ∨
      (∃ r rest, s.port = none ∧ s.todo = [] ∧ s.program = r :: rest ∧ accept r { s with program := rest } = .next t) ∨
      (s.port = none ∧ s.todo = [] ∧ s.program = [] ∧ s.life ≠ .dead ∧ t = s)) := by
  unfold Machine.step advance at h
  split at h
  · rename_i hw
    refine ⟨hw, ?_⟩
    split at h
    · exact .inl ⟨_, by assumption, h⟩
    · exact .inr (.inl ⟨_, _, by assumption, by assumption, h⟩)
    · rename_i hp ht
      unfold idleStep at h
      split at h
      · exact .inr (.inr (.inl ⟨_, _, hp, ht, by assumption, h⟩))
      · split at h
        · cases h
        · cases h
          exact .inr (.inr (.inr ⟨hp, ht, by assumption, by assumption, rfl⟩))
  · cases h

/-- A request whose operands have passed R114's test is combinational and answers at once, or begins the operation it names. -/
theorem start_cases {r : Request} {s : State} (hk : r.known = true) (ho : r.operandsOk = true) :
    (r.opName = none ∧ ∃ v, start r s = answer v s) ∨
    ∃ o lines buf, r.opName = some o ∧ start r s = begin o lines buf s := by
  cases r with
  | erase a g =>
    cases g with
    | none => simp [Request.operandsOk] at ho
    | some g => exact .inr ⟨_, _, _, rfl, rfl⟩
  | encode i a =>
    cases i with
    | none => simp [Request.operandsOk] at ho
    | some i => exact .inl ⟨rfl, _, rfl⟩
  | srSetPl b l =>
    cases l with
    | none => simp [Request.operandsOk] at ho
    | some l => exact .inl ⟨rfl, _, rfl⟩
  | unknown name => simp [Request.known] at hk
  | srBusy b => exact .inl ⟨rfl, _, rfl⟩
  | srWel b => exact .inl ⟨rfl, _, rfl⟩
  | srPl b => exact .inl ⟨rfl, _, rfl⟩
  | srWpen b => exact .inl ⟨rfl, _, rfl⟩
  | srSetWpen b e => exact .inl ⟨rfl, _, rfl⟩
  | _ => exact .inr ⟨_, _, _, rfl, rfl⟩

/-- What an admitted request satisfies (R180). -/
theorem admit_none {r : Request} {s : State} (h : admission r s = none) :
    s.pc = .idle ∧ r.known = true ∧ r.operandsOk = true ∧
    ∀ o, r.opName = some o → (o = .init ∧ s.life = .uninit) ∨ (o ≠ .init ∧ s.life = .ready ∧
      (o.framedDriver = true → s.mode ≠ .held) ∧ (o = .deepSleep → s.cfg.sleep = true) ∧
      (o = .hold → s.cfg.hold = true ∧ s.mode = .active)) := by
  unfold admission at h
  split at h <;> [cases h; skip]
  split at h <;> [cases h; skip]
  split at h <;> [cases h; skip]
  rename_i h1 h2 h3
  refine ⟨by simpa using h1, by simpa using h2, by simpa using h3, fun o ho => ?_⟩
  rw [ho] at h
  cases o
  case init =>
    left
    refine ⟨rfl, ?_⟩
    by_contra hl
    simp [hl] at h
  all_goals
    right
    refine ⟨by decide, ?_⟩
    by_cases hl : s.life = .ready
    · simp [hl, OpName.framedDriver] at h ⊢
      try first
        | assumption
        | (by_cases hm : s.mode = .held <;> by_cases hs : s.cfg.sleep = true <;> simp [hm, hs] at h ⊢)
        | (by_cases hm : s.mode = .active <;> by_cases hs : s.cfg.hold = true <;> simp [hm, hs] at h ⊢)
    · simp [hl] at h

end Sys2Proof.Machine
end

