-- ==== Sys2Proof/Laws/Plan.lean ====
section
/-! SUPPORT. The plan of an operation (`planOk`): what it depends on, and that every operation begins with one that may run; and
which passage of R196's table a trace ends with. -/

namespace Sys2Proof.Machine

/-! ### The passage a trace ends with -/

@[simp] theorem passageOf_hold (c : Config) (tr : List Event) : passageOf c (tr ++ [.sig .hold .asserted true]) = some .hold := by
  simp [passageOf]

@[simp] theorem passageOf_release (c : Config) (tr : List Event) :
    passageOf c (tr ++ [.sig .hold .deasserted true]) = some .release := by
  simp [passageOf]

@[simp] theorem passageOf_sleep (c : Config) (tr : List Event) :
    passageOf c (tr ++ bracket [.write (encode c .dpd) true]) = some .sleep := by
  simp [passageOf, bracket]

@[simp] theorem passageOf_wake (c : Config) (tr : List Event) (rs : List Byte) :
    passageOf c (tr ++ bracket [.xfer (encode c .rpd) (some rs)]) = some .wake := by
  simp [passageOf, bracket]

/-- A passage is read off a trace only where its event, or its completed frame, stands at the end. -/
theorem passageOf_eq_some {c : Config} {tr : List Event} {p : Passage} (h : passageOf c tr = some p) :
    ∃ pre, (p = .hold ∧ tr = pre ++ [.sig .hold .asserted true]) ∨ (p = .release ∧ tr = pre ++ [.sig .hold .deasserted true]) ∨
      (p = .sleep ∧ tr = pre ++ bracket [.write (encode c .dpd) true]) ∨
      (p = .wake ∧ ∃ rs, tr = pre ++ bracket [.xfer (encode c .rpd) (some rs)]) := by
  unfold passageOf at h
  split at h
  · rename_i hr; rw [List.reverse_eq_cons_iff] at hr
    exact ⟨_, .inl ⟨by simpa using h.symm, hr⟩⟩
  · rename_i hr; rw [List.reverse_eq_cons_iff] at hr
    exact ⟨_, .inr (.inl ⟨by simpa using h.symm, hr⟩)⟩
  · rename_i pre hr
    split at h <;> [skip; cases h]
    refine ⟨pre.reverse, .inr (.inr (.inl ⟨by simpa using h.symm, ?_⟩))⟩
    rw [← List.reverse_reverse tr, hr]
    simp_all [bracket]
  · rename_i rs pre hr
    split at h <;> [skip; cases h]
    refine ⟨pre.reverse, .inr (.inr (.inr ⟨by simpa using h.symm, rs, ?_⟩))⟩
    rw [← List.reverse_reverse tr, hr]
    simp_all [bracket]
  · cases h

/-- An instruction whose events all succeed leaves its passage at the end of the trace. -/
theorem exec_passage {i : Instr} {s t : State} (hm : s.mode ≠ .held) (hk : Env.okNext (callCount i + 2) s.env = true)
    (h : exec i s = .next t) : framePassage i = none ∨ passageOf s.cfg t.trace = framePassage i := by
  cases i with
  | dpd =>
    rw [show exec .dpd s = execDpd s from rfl, execDpd_ok hm hk] at h
    cases h
    right
    rw [show (s.afterSend [s.cfg.opc.get .deepSleep]).trace = s.trace ++ bracket [.write (encode s.cfg .dpd) true] by
      simp [State.afterSend, State.opened, State.closed, bracket, encode]]
    exact passageOf_sleep _ _
  | rpd =>
    rw [show exec .rpd s = execRpd s from rfl, execRpd_ok hm hk] at h
    cases h
    right
    rw [latch_trace, show (s.afterExchange (s.cfg.opc.get .releasePowerDown :: zeroBytes (idDummies s.cfg))).trace =
        s.trace ++ bracket [.xfer (encode s.cfg .rpd) (some (s.opened.received (encode s.cfg .rpd)))] by
      simp [State.afterExchange, State.opened, State.closed, bracket, encode]]
    exact passageOf_wake _ _ _
  | _ => exact .inl rfl

/-! ### The plan -/

/-- A plan that may run from a view may run from one that agrees with it in mode, hold and WP has received at least as
much, and knows at least its passage; the cursor matters only to lines that use it. -/
theorem plan_mono (c : Config) : ∀ (l : List Line) (v v' : View), v'.mode = v.mode → v'.hold = v.hold → v'.wp = v.wp → (v.got = true → v'.got = true) →
    (v.passage = none ∨ v'.passage = v.passage) →
    ((v'.cur = v.cur ∧ v'.idx = v.idx ∧ v'.n = v.n ∧ v'.len = v.len) ∨ l.all (fun l => !l.usesCursor) = true) →
    planOk c v l = true → planOk c v' l = true := by
  intro l
  induction l with
  | nil => intro v v' _ _ _ _ _ _ h; simp [planOk] at h
  | cons x r ih =>
    replace ih := fun {v v' : View} (h : planOk c v r = true) a b d e f g => ih v v' a b d e f g h
    intro v v' hm hh hw hg hpa hc h
    have hb : v'.balanced = v.balanced := by simp [View.balanced, hm, hh]
    obtain ⟨m, ho, w, g, cu, ix, n, le, pa⟩ := v
    obtain ⟨m', ho', w', g', cu', ix', n', le', pa'⟩ := v'
    simp only at hm hh hw hg hpa hc
    subst hm hh hw
    have hr : (cu' = cu ∧ ix' = ix ∧ n' = n ∧ le' = le) ∨ r.all (fun l => !l.usesCursor) = true := by
      rcases hc with h | h
      · exact .inl h
      · simp only [List.all_cons, Bool.and_eq_true] at h; exact .inr h.2
    have hps : ∀ p, pa = some p → pa' = some p := by
      intro p hp
      rcases hpa with h | h
      · rw [h] at hp; cases hp
      · exact h.trans hp
    cases x with
    | ret val => simpa [planOk, hb] using h
    | retByte => simp only [planOk, hb, Bool.and_eq_true] at h ⊢; exact ⟨⟨h.1.1, hg h.1.2⟩, h.2⟩
    | retBuffer => simpa [planOk, hb] using h
    | sig x l =>
      cases x <;> cases l <;> simp only [planOk, hb, Bool.and_eq_true, Bool.false_eq_true] at h ⊢
      all_goals exact ⟨h.1, ih h.2 rfl rfl rfl hg (.inr rfl) hr⟩
    | frame bs =>
      simp only [planOk, hb, Bool.and_eq_true] at h ⊢
      refine ⟨h.1, ?_⟩
      have h := h.2
      split at h
      · cases h
      · simp only [Bool.and_eq_true] at h ⊢
        refine ⟨h.1, ih h.2 rfl rfl rfl ?_ (.inr rfl) hr⟩
        simp only [Bool.or_eq_true]; rintro (h | h) <;> [exact .inl (hg h); exact .inr h]
    | setMode md =>
      simp only [planOk, hb, Bool.and_eq_true] at h ⊢
      refine ⟨?_, ih h.2 rfl rfl rfl hg hpa hr⟩
      have h := h.1
      cases md <;> simp only [Bool.and_eq_true, beq_iff_eq, Bool.false_eq_true] at h ⊢ <;> exact ⟨h.1, hps _ h.2⟩
    | leaveHeld =>
      simp only [planOk, Bool.and_eq_true, beq_iff_eq] at h ⊢
      exact ⟨⟨h.1.1, hps _ h.1.2⟩, ih h.2 rfl rfl rfl hg hpa hr⟩
    | checkIdentity => simp only [planOk, hb, Bool.and_eq_true] at h ⊢; exact ⟨⟨h.1.1, hg h.1.2⟩, ih h.2 rfl rfl rfl hg hpa hr⟩
    | checkBusy => simp only [planOk, hb, Bool.and_eq_true] at h ⊢; exact ⟨⟨h.1.1, hg h.1.2⟩, ih h.2 rfl rfl rfl hg hpa hr⟩
    | writeInitStatus => simp only [planOk, hb, Bool.and_eq_true] at h ⊢; exact ⟨⟨⟨h.1.1.1, hg h.1.1.2⟩, h.1.2⟩, ih h.2 rfl rfl rfl hg (.inr rfl) hr⟩
    | becomeReady => simpa only [planOk, hb] using h
    | startPoll => simp only [planOk, hb, Bool.and_eq_true] at h ⊢; exact ⟨h.1, ih h.2 rfl rfl rfl hg hpa hr⟩
    | poll => simp only [planOk, hb, Bool.and_eq_true] at h ⊢; exact ⟨h.1, ih h.2 rfl rfl rfl (fun _ => rfl) (.inr rfl) hr⟩
    | testPoll => simp only [planOk, hb, Bool.and_eq_true] at h ⊢; exact ⟨⟨⟨h.1.1.1, hg h.1.1.2⟩, h.1.2⟩, ih h.2 rfl rfl rfl hg (.inr rfl) hr⟩
    | _ =>
      rcases hc with ⟨rfl, rfl, rfl, rfl⟩ | hc
      · simp only [planOk, hb, Bool.and_eq_true, Bool.or_eq_true] at h ⊢
        first
          | exact ⟨h.1, ih h.2 rfl rfl rfl hg hpa (.inl ⟨rfl, rfl, rfl, rfl⟩)⟩
          | exact ⟨h.1, ih h.2 rfl rfl rfl hg (.inr rfl) (.inl ⟨rfl, rfl, rfl, rfl⟩)⟩
          | exact ⟨h.1, by rcases h.2 with h2 | h2 <;> [exact .inl h2; exact .inr (ih h2 rfl rfl rfl hg hpa (.inl ⟨rfl, rfl, rfl, rfl⟩))]⟩
      · simp [Line.usesCursor] at hc

/-- A byte received only helps. -/
theorem plan_got {c : Config} {v : View} {l : List Line} (h : planOk c v l = true) : planOk c { v with got := true } l = true :=
  plan_mono c l v { v with got := true } rfl rfl rfl (fun _ => rfl) (.inr rfl) (.inl ⟨rfl, rfl, rfl, rfl⟩) h

/-- A passage only helps. -/
theorem plan_passage {c : Config} {v : View} {l : List Line} (h : planOk c { v with passage := none } l = true) :
    planOk c v l = true :=
  plan_mono c l { v with passage := none } v rfl rfl rfl id (.inl rfl) (.inl ⟨rfl, rfl, rfl, rfl⟩) h

/-- What the well-formedness of a configuration gives. -/
theorem Config.wf_facts {c : Config} (h : c.wf = true) : 0 < c.page ∧ c.cap < 2 ^ 24 ∧ c.opc.injective = true ∧ 1 ≤ c.cap := by
  simp only [Config.wf, Config.capOk, Config.pageOk, Bool.and_eq_true, decide_eq_true_eq] at h
  obtain ⟨⟨⟨⟨h1, h2⟩, h3⟩, h4⟩, h5⟩ := h
  refine ⟨?_, h2, h4, h1⟩
  simp at h3
  omega

/-- The lines an admitted request starts may run from where it starts them. -/
theorem start_plan {r : Request} {o : OpName} {s : State} (hw : s.cfg.wf = true)
    (hd : ∀ i, decode s.cfg (encode s.cfg i) = .ok i) (ha : admission r s = none) (ho : r.opName = some o)
    (hb : s.view.balanced = true) (hu : s.life = .uninit → s.mode ≠ .held) (hr : s.life = .ready → s.wp = .deasserted ∧ s.mode ≠ .unknown) :
    ∃ lines buf, start r s = begin o lines buf s ∧ planOk s.cfg { s.view with got := false, len := buf.length } lines = true ∧
      (o = .init → Line.becomeReady ∈ lines) := by
  obtain ⟨hpg, hpage⟩ := Config.wf_facts hw
  obtain ⟨hp, hk, hok, hop⟩ := admit_none ha
  replace hop := hop o ho
  obtain ⟨cfg, life, mode, cs, wp, hold, pc, cur, idx, n, polls, todo, got, buf, result, program, port, env, link, trace⟩ := s
  simp only [State.view, View.balanced] at *
  generalize passageOf cfg trace = pass
  have hbool : ∀ b : Bool, b = true ∨ b = false := by decide
  cases r <;> simp only [Request.opName, Option.some.injEq, reduceCtorEq] at ho hop hok
  all_goals subst ho
  all_goals simp only [OpName.framedDriver, reduceCtorEq, false_and, true_and, false_or, or_false, ne_eq, not_true_eq_false, not_false_eq_true, false_implies, forall_const, and_true] at hop
  case init =>
    refine ⟨_, _, rfl, ?_, fun _ => by simp [initLines]⟩
    have hm := hu hop
    have hh : hold ≠ .asserted := by intro h; subst h; revert hb; cases mode <;> simp at hm ⊢
    rcases hbool cfg.srProt with h | h <;> cases mode <;> cases hold <;> simp_all [initLines, initProtectLines, planOk, frameLine, framePassage, View.balanced, writesBuffer, returnsByte]
  case erase a g =>
    cases g with
    | none => simp [Request.operandsOk] at hok
    | some g => refine ⟨_, _, rfl, ?_, by simp⟩; cases g <;> cases mode <;> cases hold <;> simp_all [eraseLines, planOk, frameLine, View.balanced, writesBuffer, returnsByte, eraseInstr]
  case storeRead off d =>
    refine ⟨_, _, rfl, ?_, by simp⟩
    rcases hbool cfg.sleep with h | h <;> cases mode <;> cases hold <;> simp_all [storeReadLines, holdRelease, storeWake, storeSleep, planOk, frameLine, framePassage, View.balanced, writesBuffer, Line.usesCursor]
  case storeWrite off d =>
    refine ⟨_, _, rfl, ?_, by simp⟩
    rcases Nat.lt_or_ge cfg.cap (off + d.length) with hlt | hlt <;>
    rcases hbool cfg.sleep with h | h <;> cases mode <;> cases hold <;> simp_all [storeWriteLines, holdRelease, storeWake, storeSleep, planOk, frameLine, framePassage, View.balanced, writesBuffer, Line.usesCursor]
  all_goals
    refine ⟨_, _, rfl, ?_, by simp⟩
    cases mode <;> cases hold <;> simp_all [readStatusLines, writeStatusLines, writeEnableLines, writeDisableLines, readLines, writeLines, deepSleepLines, wakeLines, holdLines, unholdLines, planOk, frameLine, framePassage, View.balanced, writesBuffer, returnsByte, Line.usesCursor]

end Sys2Proof.Machine
end

