-- ==== Sys2Proof/Tests/Slice0.lean ====
section
/-! SUPPORT. Tests. The expected values are those of 95_test_vectors.md and of opcode_table.json, written out by hand. After
them, for every obligation that has hypotheses, a concrete state and operands that meet them (`witness_<obligation>…`). -/

namespace Sys2Proof.Tests

open Sys2Proof.Machine

/-! ### Small states -/

/-- A script of outcomes and received bytes. -/
def script (outcomes : List Bool) (bytes : List Byte) : Env :=
  { Env.start with outcomes := outcomes, bytes := bytes }

/-- The next `n` events succeed. -/
def ok (n : Nat) (bytes : List Byte) : Env :=
  script (List.replicate n true) bytes

/-- The block after its construction. -/
def fresh (c : Config) (e : Env) : State :=
  { State.resetWith c with env := e }

/-- The Ready state of 95_test_vectors.md. -/
def ready (c : Config) (e : Env) : State :=
  { State.resetWith c with
    life := .ready, mode := .active, cs := .deasserted, wp := .deasserted, hold := .deasserted, env := e }

/-- The Ready state in mode Held. -/
def held (c : Config) (e : Env) : State :=
  { ready c e with mode := .held, hold := .asserted }

/-- A running operation with its lines to come. -/
def running (o : OpName) (lines : List Line) (s : State) : State :=
  { s with pc := .op o 0, todo := lines }

/-- The reference device of L3.1 with one entry of the array other than the blank byte. -/
def dev : Device where
  sector := 256
  erased := 0xFF
  arr := [(18, 0x44)]
  wel := false
  pl := 0b00
  wpen := false
  hi := 0b000
  wip := 0
  asleep := false
  window := []

/-- The Ready state with a reference device. -/
def withDev (d : Device) (e : Env) : State :=
  { ready Config.c0 e with link := .reference d }

/-- What a next state shows, `none` at a fault or a refusal. -/
def seen {α : Type} (f : State → α) : Host.Outcome State Fault Refusal → Option α
  | .next s => some (f s)
  | _ => none

/-- The reason of a refusal. -/
def refusal : Host.Outcome State Fault Refusal → Option Refusal
  | .refused r => some r
  | _ => none

/-- The device of a state. -/
def device (s : State) : Option Device :=
  match s.link with
  | .oracle => none
  | .reference d => some d

/-- C0 with deep-sleep support and the 5-byte identity frame (L3.4). -/
def c4 : Config :=
  { Config.c0 with sleep := true, id5 := true }

/-! ### Well-formedness: each check refuses an ill-formed term -/

theorem test_c0_is_well_formed : Config.c0.wf = true := by decide

theorem test_capacity_zero_is_ill_formed : Config.wf { Config.c0 with cap := 0 } = false := by decide

theorem test_capacity_2_24_is_ill_formed :
    Config.wf { Config.c0 with cap := 2 ^ 24 } = false ∧ Config.wf { Config.c0 with cap := 2 ^ 24 - 1 } = true := by decide

theorem test_page_48_is_ill_formed : Config.wf { Config.c0 with page := 48 } = false := by decide

theorem test_shared_opcode_is_ill_formed :
    Config.wf { Config.c0 with opc := { OpcodeMap.default with deepSleep := 0x06 } } = false := by decide

theorem test_poll_bound_zero_is_ill_formed : Config.wf { Config.c0 with poll := some 0 } = false := by decide

theorem test_wide_operands_are_refused :
    Request.operandsOk (.writeStatus 256) = false ∧ Request.operandsOk (.read (2 ^ 24) []) = false ∧
      Request.operandsOk (.write (2 ^ 24) []) = false ∧ Request.operandsOk (.erase (2 ^ 24) (some .page)) = false ∧
      Request.operandsOk (.encode (some .read) 0x1000000) = false ∧ Request.operandsOk (.srSetWpen 0 2) = false := by decide

theorem test_operands_outside_their_set_are_refused :
    Request.operandsOk (.erase 0 none) = false ∧ Request.operandsOk (.encode none 0) = false ∧
      Request.operandsOk (.srSetPl 0 none) = false ∧ Request.known (.unknown "FORMAT") = false := by decide

/-! ### Decoding: words and frames written out from the encodings of 30_encoding.md -/

theorem test_decode_read : decodeTableWord 32 0b00000011000000010010001101000101 = some (.read 0x012345 []) := by decide
theorem test_decode_write : decodeTableWord 32 0b00000010000000000000000000001010 = some (.write 0x00000A []) := by decide
theorem test_decode_wren : decodeTableWord 8 0b00000110 = some .wren := by decide
theorem test_decode_wrdi : decodeTableWord 8 0b00000100 = some .wrdi := by decide
theorem test_decode_rdsr : decodeTableWord 16 0b0000010100000000 = some .rdsr := by decide
theorem test_decode_wrsr : decodeTableWord 16 0b0000000110001000 = some (.wrsr 0x88) := by decide
theorem test_decode_pe : decodeTableWord 32 0b01000010000000000000000001000000 = some (.pe 0x000040) := by decide
theorem test_decode_se : decodeTableWord 32 0b11011000000000010010001101000101 = some (.se 0x012345) := by decide
theorem test_decode_ce : decodeTableWord 32 0b11000111000000000000000000000000 = some (.ce 0) := by decide
theorem test_decode_rpd : decodeTableWord 32 0b10101011000000000000000000000000 = some .rpd := by decide
theorem test_decode_dpd : decodeTableWord 8 0b10111001 = some .dpd := by decide

theorem test_decode_frames_with_data :
    (decode Config.c0 [0x03, 0x00, 0x00, 0x10, 0xAA, 0xBB]).toOption = some (.read 0x000010 [0xAA, 0xBB]) ∧
      (decode Config.c0 [0x02, 0x00, 0x00, 0x0A, 0xAA]).toOption = some (.write 0x00000A [0xAA]) := by decide

theorem test_decode_five_byte_identity :
    (decode c4 [0xAB, 0, 0, 0, 0]).toOption = some .rpd ∧ (decode c4 [0xAB, 0, 0, 0]).toOption = none ∧
      (decode Config.c0 [0xAB, 0, 0, 0, 0]).toOption = none := by decide

theorem test_decode_rejects :
    (decode Config.c0 []).toOption = none ∧ (decode Config.c0 [0x00]).toOption = none ∧
      (decode Config.c0 [0x06, 0x00]).toOption = none ∧ (decode Config.c0 [0x05, 0x01]).toOption = none ∧
      (decode Config.c0 [0x01]).toOption = none ∧ (decode Config.c0 [0xD8, 0x01, 0x23]).toOption = none ∧
      (decode Config.c0 [0x02, 0x00, 0x00]).toOption = none := by decide

/-! ### L2.1 to L2.3: the encoder and the codec -/

theorem test_encode_words :
    commandWord OpcodeMap.default .read 0 = 0x03000000 ∧ commandWord OpcodeMap.default .read 0xFFFFFF = 0x03FFFFFF ∧
      commandWord OpcodeMap.default .sectorErase 0x012345 = 0xD8012345 ∧
      commandWord OpcodeMap.default .writeEnable 0x123456 = 0x06123456 ∧
      be32 (commandWord OpcodeMap.default .read 0x123456) = [0x03, 0x12, 0x34, 0x56] := by decide

theorem test_status_decoder :
    [0x00, 0x01, 0x02, 0x04, 0x08, 0x0C, 0x70, 0x80, 0x8B, 0x8D, 0xFF].map
        (fun b : Byte => (srBusy b, srWel b, srPl b, srWpen b)) =
      [(false, false, .none, false), (true, false, .none, false), (false, true, .none, false),
        (false, false, .quarter, false), (false, false, .half, false), (false, false, .all, false),
        (false, false, .none, false), (false, false, .none, true), (true, true, .half, true), (true, false, .all, true),
        (true, true, .all, true)] := by decide

theorem test_status_encoder :
    srSetPl 0x00 .quarter = 0x04 ∧ srSetPl 0x8D .none = 0x81 ∧ srSetPl 0x70 .half = 0x78 ∧ srSetPl 0xFF .none = 0xF3 ∧
      srSetPl 0xFF .quarter = 0xF7 ∧ srSetPl 0x0C .all = 0x0C ∧ srSetWpen 0x0C true = 0x8C ∧ srSetWpen 0xFF false = 0x7F ∧
      srSetWpen 0x80 true = 0x80 ∧ srSetWpen 0x73 true = 0xF3 := by decide

theorem test_init_status_default_and_override :
    initStatus Config.c0 0x8C = 0x80 ∧ initStatus { Config.c0 with initSr := [(0x8C, 0x8F)] } 0x8C = 0x8F := by decide

theorem test_result_codes :
    [Result.ok .unit, .err .transportError, .err .signalError, .err .deviceBusy, .err .wrongIdentity, .err .outOfRange,
      .err .writeTimeout].map resultCode = [0, 1, 2, 3, 4, 5, 6] := by decide

/-! ### L2.4: one frame of each instruction -/

theorem test_wren_frame :
    seen State.trace (exec .wren (ready Config.c0 (ok 3 []))) = some (bracket [.write [0x06] true]) := by decide

theorem test_wrdi_frame :
    seen State.trace (exec .wrdi (ready Config.c0 (ok 3 []))) = some (bracket [.write [0x04] true]) := by decide

theorem test_dpd_frame :
    seen (fun s => (s.trace, s.mode)) (exec .dpd (ready Config.c0 (ok 3 []))) =
      some (bracket [.write [0xB9] true], .active) := by decide

theorem test_rdsr_frame :
    seen (fun s => (s.trace, s.got)) (exec .rdsr (ready Config.c0 (ok 3 [0xFF, 0x03]))) =
      some (bracket [.xfer [0x05, 0x00] (some [0xFF, 0x03])], some 0x03) := by decide

theorem test_wrsr_frame :
    seen State.trace (exec (.wrsr 0x80) (ready Config.c0 (ok 3 []))) = some (bracket [.write [0x01, 0x80] true]) := by decide

theorem test_read_frame :
    seen (fun s => (s.trace, s.buf))
        (exec (.read 0x000010 [0xAA, 0xBB]) { ready Config.c0 (ok 4 [0xD0, 0xD1]) with buf := [0xAA, 0xBB] }) =
      some (bracket [.write [0x03, 0x00, 0x00, 0x10] true, .xfer [0xAA, 0xBB] (some [0xD0, 0xD1])], [0xD0, 0xD1]) := by decide

theorem test_read_frame_without_data :
    seen State.trace (exec (.read 0x000010 []) (ready Config.c0 (ok 4 []))) =
      some (bracket [.write [0x03, 0x00, 0x00, 0x10] true, .xfer [] (some [])]) := by decide

theorem test_write_frame :
    seen State.trace (exec (.write 0x00000A [0xAA]) (ready Config.c0 (ok 4 []))) =
      some (bracket [.write [0x02, 0x00, 0x00, 0x0A] true, .write [0xAA] true]) := by decide

theorem test_page_erase_frame :
    seen State.trace (exec (.pe 0x000040) (ready Config.c0 (ok 3 []))) =
      some (bracket [.write [0x42, 0x00, 0x00, 0x40] true]) := by decide

theorem test_sector_erase_frame_is_not_masked :
    seen State.trace (exec (.se 0x012345) (ready Config.c0 (ok 3 []))) =
      some (bracket [.write [0xD8, 0x01, 0x23, 0x45] true]) := by decide

theorem test_chip_erase_frame_sends_its_address :
    seen State.trace (exec (.ce 0x000000) (ready Config.c0 (ok 3 []))) =
      some (bracket [.write [0xC7, 0x00, 0x00, 0x00] true]) := by decide

theorem test_identity_frame_of_four :
    seen (fun s => (s.trace, s.got)) (exec .rpd (ready Config.c0 (ok 3 [1, 2, 3, 0x29]))) =
      some (bracket [.xfer [0xAB, 0, 0, 0] (some [1, 2, 3, 0x29])], some 0x29) := by decide

theorem test_identity_frame_of_five :
    seen (fun s => (s.trace, s.got)) (exec .rpd (ready c4 (ok 3 [1, 2, 3, 4, 0x29]))) =
      some (bracket [.xfer [0xAB, 0, 0, 0, 0] (some [1, 2, 3, 4, 0x29])], some 0x29) := by decide

/-! ### L2.4: failures inside a frame -/

theorem test_select_fails :
    seen (fun s => (s.trace, s.result, s.cs)) (exec .wren (ready Config.c0 (script [false] []))) =
      some ([.sig .cs .asserted false], some (.err .signalError), .deasserted) := by decide

theorem test_call_fails_and_select_stays :
    seen (fun s => (s.trace, s.result, s.cs)) (exec .wren (ready Config.c0 (script [true, false] []))) =
      some ([.sig .cs .asserted true, .write [0x06] false], some (.err .transportError), .asserted) := by decide

theorem test_call_fails_and_select_is_released :
    seen (fun s => (s.trace, s.result, s.cs))
        (exec .wren (ready { Config.c0 with csErr := true } (script [true, false, true] []))) =
      some ([.sig .cs .asserted true, .write [0x06] false, .sig .cs .deasserted true], some (.err .transportError),
        .deasserted) := by decide

theorem test_release_fails_too :
    seen (fun s => (s.trace, s.result, s.cs))
        (exec .wren (ready { Config.c0 with csErr := true } (script [true, false, false] []))) =
      some ([.sig .cs .asserted true, .write [0x06] false, .sig .cs .deasserted false], some (.err .transportError),
        .asserted) := by decide

theorem test_closing_event_fails :
    seen (fun s => (s.trace, s.result, s.cs, s.got)) (exec .rdsr (ready Config.c0 (script [true, true, false] [0xFF, 0x01]))) =
      some ([.sig .cs .asserted true, .xfer [0x05, 0x00] (some [0xFF, 0x01]), .sig .cs .deasserted false],
        some (.err .signalError), .asserted, none) := by decide

/-! ### L2.5 to L2.7: requests and the lines they start -/

theorem test_init_first_event_fails :
    seen (fun s => (s.trace, s.result, s.life, s.cs)) (step (running .init (initLines Config.c0) (fresh Config.c0 (script [false] [])))) =
      some ([.sig .cs .deasserted false], some (.err .signalError), .dead, .unknown) := by decide

theorem test_init_lines :
    initLines Config.c0 =
      [.sig .cs .deasserted, .sig .hold .deasserted, .sig .wp .deasserted, .frame [0xAB, 0, 0, 0], .setMode .active,
        .checkIdentity, .sig .hold .deasserted, .becomeReady, .ret .unit] := by decide

theorem test_wrong_identity :
    seen (fun s => (s.trace, s.result, s.life, s.mode))
        (step { running .init (.checkIdentity :: .sig .hold .deasserted :: [.becomeReady, .ret .unit])
          (fresh { Config.c0 with srProt := true } (ok 0 [])) with got := some 0x1F, mode := .active }) =
      some ([], some (.err .wrongIdentity), .dead, .active) := by decide

theorem test_init_writes_the_unlocked_status :
    seen State.todo (step { running .init [.writeInitStatus, .ret .unit] (fresh Config.c0 (ok 0 [])) with got := some 0x8C }) =
      some [.frame [0x01, 0x80], .ret .unit] := by decide

theorem test_refusals_by_life :
    refusal (accept .init (ready Config.c0 (ok 0 []))) = some .alreadyInitialised ∧
      refusal (accept .init { ready Config.c0 (ok 0 []) with life := .dead }) = some .alreadyInitialised ∧
      refusal (accept .readStatus (fresh Config.c0 (ok 0 []))) = some .notReady ∧
      refusal (accept .readStatus { ready Config.c0 (ok 0 []) with life := .dead }) = some .notReady := by decide

theorem test_refusals_by_mode_and_variant :
    refusal (accept .deepSleep (ready Config.c0 (ok 0 []))) = some .noDeepSleep ∧
      refusal (accept .hold (ready { Config.c0 with hold := false } (ok 0 []))) = some .noHold ∧
      refusal (accept .hold (held Config.c0 (ok 0 []))) = some .holdNotActive ∧
      refusal (accept .hold { ready Config.c0 (ok 0 []) with mode := .deepSleep }) = some .holdNotActive ∧
      refusal (accept .readStatus (held Config.c0 (ok 0 []))) = some .heldTransaction ∧
      refusal (accept .wake (held Config.c0 (ok 0 []))) = some .heldTransaction ∧
      refusal (accept (.encode (some .read) 0x1000000) (fresh Config.c0 (ok 0 []))) = some .badOperand := by decide

theorem test_combinational_when_dead :
    seen State.result (accept (.srPl 0x04) { ready Config.c0 (ok 0 []) with life := .dead }) =
      some (some (.ok (.level .quarter))) := by decide

theorem test_read_past_the_capacity_is_sent :
    seen State.todo (accept (.read 0xFFFFF0 [0]) (ready Config.c0 (ok 0 []))) =
      some [.frame [0x03, 0xFF, 0xFF, 0xF0, 0x00], .retBuffer] := by decide

theorem test_erase_precheck_tests_bit_zero_only :
    seen (fun s => (s.result, s.todo)) (step { running .erase [.checkBusy, .ret .unit] (ready Config.c0 (ok 0 [])) with got := some 0xFE }) =
        some (none, [.ret .unit]) ∧
      seen (fun s => (s.result, s.todo)) (step { running .erase [.checkBusy, .ret .unit] (ready Config.c0 (ok 0 [])) with got := some 0x01 }) =
        some (some (.err .deviceBusy), []) := by decide

theorem test_store_read_lines_with_sleep :
    storeReadLines c4 0 [0x00] =
      [.checkRange 0 1, .sig .hold .deasserted, .leaveHeld, .frame [0xAB, 0, 0, 0, 0], .setMode .active,
        .frame [0x03, 0, 0, 0, 0x00], .frame [0xB9], .setMode .deepSleep, .sig .hold .deasserted, .leaveHeld, .retBuffer] := by
  decide

theorem test_bursts_of_the_source_example : bursts 16 20 10 20 = [(10, 6), (16, 14)] := by decide

theorem test_burst_tables :
    bursts 16 16 0 16 = [(0, 16)] ∧ bursts 16 17 0 17 = [(0, 16), (16, 1)] ∧ bursts 16 2 15 2 = [(15, 1), (16, 1)] ∧
      bursts 16 33 0 33 = [(0, 16), (16, 16), (32, 1)] ∧ bursts 16 1 5 1 = [(5, 1)] ∧
      bursts 256 300 250 300 = [(250, 6), (256, 256), (512, 38)] ∧ bursts 32 24 1000 24 = [(1000, 24)] ∧
      bursts 16 0 10 0 = [] := by decide

theorem test_bound_check :
    inRange Config.c0 1020 4 = true ∧ inRange Config.c0 1020 5 = false ∧ inRange Config.c0 1024 0 = true ∧
      inRange Config.c0 1025 0 = false ∧ inRange Config.c0 0 1025 = false := by decide

theorem test_burst_frame :
    seen State.todo (step { running .storeWrite [.writeBurst] (ready Config.c0 (ok 0 [])) with buf := [1, 2, 3], cur := 16, idx := 1, n := 2 }) =
      some [.frame [0x02, 0x00, 0x00, 0x10, 2, 3]] := by decide

theorem test_busy_wait_bound :
    seen (fun s => (s.result, s.todo)) (step { running .storeWrite [.testPoll, .ret .unit] (ready { Config.c0 with poll := some 2 } (ok 0 [])) with
        got := some 0x03, polls := 1 }) = some (some (.err .writeTimeout), []) ∧
      seen (fun s => (s.result, s.todo)) (step { running .storeWrite [.testPoll, .ret .unit] (ready { Config.c0 with poll := some 3 } (ok 0 [])) with
        got := some 0x02, polls := 2 }) = some (none, [.ret .unit]) := by decide

/-! ### L3: the reference device -/

theorem test_device_write_wraps_in_its_page :
    seen (fun s => (Memory.read s.memory 0x1E, Memory.read s.memory 0x1F, Memory.read s.memory 0x10, Memory.read s.memory 0x12))
        (exec (.write 0x00001E [1, 2, 3]) (withDev { dev with wel := true } { ok 4 [] with cycles := [1] })) =
      some (1, 2, 3, 0x44) := by decide

theorem test_device_refuses_a_write_without_its_latch :
    seen (fun s => s.memory) (exec (.write 0x00001E [1, 2, 3]) (withDev dev (ok 4 []))) = some [(18, 0x44)] := by decide

theorem test_device_page_erase :
    seen (fun s => (s.memory, (device s).map (·.wip))) (exec (.pe 0x000010) (withDev { dev with wel := true } { ok 3 [] with cycles := [1] })) =
      some ([], some 1) := by decide

theorem test_device_status_read_ends_the_cycle :
    seen (fun s => (s.got, (device s).map (·.wip), (device s).map (·.wel)))
        (exec .rdsr (withDev { dev with wel := true, wip := 1 } (ok 3 [0x77]))) =
      some (some 0x03, some 0, some false) := by decide

theorem test_device_status_write_under_protection :
    seen (fun s => (device s).map (fun d => (d.pl, d.wpen)))
        (exec (.wrsr 0x88) (withDev { dev with wel := true } { ok 3 [] with cycles := [1] })) = some (some (0b10, true)) ∧
      seen (fun s => s.memory)
        (exec (.write 600 [0x55]) (withDev { dev with wel := true, wpen := true, pl := 0b10 } (ok 4 []))) =
        some [(18, 0x44)] := by decide

theorem test_device_reads_across_a_page :
    seen State.buf (exec (.read 15 [0, 0, 0, 0]) { withDev dev (ok 4 []) with buf := [0, 0, 0, 0] }) =
      some [0xFF, 0xFF, 0xFF, 0x44] := by decide

theorem test_device_identity_and_sleep :
    seen (fun s => (s.got, (device s).map (·.asleep))) (exec .rpd (withDev { dev with asleep := true } (ok 3 [1, 2, 3]))) =
        some (some 0x29, some false) ∧
      seen (fun s => (device s).map (·.asleep)) (exec .dpd (withDev dev (ok 3 []))) = some (some true) := by decide

theorem test_memory_keeps_its_form :
    Memory.write [(18, 0x44)] 18 0xFF = [] ∧ Memory.write [(18, 0x44)] 3 0x01 = [(3, 0x01), (18, 0x44)] ∧
      Memory.wf (Memory.writeAll [] [(9, 1), (4, 2), (9, 3)]) = true := by decide

/-! ### A word placed from outside is the next thing that runs -/

theorem test_fetch_word_runs_first :
    seen State.trace (step (State.withFetchWord (fresh Config.c0 (ok 3 [])) 8 0x06)) = some (bracket [.write [0x06] true]) := by
  decide

theorem test_fetch_word_runs_after_reset : ∃ t, step (State.reset.withFetchWord 32 0xD8012345) = .next t :=
  ⟨_, rfl⟩

/-! ### Witnesses: concrete states and operands that meet the hypotheses of each obligation -/

theorem witness_CombinationalRequestsAnswerAnywhere :
    (fresh Config.c0 (ok 0 [])).pc = .idle ∧ (255 : Nat) < 2 ^ 8 ∧ (1 : Nat) < 2 ∧ (2 ^ 24 - 1 : Nat) < 2 ^ 24 ∧
      (running .wake [] (ready Config.c0 (ok 0 []))).pc ≠ .idle := by decide

theorem witness_DecodeOfEncodeIsTheInstruction : Config.c0.opc.injective = true ∧ c4.opc.injective = true := by decide

theorem witness_EncodeOfDecodeIsTheFrame :
    decode Config.c0 [0x03, 0xFF, 0xFF, 0xFF, 0xAA] = .ok (.read 0xFFFFFF [0xAA]) ∧
      decode c4 [0xAB, 0, 0, 0, 0] = .ok .rpd := ⟨rfl, rfl⟩

theorem witness_HeaderIsBigEndian :
    Instr.ce 0xFFFFFF ∈ [Instr.read 0xFFFFFF [], Instr.write 0xFFFFFF [], .pe 0xFFFFFF, .se 0xFFFFFF, .ce 0xFFFFFF] := by
  decide

theorem witness_NoFrameBeginsWithAnotherByte : ∀ i, Config.c0.opc.get i ≠ 0x07 := by
  intro i
  cases i <;> decide

theorem witness_SendingFramesComplete :
    (ready Config.c0 (ok 3 [0, 0, 0, 0])).mode ≠ .held ∧ Env.okNext 3 (ready Config.c0 (ok 3 [0, 0, 0, 0])).env = true ∧
      (fresh c4 (ok 3 [])).mode ≠ .held ∧ Env.okNext 3 (fresh c4 (ok 3 [])).env = true := by decide

theorem witness_StatusReadFrameCompletes :
    (ready Config.c0 (ok 3 [0, 0, 0, 0])).mode ≠ .held ∧ Env.okNext 3 (ready Config.c0 (ok 3 [0, 0, 0, 0])).env = true ∧
      (fresh c4 (ok 3 [])).mode ≠ .held ∧ Env.okNext 3 (fresh c4 (ok 3 [])).env = true := by decide

theorem witness_IdentityFrameCompletes :
    (ready Config.c0 (ok 3 [0, 0, 0, 0])).mode ≠ .held ∧ Env.okNext 3 (ready Config.c0 (ok 3 [0, 0, 0, 0])).env = true ∧
      (fresh c4 (ok 3 [])).mode ≠ .held ∧ Env.okNext 3 (fresh c4 (ok 3 [])).env = true := by decide

theorem witness_ReadFrameCompletes :
    (ready Config.c0 (ok 4 [])).mode ≠ .held ∧ Env.okNext 4 (ready Config.c0 (ok 4 [])).env = true ∧
      Env.failsAfter 2 (ready Config.c0 (script [true, true, false] [])).env ∧
      Env.failsAfter 3 (ready Config.c0 (script [true, true, true, false] [])).env := by
  refine ⟨by decide, by decide, ⟨by decide, by decide⟩, ⟨by decide, by decide⟩⟩

theorem witness_WriteFrameCompletes :
    (ready Config.c0 (ok 4 [])).mode ≠ .held ∧ Env.okNext 4 (ready Config.c0 (ok 4 [])).env = true := by decide

theorem witness_NoFrameWhileHeld :
    (held Config.c0 (ok 0 [])).mode = .held ∧ (ready Config.c0 (ok 0 [])).mode ≠ .held ∧
      (held Config.c0 (ok 0 [])).pc = .idle ∧ (held Config.c0 (ok 0 [])).life = .ready ∧
      Request.opName .wake = some .wake ∧ OpName.wake ≠ .init ∧ Request.operandsOk .wake = true ∧
      OpName.framedDriver .wake = true := by decide

theorem witness_FailureInsideFrame :
    (ready Config.c0 (ok 0 [])).mode ≠ .held ∧ Env.failsAfter 0 (script [false] []) ∧
      (1 ≤ 1 ∧ 1 ≤ callCount .wren ∧ Env.failsAfter 1 (script [true, false, true] [])) ∧
      (1 ≤ 2 ∧ 2 ≤ callCount (.read 0 [0]) ∧ Env.failsAfter 2 (script [true, true, false, false] [])) ∧
      Env.failsAfter (callCount (.write 0 []) + 1) (script [true, true, true, false] []) ∧
      Config.c0.csErr = false ∧ Config.csErr { Config.c0 with csErr := true } = true := by
  refine ⟨by decide, ⟨by decide, by decide⟩, ⟨by decide, by decide, by decide, by decide⟩,
    ⟨by decide, by decide, by decide, by decide⟩, ⟨by decide, by decide⟩, by decide, by decide⟩

theorem witness_InstructionRegisterFrame :
    (∃ t, exec (.read 5 [1, 2]) (ready Config.c0 (ok 4 [7, 8])) = .next t ∧ t.result = none) ∧
      (∃ t, exec .wren (ready Config.c0 (script [true, false] [])) = .next t ∧ t.result = some (.err .transportError)) :=
  ⟨⟨_, rfl, by decide⟩, ⟨_, rfl, by decide⟩⟩

theorem witness_InstructionArrayFrame :
    ∃ t, exec (.write 0x1E [1, 2, 3]) (withDev { dev with wel := true } { ok 4 [] with cycles := [1] }) = .next t ∧
      (withDev { dev with wel := true } { ok 4 [] with cycles := [1] }).mode ≠ .held ∧
      Env.okNext (callCount (.write 0x1E [1, 2, 3]) + 2) { ok 4 [] with cycles := [1] } = true ∧
      (withDev { dev with wel := true } { ok 4 [] with cycles := [1] }).link = .reference { dev with wel := true } ∧
      Memory.wf dev.arr = true ∧ (withDev dev (ok 4 [])).cs ≠ .asserted ∧ Config.c0.opc.injective = true ∧
      Opcode.read ∉ [Opcode.write, .pageErase, .sectorErase, .chipErase] ∧
      (∀ k, k < [(1 : Byte), 2, 3].length → burstTarget Config.c0.page 0x1E k ≠ 0x12) ∧
      Instr.se 700 ∈ [Instr.pe 700, .se 700, .ce 700] ∧ eraseExtent Config.c0 256 .sectorErase 700 = (512, 256) ∧
      ¬ (512 ≤ 511 ∧ 511 < 512 + 256) ∧ ¬ (512 ≤ 768 ∧ 768 < 512 + 256) :=
  ⟨_, rfl, by decide⟩

theorem witness_DeviceHearsTheEncodedFrame :
    ∃ t, exec .rpd (withDev dev (ok 3 [1, 2, 3])) = .next t ∧ (withDev dev (ok 3 [1, 2, 3])).mode ≠ .held ∧
      (withDev dev (ok 3 [1, 2, 3])).cs ≠ .asserted ∧ (withDev dev (ok 3 [1, 2, 3])).link = .reference dev ∧
      Env.okNext (callCount .rpd + 2) (ok 3 [1, 2, 3]) = true :=
  ⟨_, rfl, by decide⟩

theorem witness_StatusReadCountsTheCycleDown :
    Config.c0.opc.injective = true ∧ Device.asleep { dev with wip := 1, wel := true } = false ∧
      Device.asleep { dev with wip := 0 } = false ∧
      Device.deselect Config.c0 .deasserted { dev with wip := 1, wel := true, window := encode Config.c0 .rdsr } Env.start =
        (dev, Env.start) := by decide

theorem witness_SleepingOrBusyDeviceIgnores :
    Config.c0.opc.injective = true ∧ (Device.asleep { dev with asleep := true } = true ∧ Instr.wren ≠ .rpd) ∧
      (0 < Device.wip { dev with wip := 1 } ∧ Instr.rpd ≠ .rdsr) := by decide

theorem witness_LatchAndSleepCommands : Config.c0.opc.injective = true ∧ dev.wip = 0 ∧ dev.asleep = false := by decide

theorem witness_StatusWriteAcceptance :
    Config.c0.opc.injective = true ∧ dev.asleep = false ∧ dev.wip = 0 ∧
      (Device.wel { dev with wel := true } = true ∧ (dev.wpen = false ∨ Pin.asserted = .deasserted)) ∧
      ¬ (Device.wel { dev with wel := true, wpen := true } = true ∧
        (Device.wpen { dev with wpen := true } = false ∨ Pin.asserted = .deasserted)) := by decide

theorem witness_WriteBurstLandsInItsPage :
    Config.c0.opc.injective = true ∧ 0 < Config.c0.page ∧ Memory.wf dev.arr = true ∧ dev.asleep = false ∧ dev.wip = 0 ∧
      (Device.wel { dev with wel := true } = true ∧ (0x3FF : Addr).toNat < Config.c0.cap ∧ [(1 : Byte), 2] ≠ [] ∧
        ∀ k, k < [(1 : Byte), 2].length → burstTarget Config.c0.page (0x3FF : Addr).toNat k < Config.c0.cap ∧
          Device.protects Config.c0 { dev with wel := true } (burstTarget Config.c0.page (0x3FF : Addr).toNat k) = false) ∧
      ¬ ((0x400 : Addr).toNat < Config.c0.cap) := by decide

theorem witness_EraseClearsItsExtent :
    Config.c0.opc.injective = true ∧ Memory.wf dev.arr = true ∧ dev.asleep = false ∧ dev.wip = 0 ∧
      Instr.pe 0x12 ∈ [Instr.pe 0x12, .se 0x12, .ce 0x12] ∧
      eraseExtent Config.c0 dev.sector (Instr.pe 0x12).opcode (0x12 : Addr).toNat = (16, 16) ∧
      (Device.wel { dev with wel := true } = true ∧ (0x12 : Addr).toNat < Config.c0.cap ∧
        ¬ (Instr.pe 0x12 = .ce 0x12 ∧ dev.wpen = true ∧ levelOf dev.pl ≠ .none)) ∧ dev.wel = false := by decide

/-- Without WPEN no address is protected, so the extent clause of the erase statement is met. -/
theorem witness_EraseClearsItsExtent_unprotected :
    ∀ x, 16 ≤ x → x < 16 + 16 → Device.protects Config.c0 { dev with wel := true } x = false := by
  intro x _ _
  rfl

theorem witness_ReadAnswersConsecutiveBytes :
    Config.c0.opc.injective = true ∧ dev.asleep = false ∧ dev.wip = 0 ∧ 1 ≤ [(0 : Byte)].length ∧ (3 : Nat) < 4 ∧
      (0x3FF : Addr).toNat + 0 < Config.c0.cap ∧ ¬ ((0x3FF : Addr).toNat + 1 < Config.c0.cap) := by decide

theorem witness_AdmissionFollowsTheTable :
    (running .wake [] (ready Config.c0 (ok 0 []))).pc ≠ .idle ∧ (ready Config.c0 (ok 0 [])).pc = .idle ∧
      Request.known (.writeStatus 256) = true ∧ Request.operandsOk (.writeStatus 256) = false ∧
      Request.opName (.srBusy 0) = none ∧ (fresh Config.c0 (ok 0 [])).life = .uninit ∧
      (ready Config.c0 (ok 0 [])).life ≠ .uninit ∧ (fresh Config.c0 (ok 0 [])).life ≠ .ready ∧
      Request.opName .deepSleep = some .deepSleep ∧ OpName.deepSleep ≠ .init ∧ (ready Config.c0 (ok 0 [])).mode ≠ .held ∧
      Config.c0.sleep = false ∧ c4.sleep = true ∧ Config.hold { Config.c0 with hold := false } = false ∧
      Config.c0.hold = true ∧ (held Config.c0 (ok 0 [])).mode ≠ .active ∧ Request.opName .hold = some .hold := by decide

theorem witness_ResetMeetsTheInvariant : Config.c0.wf = true ∧ c4.wf = true := by decide

theorem reset_inv : Inv State.reset :=
  ⟨by decide, trivial, ⟨rfl, rfl, by decide, by decide⟩, by decide⟩

/-- A state in the middle of a READ_STATUS meets the invariant. -/
theorem witness_Inv_running :
    Inv (running .readStatus (readStatusLines Config.c0) (ready Config.c0 (ok 3 [0, 3]))) :=
  ⟨by decide, trivial, ⟨by decide, rfl, by rw [if_neg (by decide)]; rfl⟩, fun _ => ⟨rfl, by decide⟩⟩

/-- A state in the middle of an INIT, about to become Ready, meets the invariant. -/
theorem witness_Inv_init :
    Inv (running .init [.becomeReady, .ret .unit]
      { fresh Config.c0 (ok 0 []) with mode := .active, cs := .deasserted, wp := .deasserted, hold := .deasserted }) :=
  ⟨by decide, trivial, ⟨by decide, rfl, .inl ⟨rfl, by decide⟩⟩, by decide⟩

/-- A state about to move its mode, right after the events `ev`. -/
def moving (o : OpName) (l : Line) (ev : List Event) (s : State) : State :=
  { running o [l, .ret .unit] s with trace := ev }

/-- A HOLD after its signal. -/
def atHold : State :=
  moving .hold (.setMode .held) [.sig .hold .asserted true] { ready Config.c0 (ok 0 []) with hold := .asserted }

/-- An UNHOLD after its signal. -/
def atUnhold : State :=
  moving .unhold .leaveHeld [.sig .hold .deasserted true] { ready Config.c0 (ok 0 []) with mode := .held }

/-- A DEEP_SLEEP after its frame. -/
def atSleep : State :=
  moving .deepSleep (.setMode .deepSleep) (bracket [.write [0xB9] true]) (ready c4 (ok 0 []))

/-- A WAKE after its frame. -/
def atWake : State :=
  moving .wake (.setMode .active) (bracket [.xfer [0xAB, 0, 0, 0] (some [1, 2, 3, 0x29])])
    { ready Config.c0 (ok 0 []) with mode := .deepSleep }

/-- The states about to move their mode meet the invariant. -/
theorem witness_Inv_moving : Inv atHold ∧ Inv atUnhold ∧ Inv atSleep ∧ Inv atWake :=
  ⟨⟨by decide, trivial, ⟨by decide, rfl, by rw [if_neg (by decide)]; rfl⟩, fun _ => ⟨rfl, by decide⟩⟩,
    ⟨by decide, trivial, ⟨by decide, rfl, by rw [if_neg (by decide)]; rfl⟩, fun _ => ⟨rfl, by decide⟩⟩,
    ⟨by decide, trivial, ⟨by decide, rfl, by rw [if_neg (by decide)]; rfl⟩, fun _ => ⟨rfl, by decide⟩⟩,
    ⟨by decide, trivial, ⟨by decide, rfl, by rw [if_neg (by decide)]; rfl⟩, fun _ => ⟨rfl, by decide⟩⟩⟩

/-- The same states without their event or frame do not meet the invariant. -/
theorem test_no_move_without_its_event :
    planOk Config.c0 (State.view { atHold with trace := [] }) atHold.todo = false ∧
      planOk Config.c0 (State.view { atUnhold with trace := [] }) atUnhold.todo = false ∧
      planOk c4 (State.view { atSleep with trace := [.sig .cs .asserted true, .write [0xB9] false] }) atSleep.todo = false ∧
      planOk Config.c0 (State.view { atWake with trace := bracket [.write [0xAB, 0, 0, 0] true] }) atWake.todo = false := by
  decide

/-- A Dead block meets the invariant. -/
theorem witness_Inv_dead : Inv { fresh Config.c0 (ok 0 []) with life := .dead, mode := .active } :=
  ⟨by decide, trivial, ⟨rfl, rfl, by decide, by decide⟩, by decide⟩

/-- A storage write about to send a burst meets the invariant. -/
theorem witness_Inv_burst :
    Inv { running .storeWrite [.writeBurst, .ret .unit] (ready Config.c0 (ok 0 [])) with
      buf := [1, 2, 3], cur := 1023, idx := 2, n := 1 } :=
  ⟨by decide, trivial, ⟨by decide, rfl, by rw [if_neg (by decide)]; rfl⟩, fun _ => ⟨rfl, by decide⟩⟩

theorem witness_EveryStepKeepsTheInvariant :
    Inv (running .readStatus (readStatusLines Config.c0) (ready Config.c0 (ok 3 [0, 3]))) ∧
      ∃ t, step (running .readStatus (readStatusLines Config.c0) (ready Config.c0 (ok 3 [0, 3]))) = .next t ∧
        t.got = some 3 :=
  ⟨witness_Inv_running, _, rfl, by decide⟩

theorem witness_RunningOperationNeverStops :
    Inv (running .readStatus (readStatusLines Config.c0) (ready Config.c0 (ok 3 [0, 3]))) ∧
      (running .readStatus (readStatusLines Config.c0) (ready Config.c0 (ok 3 [0, 3]))).pc ≠ .idle ∧
      (running .readStatus (readStatusLines Config.c0) (ready Config.c0 (ok 3 [0, 3]))).port = none :=
  ⟨witness_Inv_running, by decide, rfl⟩

theorem witness_StepRunsTheDecodedInstruction :
    Config.c0.wf = true ∧ (running .readStatus (readStatusLines Config.c0) (ready Config.c0 (ok 3 []))).port = none ∧
      (running .readStatus (readStatusLines Config.c0) (ready Config.c0 (ok 3 []))).todo = .frame [0x05, 0x00] :: [.retByte] ∧
      decode Config.c0 [0x05, 0x00] = .ok .rdsr ∧ decode Config.c0 (tableFrame Config.c0 32 0xAB000000) = .ok .rpd :=
  ⟨by decide, rfl, by decide, rfl, rfl⟩

theorem witness_ConfigurationNeverChanges :
    ∃ t, step (running .readStatus (readStatusLines Config.c0) (ready Config.c0 (ok 3 [0, 3]))) = .next t ∧
      t.pc = .op .readStatus 3 ∧ t.trace.length = 3 :=
  ⟨_, rfl, by decide⟩

theorem witness_PhaseCountsEvents :
    ∃ t, step (running .readStatus (readStatusLines Config.c0) (ready Config.c0 (ok 3 [0, 3]))) = .next t ∧
      t.pc = .op .readStatus 3 ∧ t.trace.length = 3 :=
  ⟨_, rfl, by decide⟩

theorem witness_FramesAreAtomic :
    ∃ t, step (running .readStatus (readStatusLines Config.c0) (ready Config.c0 (ok 3 [0, 3]))) = .next t ∧
      t.pc = .op .readStatus 3 ∧ t.trace.length = 3 :=
  ⟨_, rfl, by decide⟩

theorem witness_BadConfigurationRefused :
    Config.cap { Config.c0 with cap := 0 } = 0 ∧ 2 ^ 24 ≤ Config.cap { Config.c0 with cap := 2 ^ 24 } ∧
      Config.page { Config.c0 with page := 48 } ∉ [16, 32, 64, 128, 256] ∧
      Opcode.read ≠ .write ∧ OpcodeMap.get { OpcodeMap.default with read := 0x02 } .read =
        OpcodeMap.get { OpcodeMap.default with read := 0x02 } .write := by decide

theorem witness_LifecycleMovesOnlyInInit :
    ∃ t, step (running .init [.becomeReady, .ret .unit]
        { fresh Config.c0 (ok 0 []) with mode := .active, cs := .deasserted, wp := .deasserted, hold := .deasserted }) = .next t ∧
      t.life ≠ .uninit :=
  ⟨_, rfl, by decide⟩

theorem witness_ModeTransitions :
    (∃ t, step atHold = .next t ∧ atHold.mode = .active ∧ t.mode = .held) ∧
      (∃ t, step atUnhold = .next t ∧ atUnhold.mode = .held ∧ t.mode = .active) ∧
      (∃ t, step atSleep = .next t ∧ atSleep.mode = .active ∧ t.mode = .deepSleep) ∧
      ∃ t, step atWake = .next t ∧ atWake.mode = .deepSleep ∧ t.mode = .active :=
  ⟨⟨_, rfl, rfl, rfl⟩, ⟨_, rfl, rfl, rfl⟩, ⟨_, rfl, rfl, rfl⟩, _, rfl, rfl, rfl⟩

theorem witness_WriteProtectStaysDeasserted :
    (running .readStatus (readStatusLines Config.c0) (ready Config.c0 (ok 3 [0, 3]))).life = .ready ∧
      ∃ t, Reaches (running .readStatus (readStatusLines Config.c0) (ready Config.c0 (ok 3 [0, 3]))) t ∧ t.got = some 3 :=
  ⟨rfl, _, .step _ _ _ (.refl _) rfl, by decide⟩

theorem witness_NothingKeptBetweenOperations :
    ∃ t, Reaches (running .readStatus (readStatusLines Config.c0) (ready Config.c0 (ok 3 [0, 3]))) t ∧ t.pc = .idle :=
  ⟨_, .step _ _ _ (.step _ _ _ (.refl _) rfl) rfl, by decide⟩

theorem witness_DeadIsFinal :
    Inv { fresh Config.c0 (ok 0 []) with life := .dead, mode := .active } ∧
      Reaches { fresh Config.c0 (ok 0 []) with life := .dead, mode := .active }
        { fresh Config.c0 (ok 0 []) with life := .dead, mode := .active } ∧
      (fresh Config.c0 (ok 0 [])).port = none ∧ (fresh Config.c0 (ok 0 [])).program = [] ∧
      Request.known .init = true ∧ Request.operandsOk .init = true ∧ Request.operandsOk (.srPl 255) = true ∧
      Request.operandsOk .hold = true :=
  ⟨witness_Inv_dead, .refl _, rfl, rfl, rfl, rfl, rfl, rfl⟩

theorem witness_EveryBurstIsInsideOnePage :
    Inv { running .storeWrite [.writeBurst, .ret .unit] (ready Config.c0 (ok 0 [])) with
        buf := [1, 2, 3], cur := 1023, idx := 2, n := 1 } ∧
      (∃ o k, (running .storeWrite [.writeBurst, .ret .unit] (ready Config.c0 (ok 0 []))).pc = .op o k) ∧
      (running .storeWrite [.writeBurst, .ret .unit] (ready Config.c0 (ok 0 []))).todo = .writeBurst :: [.ret .unit] :=
  ⟨witness_Inv_burst, ⟨_, _, rfl⟩, rfl⟩

theorem witness_ErrorEndsTheOperation :
    ∃ t, step (running .init (initLines Config.c0) (fresh Config.c0 (script [false] []))) = .next t ∧
      t.result = some (.err .signalError) ∧
      (running .init (initLines Config.c0) (fresh Config.c0 (script [false] []))).pc ≠ .idle ∧
      (running .init (initLines Config.c0) (fresh Config.c0 (script [false] []))).result = none :=
  ⟨_, rfl, by decide⟩

theorem witness_InitRuns :
    (fresh Config.c0 (ok 7 [0, 0, 0, 0x29])).cfg.wf = true ∧ (fresh Config.c0 (ok 7 [])).pc = .idle ∧
      (fresh Config.c0 (ok 7 [])).life = .uninit ∧ (fresh Config.c0 (ok 7 [])).mode ≠ .held ∧
      Env.okNext 6 (fresh Config.c0 (ok 7 [])).env = true ∧ Env.okNext 7 (fresh Config.c0 (ok 7 [])).env = true ∧
      Env.okNext 22 (fresh { Config.c0 with srProt := true } (ok 22 [])).env = true ∧ Config.c0.initSr = [] := by decide

theorem ready_idle {c : Config} (e : Env) (h : c.wf = true) : ReadyIdle (ready c e) :=
  ⟨h, rfl, rfl⟩

theorem held_idle {c : Config} (e : Env) (h : c.wf = true) : ReadyIdle (held c e) :=
  ⟨h, rfl, rfl⟩

theorem witness_StatusAndLatchOperationsRun :
    ReadyIdle (ready Config.c0 (ok 9 [])) ∧ (ready Config.c0 (ok 9 [])).mode ≠ .held ∧
      Env.okNext 3 (ready Config.c0 (ok 9 [])).env = true ∧ (255 : Nat) < 2 ^ 8 :=
  ⟨ready_idle _ (by decide), by decide⟩

theorem witness_ReadAndWriteOperationsRun :
    ReadyIdle (ready Config.c0 (ok 9 [])) ∧ (ready Config.c0 (ok 9 [])).mode ≠ .held ∧
      Env.okNext 4 (ready Config.c0 (ok 9 [])).env = true ∧ (2 ^ 24 - 1 : Nat) < 2 ^ 24 :=
  ⟨ready_idle _ (by decide), by decide⟩

theorem witness_EraseRuns :
    ReadyIdle (ready Config.c0 (ok 9 [])) ∧ (ready Config.c0 (ok 9 [])).mode ≠ .held ∧
      Env.okNext 3 (ready Config.c0 (ok 9 [])).env = true ∧ Env.okNext 9 (ready Config.c0 (ok 9 [])).env = true ∧
      (2 ^ 24 - 1 : Nat) < 2 ^ 24 ∧ (0x01 : Byte).getLsbD 0 = true ∧ (0xFE : Byte).getLsbD 0 = false :=
  ⟨ready_idle _ (by decide), by decide⟩

theorem witness_SleepAndWakeOperationsRun :
    ReadyIdle (ready c4 (ok 3 [])) ∧ (ready c4 (ok 3 [])).mode ≠ .held ∧ Env.okNext 3 (ready c4 (ok 3 [])).env = true ∧
      (ready c4 (ok 3 [])).cfg.sleep = true :=
  ⟨ready_idle _ (by decide), by decide⟩

theorem witness_HoldAndUnholdOperationsRun :
    (ReadyIdle (ready Config.c0 (ok 9 [])) ∧ (ready Config.c0 (ok 9 [])).cfg.hold = true ∧
        (ready Config.c0 (ok 9 [])).mode = .active ∧ Env.okNext 1 (ready Config.c0 (ok 9 [])).env = true) ∧
      ReadyIdle (ready Config.c0 (script [false] [])) ∧ (ready Config.c0 (script [false] [])).cfg.hold = true ∧
        (ready Config.c0 (script [false] [])).mode = .active ∧ Env.okNext 1 (ready Config.c0 (script [false] [])).env = false :=
  ⟨⟨ready_idle _ (by decide), by decide⟩, ready_idle _ (by decide), by decide⟩

theorem witness_OutOfRangeBeforeAnyEvent :
    ReadyIdle (held Config.c0 (ok 0 [])) ∧ (held Config.c0 (ok 0 [])).cfg.cap < 1020 + [(1 : Byte), 2, 3, 4, 5].length :=
  ⟨held_idle _ (by decide), by decide⟩

theorem witness_StoreReadRuns :
    (ReadyIdle (ready Config.c0 (ok 9 [])) ∧
        1020 + [(1 : Byte), 2, 3, 4].length ≤ (ready Config.c0 (ok 9 [])).cfg.cap ∧
        (ready Config.c0 (ok 9 [])).cfg.sleep = false ∧ Env.okNext 6 (ready Config.c0 (ok 9 [])).env = true) ∧
      ReadyIdle (held c4 (ok 12 [])) ∧ 1024 + ([] : List Byte).length ≤ (held c4 (ok 12 [])).cfg.cap ∧
        (held c4 (ok 12 [])).cfg.sleep = true ∧ Env.okNext 12 (held c4 (ok 12 [])).env = true :=
  ⟨⟨ready_idle _ (by decide), by decide⟩, held_idle _ (by decide), by decide⟩

theorem witness_BurstLaw :
    0 < 16 ∧ (10, 6) ∈ bursts 16 20 10 20 ∧ (bursts 16 20 10 20)[0]? = some (10, 6) ∧
      (bursts 16 20 10 20)[0 + 1]? = some (16, 14) ∧ 1 ≤ 20 := by decide

theorem statusesRead_two (busy : Bool) (e : Env) (b0 b1 b2 b3 : Byte) (h : Env.nextBytes 4 e = [b0, b1, b2, b3])
    (h1 : b1.getLsbD 0 = busy) (h3 : b3.getLsbD 0 = busy) : Env.statusesRead busy 2 e := by
  intro i b hb
  rw [h] at hb
  match i, hb with
  | 0, hb => cases hb; exact h1
  | 1, hb => cases hb; exact h3
  | n + 2, hb =>
    rw [List.getElem?_eq_none (by simp; omega)] at hb
    cases hb

theorem witness_StoreWriteSendsItsBursts :
    ReadyIdle (ready Config.c0 (ok 28 [0, 2, 0, 2])) ∧
      10 + (List.replicate 20 (0 : Byte)).length ≤ (ready Config.c0 (ok 28 [0, 2, 0, 2])).cfg.cap ∧
      (ready Config.c0 (ok 28 [0, 2, 0, 2])).link = .oracle ∧ (ready Config.c0 (ok 28 [0, 2, 0, 2])).cfg.sleep = false ∧
      (bursts Config.c0.page 20 10 20).length = 2 ∧ Env.okNext (13 * 2 + 2) (ok 28 [0, 2, 0, 2]) = true ∧
      Env.statusesRead false 2 (Env.afterBytes 0 (ok 28 [0, 2, 0, 2])) :=
  ⟨ready_idle _ (by decide), by decide, rfl, rfl, by decide, by decide, statusesRead_two _ _ 0 2 0 2 rfl rfl rfl⟩

theorem witness_StoreWriteSendsItsBursts_with_sleep :
    ReadyIdle (held c4 (ok 34 [1, 1, 1, 1, 1, 0, 2, 0, 2])) ∧
      1004 + (List.replicate 20 (0 : Byte)).length ≤ (held c4 (ok 34 [1, 1, 1, 1, 1, 0, 2, 0, 2])).cfg.cap ∧
      (held c4 (ok 34 [1, 1, 1, 1, 1, 0, 2, 0, 2])).link = .oracle ∧ c4.sleep = true ∧
      (bursts c4.page 20 1004 20).length = 2 ∧ Env.okNext (13 * 2 + 8) (ok 34 [1, 1, 1, 1, 1, 0, 2, 0, 2]) = true ∧
      Env.statusesRead false 2 (Env.afterBytes (idDummies c4 + 1) (ok 34 [1, 1, 1, 1, 1, 0, 2, 0, 2])) :=
  ⟨held_idle _ (by decide), by decide, rfl, rfl, by decide, by decide, statusesRead_two _ _ 0 2 0 2 rfl rfl rfl⟩

theorem witness_StoreWriteEndsWithinItsBound :
    ReadyIdle (ready { Config.c0 with poll := some 1 } (script [true, false] [])) ∧
      Config.poll { Config.c0 with poll := some 1 } = some 1 :=
  ⟨ready_idle _ (by decide), rfl⟩

theorem witness_BusyWaitTests :
    Config.c0.wf = true ∧ (running .storeWrite [.testPoll, .ret .unit] (ready Config.c0 (ok 0 []))).port = none ∧
      (running .storeWrite [.testPoll, .ret .unit] (ready Config.c0 (ok 0 []))).todo = .testPoll :: [.ret .unit] ∧
      (running .storeWrite [.poll, .ret .unit] (ready Config.c0 (ok 0 []))).todo = .poll :: [.ret .unit] ∧
      (running .storeWrite [.startPoll, .ret .unit] (ready Config.c0 (ok 0 []))).todo = .startPoll :: [.ret .unit] ∧
      (0x02 : Byte).getLsbD 0 = false ∧ (0x03 : Byte).getLsbD 0 = true ∧ Config.c0.poll = none ∧
      (Config.poll { Config.c0 with poll := some 2 } = some 2 ∧ 0 + 1 < 2) ∧ 2 ≤ 1 + 1 := by decide

theorem witness_UnboundedBusyWait :
    Config.c0.wf = true ∧ Config.c0.poll = none ∧ (running .storeWrite [.poll, .ret .unit] (ready Config.c0 (ok 6 []))).port = none ∧
      (running .storeWrite [.poll, .ret .unit] (ready Config.c0 (ok 6 []))).mode ≠ .held ∧
      (running .storeWrite [.poll, .ret .unit] (ready Config.c0 (ok 6 []))).link = .oracle ∧
      (running .storeWrite [.poll, .ret .unit] (ready Config.c0 (ok 6 []))).todo = .poll :: [.ret .unit] ∧
      Env.okNext (3 * 2) (ok 6 [0, 1, 0, 3]) = true ∧ Env.statusesRead true 2 (ok 6 [0, 1, 0, 3]) :=
  ⟨by decide, by decide, by decide, by decide, by decide, by decide, by decide, statusesRead_two _ _ 0 1 0 3 rfl rfl rfl⟩

theorem witness_BoundedBusyWaitTimesOut :
    Config.wf { Config.c0 with poll := some 2 } = true ∧
      (running .storeWrite [.startPoll, .poll, .ret .unit] (ready { Config.c0 with poll := some 2 } (ok 6 []))).port = none ∧
      (running .storeWrite [.startPoll, .poll, .ret .unit] (ready { Config.c0 with poll := some 2 } (ok 6 []))).mode ≠ .held ∧
      (running .storeWrite [.startPoll, .poll, .ret .unit] (ready { Config.c0 with poll := some 2 } (ok 6 []))).pc ≠ .idle ∧
      (running .storeWrite [.startPoll, .poll, .ret .unit] (ready { Config.c0 with poll := some 2 } (ok 6 []))).link = .oracle ∧
      (running .storeWrite [.startPoll, .poll, .ret .unit] (ready { Config.c0 with poll := some 2 } (ok 6 []))).todo =
        .startPoll :: .poll :: [.ret .unit] ∧
      Env.okNext (3 * 2) (ok 6 [0, 1, 0, 3]) = true ∧ Env.statusesRead true 2 (ok 6 [0, 1, 0, 3]) :=
  ⟨by decide, by decide, by decide, by decide, by decide, by decide, by decide, statusesRead_two _ _ 0 1 0 3 rfl rfl rfl⟩

end Sys2Proof.Tests
end

section
/-! The configuration test of a step (00_scope.md R5, R6, R12; 60_exceptions.md R237). -/

namespace Sys2Proof

/-- `OpcodeMap.injective` is the injectivity of `P_OPC` (R12): the byte determines the instruction. -/
theorem OpcodeMap.get_injective {m : OpcodeMap} (h : m.injective = true) : Function.Injective m.get := by
  intro i j hij
  have hsome : some i = some j := by rw [← opcodeOf_get h i, hij, opcodeOf_get h j]
  exact Option.some.inj hsome

/-- The page size of a configuration the block runs under (R6). -/
theorem Config.page_mem_of_wf {c : Config} (h : c.wf = true) : c.page ∈ [16, 32, 64, 128, 256] := by
  simp only [Config.wf, Config.pageOk, Bool.and_eq_true] at h
  obtain ⟨⟨⟨-, hpage⟩, -⟩, -⟩ := h
  exact List.contains_iff_mem.mp hpage

namespace Machine

/-- Outside a well-formed configuration a step looks at nothing else (R237). -/
theorem step_of_not_wf {s : State} (h : ¬ s.cfg.wf = true) : step s = .refused .badConfig :=
  if_neg h

/-- Settles O37: each of the four defects contradicts what a well-formed configuration gives (R5, R6, R12). -/
theorem badConfigurationRefused : Obligations.BadConfigurationRefused := by
  intro s hbad
  refine step_of_not_wf fun hwf => ?_
  obtain ⟨-, hcap, hinj, hpos⟩ := Config.wf_facts hwf
  rcases hbad with hzero | hlarge | hpage | ⟨i, j, hne, heq⟩
  · omega
  · omega
  · exact hpage (Config.page_mem_of_wf hwf)
  · exact hne (OpcodeMap.get_injective hinj heq)

end Machine
end Sys2Proof
end

section
/-! What the next line of a running operation can come to, said once (10_state.md R34), and the statements about the state that
follow from it. -/

namespace Sys2Proof.Machine

/-! ### One line of an operation -/

/-- `t` is `s` after the events `ev`, as far as the trace, the phase and the lifecycle go (R31, R34): what `Ran` says of events
alone and what a line that issues none keeps too. -/
structure Issued (ev : List Event) (s t : State) : Prop where
  trace : t.trace = s.trace ++ ev
  pc : t.pc = s.pc.plus ev.length
  life : t.life = s.life

theorem Ran.issued {ev : List Event} {s t : State} (h : Ran ev s t) : Issued ev s t :=
  ⟨h.trace, h.pc, h.life⟩

theorem issued_none {s t : State} (htrace : t.trace = s.trace) (hpc : t.pc = s.pc) (hlife : t.life = s.life) :
    Issued [] s t :=
  ⟨by simp [htrace], by simp [hpc], hlife⟩

/-- How a line leaves the operation: going on, ended by an error (R238), or ended by its return (R22). -/
inductive LineResult (s : State) : State → Prop where
  | goesOn {ev : List Event} {t : State} (h : Issued ev s t) : LineResult s t
  | raised {ev : List Event} {u : State} (h : Issued ev s u) (e : ErrorKind) : LineResult s (raise e u)
  | returned {ev : List Event} {u : State} (h : Issued ev s u) (v : Value) : LineResult s (finish v u)

theorem LineResult.silent {s t : State} (htrace : t.trace = s.trace) (hpc : t.pc = s.pc) (hlife : t.life = s.life) :
    LineResult s t :=
  .goesOn (issued_none htrace hpc hlife)

theorem LineResult.raise_here (e : ErrorKind) (s : State) : LineResult s (raise e s) :=
  .raised (issued_none rfl rfl rfl) e

theorem LineResult.return_here (v : Value) (s : State) : LineResult s (finish v s) :=
  .returned (issued_none rfl rfl rfl) v

theorem signal_result (x : Signal) (l : Level) (s : State) : LineResult s ((signal x l s).settle noValue) := by
  cases h : s.outcome with
  | true =>
    rw [signal_ok h]
    exact .goesOn (ev := [.sig x l true])
      ⟨afterSignal_trace x l s, (afterSignal_pc x l s).trans (Phase.tick_eq s.pc), afterSignal_life x l s⟩
  | false =>
    rw [signal_fail h]
    exact .raised (ran_record (.sig x l false) s).issued .signalError

/-- Each of the ways an instruction ends (`ExecSpec`) goes on or raises an error. -/
theorem exec_result {i : Instr} {s t : State} (h : exec i s = .next t) : LineResult s t := by
  by_cases hm : s.mode = .held
  · rw [exec_held i hm] at h
    cases h
  rcases (exec_spec i hm).cases with ⟨u, -, he, hran, -⟩ | ⟨ev, k, u, -, -, he, -, -, -, hkeep, hrelease⟩ |
    ⟨ev, u, -, he, -, -, hran, -⟩ | ⟨ev, u, u', -, he, hlatch, -, -, -, hran, -⟩
  all_goals
    rw [he] at h
    cases h
  · exact .raised hran.issued .signalError
  · cases hcs : s.cfg.csErr with
    | false => exact .raised (hkeep hcs).1.issued .transportError
    | true => exact .raised (hrelease hcs).1.issued .transportError
  · exact .raised hran.issued .signalError
  · rcases hlatch with rfl | ⟨-, b, rfl⟩
    · exact .goesOn hran.issued
    · exact .goesOn ⟨hran.trace, hran.pc, hran.life⟩

/-- What a line comes to; only the line that makes the block Ready (R181) moves the lifecycle without ending the operation. -/
theorem runLine_result {l : Line} {s t : State} (h : runLine l s = .next t) :
    LineResult s t ∨ (l = .becomeReady ∧ t = becomeReady s) := by
  cases l with
  | becomeReady =>
    cases h
    exact .inr ⟨rfl, rfl⟩
  | frame bs =>
    simp only [runLine, runFrame] at h
    split at h
    · exact .inl (exec_result h)
    · cases h
  | sig x l =>
    cases h
    exact .inl (signal_result x l s)
  | ret | retByte | retBuffer =>
    cases h
    exact .inl (.return_here _ s)
  | checkIdentity =>
    cases h
    unfold checkIdentity
    split
    · exact .inl (.silent rfl rfl rfl)
    · exact .inl (.raise_here _ s)
  | checkBusy =>
    cases h
    unfold checkBusy
    split
    · exact .inl (.raise_here _ s)
    · exact .inl (.silent rfl rfl rfl)
  | checkRange off len =>
    cases h
    unfold checkRange
    split
    · exact .inl (.silent rfl rfl rfl)
    · exact .inl (.raise_here _ s)
  | burstLoop =>
    cases h
    unfold burstLoop
    split <;> exact .inl (.silent rfl rfl rfl)
  | testPoll =>
    cases h
    simp only [testPoll]
    split
    · split
      · exact .inl (.raised (u := { s with polls := s.polls + 1 }) (issued_none (s := s) rfl rfl rfl) .writeTimeout)
      · exact .inl (.silent rfl rfl rfl)
    · exact .inl (.silent rfl rfl rfl)
  | _ =>
    cases h
    exact .inl (.silent rfl rfl rfl)

/-- R34: the events are added to the trace, and the phase has counted them unless the operation ended. -/
theorem LineResult.counts {s t : State} (h : LineResult s t) :
    ∃ ev, t.trace = s.trace ++ ev ∧ (t.pc = .idle ∨ t.pc = s.pc.plus ev.length) := by
  cases h with
  | goesOn h => exact ⟨_, h.trace, .inr h.pc⟩
  | raised h e => exact ⟨_, h.trace, .inl rfl⟩
  | returned h v => exact ⟨_, h.trace, .inl rfl⟩

theorem Phase.plus_eq_idle {p : Phase} {k : Nat} : p.plus k = .idle ↔ p = .idle := by
  cases p <;> simp [Phase.plus]

theorem Phase.op_of_plus_eq_op {p : Phase} {o : OpName} {j k : Nat} (h : p.plus j = .op o k) : ∃ k', p = .op o k' := by
  cases p with
  | idle => cases h
  | op o' k' =>
    cases h
    exact ⟨k', rfl⟩

/-- The line that ends an operation leaves neither a received byte nor a line (R34, R36). -/
theorem LineResult.ends_empty {s t : State} (h : LineResult s t) (hs : s.pc ≠ .idle) (ht : t.pc = .idle) :
    t.got = none ∧ t.todo = [] := by
  cases h with
  | goesOn h => exact absurd (Phase.plus_eq_idle.mp (h.pc.symm.trans ht)) hs
  | raised h e => exact ⟨rfl, rfl⟩
  | returned h v => exact ⟨rfl, rfl⟩

/-- Only an error inside INIT moves the lifecycle here, to Dead (R184). -/
theorem LineResult.life {s t : State} (h : LineResult s t) :
    t.life = s.life ∨ ((∃ k, s.pc = .op .init k) ∧ t.life = .dead) := by
  cases h with
  | goesOn h => exact .inl h.life
  | returned h v => exact .inl h.life
  | @raised ev u h e =>
    by_cases hinit : ∃ k, u.pc = .op .init k
    · obtain ⟨k, hk⟩ := hinit
      exact .inr ⟨Phase.op_of_plus_eq_op (h.pc.symm.trans hk), raise_life_init e u k hk⟩
    · exact .inl ((raise_life_other e u (not_exists.mp hinit)).trans h.life)

theorem runLine_life {l : Line} {s t : State} (h : runLine l s = .next t) :
    t.life = s.life ∨ t.life = .ready ∨ ((∃ k, s.pc = .op .init k) ∧ t.life = .dead) := by
  rcases runLine_result h with hres | ⟨-, rfl⟩
  · exact hres.life.imp_right .inr
  · exact .inr (.inl rfl)

/-! ### One step -/

/-- What taking a request does (R180): only an idle block takes one, no event is issued, the lifecycle stays, and a request
answered at once (R141) leaves the kept byte and the lines as they were. -/
structure Accepted (s t : State) : Prop where
  idle : s.pc = .idle
  trace : t.trace = s.trace
  life : t.life = s.life
  rest : t.pc = .idle → t.got = s.got ∧ t.todo = s.todo

/-- The host's other requests have no part in it. -/
theorem accept_accepted {r : Request} {port : Option Request} {program : List Request} {s t : State}
    (h : accept r { s with port := port, program := program } = .next t) : Accepted s t := by
  obtain ⟨hidle, hadm, rfl⟩ := accept_next h
  obtain ⟨-, hknown, hoperands, -⟩ := admit_none hadm
  rcases start_cases hknown hoperands with ⟨-, v, hstart⟩ | ⟨o, lines, buf, -, hstart⟩
  · rw [hstart]
    exact ⟨hidle, rfl, rfl, fun _ => ⟨rfl, rfl⟩⟩
  · rw [hstart]
    exact ⟨hidle, rfl, rfl, fun hpc => by cases hpc⟩

/-- A step takes a request, runs the next line, or waits. -/
theorem step_result {s t : State} (h : Machine.step s = .next t) :
    Accepted s t ∨ (∃ l rest, s.todo = l :: rest ∧ runLine l { s with todo := rest } = .next t) ∨ t = s := by
  obtain ⟨-, hcases⟩ := step_cases h
  rcases hcases with ⟨r, -, hacc⟩ | ⟨l, rest, -, htodo, hrun⟩ | ⟨r, rest, -, -, -, hacc⟩ | ⟨-, -, -, -, heq⟩
  · exact .inl (accept_accepted hacc)
  · exact .inr (.inl ⟨l, rest, htodo, hrun⟩)
  · exact .inl (accept_accepted hacc)
  · exact .inr (.inr heq)

/-- The step of a running operation that no request disturbs. -/
theorem step_line {s : State} {l : Line} {rest : List Line} (hwf : s.cfg.wf = true) (hport : s.port = none)
    (htodo : s.todo = l :: rest) : Machine.step s = runLine l { s with todo := rest } := by
  simp [Machine.step, advance, hwf, hport, htodo]

/-! ### What the invariant says of an idle and of a running block -/

theorem Inv.wf {s : State} (h : Inv s) : s.cfg.wf = true :=
  h.1

theorem Inv.resting {s : State} (h : Inv s) (hpc : s.pc = .idle) : s.restOk := by
  obtain ⟨-, -, hphase, -⟩ := h
  simpa only [hpc] using hphase

theorem Inv.running {s : State} {o : OpName} {k : Nat} (h : Inv s) (hpc : s.pc = .op o k) : s.runOk o := by
  obtain ⟨-, -, hphase, -⟩ := h
  simpa only [hpc] using hphase

theorem Inv.op_of_todo {s : State} {l : Line} {rest : List Line} (h : Inv s) (htodo : s.todo = l :: rest) :
    ∃ o k, s.pc = .op o k := by
  cases hpc : s.pc with
  | idle =>
    obtain ⟨hnone, -⟩ := h.resting hpc
    rw [hnone] at htodo
    cases htodo
  | op o k => exact ⟨o, k, rfl⟩

/-- INIT runs in Uninit until it has made the block Ready, with its return left; every other operation runs in Ready. -/
theorem runOk_life {s : State} {o : OpName} (h : s.runOk o) :
    (o = .init ∧ s.life = .uninit) ∨ (s.life = .ready ∧ (o = .init → ∃ v, s.todo = [.ret v])) := by
  obtain ⟨-, -, hlife⟩ := h
  by_cases ho : o = .init
  · rw [if_pos ho] at hlife
    rcases hlife with ⟨huninit, -⟩ | ⟨hready, hret⟩
    · exact .inl ⟨ho, huninit⟩
    · exact .inr ⟨hready, fun _ => hret⟩
  · rw [if_neg ho] at hlife
    exact .inr ⟨hlife, fun h => absurd h ho⟩

/-! ### A running operation goes on -/

theorem exec_next (i : Instr) {s : State} (hm : s.mode ≠ .held) : ∃ t, exec i s = .next t := by
  cases i <;> exact ⟨_, if_neg hm⟩

/-- A plan that may run sends no frame while held (R156), and only frames of the block (R109). -/
theorem plan_frame {c : Config} {v : View} {bs : List Byte} {rest : List Line} (h : planOk c v (.frame bs :: rest) = true) :
    v.mode ≠ .held ∧ ∃ i, decode c bs = .ok i := by
  simp only [planOk, Bool.and_eq_true, bne_iff_ne] at h
  obtain ⟨⟨-, hmode⟩, hdecode⟩ := h
  refine ⟨hmode, ?_⟩
  cases hd : decode c bs with
  | ok i => exact ⟨i, rfl⟩
  | error e => simp [hd] at hdecode

/-- The first line of a plan that may run answers a next state: only a frame line could be refused. -/
theorem runLine_of_plan {l : Line} {rest : List Line} {s : State} (h : planOk s.cfg s.view (l :: rest) = true) :
    ∃ t, runLine l { s with todo := rest } = .next t := by
  cases l with
  | frame bs =>
    obtain ⟨hmode, i, hdecode⟩ := plan_frame h
    obtain ⟨t, ht⟩ := exec_next i (s := { s with todo := rest }) hmode
    exact ⟨t, by simp [runLine, runFrame, hdecode, ht]⟩
  | _ => exact ⟨_, rfl⟩

/-- Settles O34: the plan of a running operation has a next line, and that line answers a next state. -/
theorem runningOperationNeverStops : Obligations.RunningOperationNeverStops := by
  intro s hInv hbusy hport
  cases hpc : s.pc with
  | idle => exact absurd hpc hbusy
  | op o k =>
    obtain ⟨hplan, -⟩ := hInv.running hpc
    cases htodo : s.todo with
    | nil => simp [htodo, planOk] at hplan
    | cons l rest =>
      rw [step_line hInv.wf hport htodo]
      exact runLine_of_plan (htodo ▸ hplan)

/-! ### The phase, the lifecycle, and the block between operations -/

/-- Settles O38: a request is taken by an idle block and issues no event, and a line counts its events (`LineResult.counts`). -/
theorem phaseCountsEvents : Obligations.PhaseCountsEvents := by
  intro s t h
  rcases step_result h with hacc | ⟨l, rest, -, hrun⟩ | rfl
  · refine ⟨[], by simp [hacc.trace], fun o k hpc => ?_⟩
    rw [hacc.idle] at hpc
    cases hpc
  · rcases runLine_result hrun with hres | ⟨-, rfl⟩
    · obtain ⟨ev, htrace, hcount⟩ := hres.counts
      refine ⟨ev, htrace, fun o k hpc => hcount.imp_right fun hplus => ?_⟩
      rw [hplus]
      simp [hpc, Phase.plus]
    · exact ⟨[], by simp [becomeReady], fun o k hpc => .inr hpc⟩
  · exact ⟨[], by simp, fun o k hpc => .inr hpc⟩

/-- Settles O40: INIT in Uninit is the only operation whose next line may move the lifecycle, since INIT in Ready only has its
return to run and no other operation's error moves it. -/
theorem lifecycleMovesOnlyInInit : Obligations.LifecycleMovesOnlyInInit := by
  intro s t hInv h hmoved
  rcases step_result h with hacc | ⟨l, rest, htodo, hrun⟩ | rfl
  · exact absurd hacc.life hmoved
  · obtain ⟨o, k, hpc⟩ := hInv.op_of_todo htodo
    rcases runLine_life hrun with hsame | hto
    · exact absurd hsame hmoved
    rcases runOk_life (hInv.running hpc) with ⟨rfl, huninit⟩ | ⟨hready, hret⟩
    · exact ⟨huninit, ⟨k, hpc⟩, hto.imp_right And.right⟩
    · rcases hto with htready | ⟨⟨k', hinit⟩, -⟩
      · exact absurd (htready.trans hready.symm) hmoved
      · obtain ⟨rfl, -⟩ := Phase.op.inj (hpc.symm.trans hinit)
        obtain ⟨v, hv⟩ := hret rfl
        obtain ⟨rfl, rfl⟩ := List.cons.inj (htodo.symm.trans hv)
        cases hrun
        exact absurd rfl hmoved
  · exact absurd rfl hmoved

/-- R34, R36: an idle block holds no received byte and no line. The part of `Inv` that every step keeps without the rest. -/
def State.emptyAtRest (s : State) : Prop :=
  s.pc = .idle → s.got = none ∧ s.todo = []

theorem Inv.emptyAtRest {s : State} (h : Inv s) : s.emptyAtRest := by
  intro hpc
  obtain ⟨htodo, hgot, -⟩ := h.resting hpc
  exact ⟨hgot, htodo⟩

theorem step_emptyAtRest {s t : State} (hs : s.emptyAtRest) (h : Machine.step s = .next t) : t.emptyAtRest := by
  intro ht
  rcases step_result h with hacc | ⟨l, rest, htodo, hrun⟩ | rfl
  · obtain ⟨hgot, htodo⟩ := hacc.rest ht
    rw [hgot, htodo]
    exact hs hacc.idle
  · have hbusy : s.pc ≠ .idle := fun hidle => by simp [(hs hidle).2] at htodo
    rcases runLine_result hrun with hres | ⟨-, rfl⟩
    · exact hres.ends_empty hbusy ht
    · exact absurd ht hbusy
  · exact hs ht

theorem reaches_emptyAtRest {s t : State} (hs : s.emptyAtRest) (h : Reaches s t) : t.emptyAtRest := by
  induction h with
  | refl => exact hs
  | step t u _ hstep ih => exact step_emptyAtRest ih hstep

/-- Settles O43, by induction on the run: `State.emptyAtRest` holds under `Inv` and every step keeps it. -/
theorem nothingKeptBetweenOperations : Obligations.NothingKeptBetweenOperations :=
  fun _ _ hInv hreach => reaches_emptyAtRest hInv.emptyAtRest hreach

/-- Settles O31: `State.resetWith` sets each field as R47 says, and `State.reset` is it under C0 of the test vectors. -/
theorem resetState : Obligations.ResetState :=
  ⟨fun _ => ⟨rfl, rfl, rfl, rfl, rfl, rfl, rfl, rfl⟩, Config.c0, rfl⟩

end Sys2Proof.Machine
end

section
/-! The reference device against the frames of the block (20_memory.md R82 to R95): what it does with the frame of each
instruction, said once (`Device.perform`), and the statements of its family. -/

namespace Sys2Proof.Machine

/-! ### The bytes of a frame -/

/-- A frame is its opcode byte and what follows (R104). -/
theorem encode_eq_cons (c : Config) (i : Instr) : encode c i = c.opc.get i.opcode :: (encode c i).tail := by
  cases i <;> simp [encode, header_eq, Instr.opcode]

/-- Settles O8: the four bytes of a header are known (`header_eq`), and the data stands after them. -/
theorem headerIsBigEndian : Obligations.HeaderIsBigEndian := by
  intro c a d
  refine ⟨fun i hi => ?_, ?_, ?_, ?_, ?_, ?_⟩
  · have htake : (encode c i).take 4 = header c.opc i.opcode a := by
      fin_cases hi <;> simp [encode, Instr.opcode, header_eq]
    exact ⟨htake, htake.trans (header_eq _ _ _)⟩
  all_goals simp [encode, header_eq]

/-! ### What the device hears -/

/-- What the device takes does not depend on its window. -/
@[simp] theorem Device.listens_window (d : Device) (w : List Byte) (i : Opcode) :
    Device.listens { d with window := w } i = d.listens i := rfl

/-- An awake idle device takes every frame (R84, R85). -/
theorem Device.listens_of_awake_idle {d : Device} (hawake : d.asleep = false) (hidle : d.wip = 0) (i : Opcode) :
    d.listens i = true := by
  simp [Device.listens, hawake, hidle]

/-- The opcode byte alone, whatever follows, tells the device which instruction it hears (R94). -/
theorem Device.heard_opcode {c : Config} (h : c.opc.injective = true) (d : Device) (i : Opcode) (rest : List Byte) :
    d.heard c (c.opc.get i :: rest) = if d.listens i then some i else none := by
  simp [Device.heard, opcodeOf_get h]

/-- The device hears the instruction from the first byte of its frame on. -/
theorem Device.heard_take_encode {c : Config} (h : c.opc.injective = true) (d : Device) (i : Instr) (k : Nat) :
    d.heard c ((encode c i).take k) = if 0 < k ∧ d.listens i.opcode = true then some i.opcode else none := by
  cases k with
  | zero => simp [Device.heard]
  | succ k =>
    rw [encode_eq_cons, List.take_succ_cons, Device.heard_opcode h]
    simp

theorem Device.heard_take_taken {c : Config} (h : c.opc.injective = true) {d : Device} {i : Instr}
    (hd : d.listens i.opcode = true) {k : Nat} (hk : 0 < k) : d.heard c ((encode c i).take k) = some i.opcode :=
  (Device.heard_take_encode h d i k).trans (if_pos ⟨hk, hd⟩)

theorem Device.reply_of_heard_none {c : Config} {d : Device} {m : List Byte} (h : d.heard c m = none) :
    d.reply c m = none := by
  simp [Device.reply, h]

/-- R93: while it hears a release, the device names the manufacturer code after the opcode and all but one of the dummies. -/
theorem Device.reply_release {c : Config} {d : Device} {m : List Byte} (h : d.heard c m = some .releasePowerDown) :
    d.reply c m = if m.length = idDummies c then some c.manuf else none := by
  simp [Device.reply, h]

/-! ### What the device does with a whole frame -/

/-- The effect of a whole frame of an instruction on a device that takes it (R86 to R93). -/
def Device.perform (c : Config) (wp : Pin) (i : Instr) (d : Device) (e : Env) : Device × Env :=
  match i with
  | .read _ _ => (d, e)
  | .write a p => d.writeBurst c a.toNat p e
  | .wren => ({ d with wel := true }, e)
  | .wrdi => ({ d with wel := false }, e)
  | .rdsr => (d.countDown, e)
  | .wrsr v => d.writeStatus wp v e
  | .pe a => d.eraseAt c .pageErase a.toNat e
  | .se a => d.eraseAt c .sectorErase a.toNat e
  | .ce a => d.eraseAt c .chipErase a.toNat e
  | .rpd => ({ d with asleep := false }, e)
  | .dpd => ({ d with asleep := true }, e)

/-- The encoded frame is as long as its instruction needs (R94), and its address bytes give the address back (R105). -/
theorem Device.effect_encode (c : Config) (wp : Pin) (i : Instr) (d : Device) (e : Env) :
    Device.effect c wp i.opcode (encode c i).tail d e = d.perform c wp i e := by
  cases i <;> simp [encode, header_eq, Instr.opcode, Device.effect, Device.perform, addrOf_bytes, zeroBytes]

/-- Deselected after the frame of an instruction, the device has done what it does with it, if it takes it (R83 to R85). -/
theorem Device.deselect_encode {c : Config} (h : c.opc.injective = true) (wp : Pin) (d : Device) (i : Instr) (e : Env) :
    Device.deselect c wp { d with window := encode c i } e =
      if d.listens i.opcode then Device.perform c wp i { d with window := [] } e else ({ d with window := [] }, e) := by
  have hheard := Device.heard_encode h { d with window := encode c i } i
  rw [Device.listens_window] at hheard
  by_cases hd : d.listens i.opcode = true
  · rw [if_pos hd] at hheard ⊢
    simp only [Device.deselect, hheard]
    exact Device.effect_encode c wp i _ e
  · rw [if_neg hd] at hheard ⊢
    simp only [Device.deselect, hheard]

/-- R84, R85: a frame the device does not take ends its window only. -/
theorem Device.deselect_ignored {c : Config} (h : c.opc.injective = true) (wp : Pin) {d : Device} {i : Instr} (e : Env)
    (hd : d.listens i.opcode = false) :
    Device.deselect c wp { d with window := encode c i } e = ({ d with window := [] }, e) := by
  simp [Device.deselect_encode h, hd]

theorem Device.deselect_taken {c : Config} (h : c.opc.injective = true) (wp : Pin) {d : Device} {i : Instr} (e : Env)
    (hd : d.listens i.opcode = true) :
    Device.deselect c wp { d with window := encode c i } e = Device.perform c wp i { d with window := [] } e := by
  simp [Device.deselect_encode h, hd]

/-! ### Status, latch and sleep -/

/-- Settles O21, bit by bit of the status byte (R82). -/
theorem deviceStatusByteLayout : Obligations.DeviceStatusByteLayout := by
  intro d
  refine ⟨?_, ?_, ?_, ?_, ?_⟩
  · simp [srBusy, Device.status]
  · simp [srWel, Device.status]
  · rw [srPl]
    congr 1
    apply BitVec.eq_of_getLsbD_eq
    intro k hk
    interval_cases k <;> simp [Device.status]
  · simp [srWpen, Device.status]
  · apply BitVec.eq_of_getLsbD_eq
    intro k hk
    interval_cases k <;> simp [Device.status]

/-- R86 in one formula, at D.wip 0, 1 and above. -/
theorem Device.countDown_eq (d : Device) :
    d.countDown = { d with wip := d.wip - 1, wel := if d.wip = 1 then false else d.wel } := by
  unfold Device.countDown
  split
  · next hzero =>
    cases d
    simp_all
  · split
    · next hone => simp [hone]
    · next => simp

/-- Settles O22: an awake device takes a status frame, busy or not, and its effect is `Device.countDown`. -/
theorem statusReadCountsTheCycleDown : Obligations.StatusReadCountsTheCycleDown := by
  intro c wp d e hinj hawake
  have hlistens : d.listens .readStatus = true := by simp [Device.listens, hawake]
  have hheard : d.heard c [c.opc.readStatus] = some .readStatus :=
    (Device.heard_opcode hinj d .readStatus []).trans (if_pos hlistens)
  refine ⟨by simp [Device.reply, hheard], rfl, fun d' e' hdes => ?_⟩
  rw [Device.deselect_taken hinj wp e hlistens] at hdes
  cases hdes
  exact ⟨rfl, Device.countDown_eq _⟩

theorem Instr.opcode_eq_release {i : Instr} : i.opcode = .releasePowerDown ↔ i = .rpd := by
  cases i <;> simp [Instr.opcode]

theorem Instr.opcode_eq_readStatus {i : Instr} : i.opcode = .readStatus ↔ i = .rdsr := by
  cases i <;> simp [Instr.opcode]

/-- Settles O23: the device does not take the frame, so it hears no instruction in it. -/
theorem sleepingOrBusyDeviceIgnores : Obligations.SleepingOrBusyDeviceIgnores := by
  intro c wp d e i hinj hstate
  have hdeaf : d.listens i.opcode = false := by
    rcases hstate with ⟨hasleep, hne⟩ | ⟨hbusy, hne⟩
    · simp [Device.listens, hasleep, Instr.opcode_eq_release, hne]
    · simp [Device.listens, hbusy.ne', Instr.opcode_eq_readStatus, hne]
  exact ⟨Device.deselect_ignored hinj wp e hdeaf,
    fun k => Device.reply_of_heard_none (by simp [Device.heard_take_encode hinj, hdeaf])⟩

/-- Settles O24: an idle device takes the release asleep or not, and the other three when it is awake. -/
theorem latchAndSleepCommands : Obligations.LatchAndSleepCommands := by
  intro c wp d e hinj hidle
  have hrelease : d.listens Instr.rpd.opcode = true := by simp [Device.listens, hidle, Instr.opcode]
  have hlen : (encode c .rpd).length = idDummies c + 1 := by simp [encode, zeroBytes]
  have hpos : 0 < idDummies c := by
    unfold idDummies
    split <;> omega
  have hreply : ∀ k, k ≤ idDummies c →
      d.reply c ((encode c .rpd).take k) = if k = idDummies c then some c.manuf else none := by
    intro k hk
    rcases Nat.eq_zero_or_pos k with rfl | hk0
    · rw [if_neg hpos.ne]
      rfl
    · rw [Device.reply_release (Device.heard_take_taken hinj hrelease hk0), List.length_take, hlen, min_eq_left (by omega)]
  refine ⟨fun hawake => ?_, Device.deselect_taken hinj wp e hrelease, ?_, fun k hk => ?_⟩
  · have hlistens := Device.listens_of_awake_idle hawake hidle
    exact ⟨Device.deselect_taken hinj wp e (hlistens _), Device.deselect_taken hinj wp e (hlistens _),
      Device.deselect_taken hinj wp e (hlistens _)⟩
  · rw [List.dropLast_eq_take, hlen, Nat.add_sub_cancel, hreply _ le_rfl, if_pos rfl]
  · rw [hreply k hk.le, if_neg hk.ne]

/-! ### Write cycles -/

/-- R92: on a write-enabled idle device the cycle has the drawn length, and a length of 0 clears WEL at once. -/
theorem Device.startCycle_eq {d : Device} (e : Env) (hwel : d.wel = true) (hidle : d.wip = 0) :
    d.startCycle e = ({ d with wip := e.drawCycle.1, wel := decide (e.drawCycle.1 ≠ 0) }, e.drawCycle.2) := by
  unfold Device.startCycle
  split
  · next hzero =>
    cases d
    simp_all
  · next hpos => simp [hwel, hpos]

/-! What the device tests before a write or an erase stands in a proposition of its own; accepted, the device's state is given
whole, and refused, it is as it was. -/

/-- What the device tests before a status write (R88, D32). -/
def Device.acceptsStatus (wp : Pin) (d : Device) : Prop :=
  d.wel = true ∧ (d.wpen = false ∨ wp = .deasserted)

theorem Device.writeStatus_accepted {wp : Pin} {d : Device} (v : Byte) (e : Env) (hidle : d.wip = 0)
    (h : d.acceptsStatus wp) :
    d.writeStatus wp v e =
      ({ d with
          pl := v.extractLsb' 2 2
          wpen := v.getLsbD 7
          wip := e.drawCycle.1
          wel := decide (e.drawCycle.1 ≠ 0) }, e.drawCycle.2) :=
  (if_pos (by simpa [Device.acceptsStatus] using h)).trans (Device.startCycle_eq e h.1 hidle)

theorem Device.writeStatus_refused {wp : Pin} {d : Device} (v : Byte) (e : Env) (h : ¬ d.acceptsStatus wp) :
    d.writeStatus wp v e = (d, e) :=
  if_neg (by simpa [Device.acceptsStatus] using h)

/-- Settles O25: `Device.acceptsStatus` is the test of R88, and an accepted status write starts a cycle (R92). -/
theorem statusWriteAcceptance : Obligations.StatusWriteAcceptance := by
  intro c wp d e v hinj hawake hidle d' e' hdes
  rw [Device.deselect_taken hinj wp e (Device.listens_of_awake_idle hawake hidle _)] at hdes
  simp only [Device.perform] at hdes
  constructor <;> intro h
  · rw [Device.writeStatus_accepted (d := { d with window := [] }) v e hidle h] at hdes
    cases hdes
    exact ⟨rfl, rfl, rfl, rfl, hawake, rfl, rfl, rfl⟩
  · rw [Device.writeStatus_refused (d := { d with window := [] }) v e h] at hdes
    cases hdes
    exact ⟨rfl, rfl⟩

/-- What the device tests before a write at `a` with payload `p` (R89). -/
def Device.acceptsBurst (c : Config) (d : Device) (a : Nat) (p : List Byte) : Prop :=
  d.wel = true ∧ a < c.cap ∧ p ≠ [] ∧
    ∀ k, k < p.length → burstTarget c.page a k < c.cap ∧ d.protects c (burstTarget c.page a k) = false

theorem Device.writeBurst_accepted {c : Config} {d : Device} {a : Nat} {p : List Byte} (e : Env) (hidle : d.wip = 0)
    (h : d.acceptsBurst c a p) :
    d.writeBurst c a p e =
      ({ d with
          arr := Memory.writeAll d.arr (((List.range p.length).map (burstTarget c.page a)).zip p)
          wip := e.drawCycle.1
          wel := decide (e.drawCycle.1 ≠ 0) }, e.drawCycle.2) :=
  (if_pos (by simpa [Device.acceptsBurst, and_assoc] using h)).trans (Device.startCycle_eq e h.1 hidle)

theorem Device.writeBurst_refused {c : Config} {d : Device} {a : Nat} {p : List Byte} (e : Env)
    (h : ¬ d.acceptsBurst c a p) : d.writeBurst c a p e = (d, e) :=
  if_neg (by simpa [Device.acceptsBurst, and_assoc] using h)

/-- Of the payload bytes written, each of the last page's worth is read back at its target: no later one has the same (R89). -/
theorem Memory.read_writeAll_burst {page a k : Nat} {p : List Byte} {b : Byte} {m : Memory} (hm : Memory.wf m = true)
    (hk : p[k]? = some b) (hlast : p.length ≤ k + page) :
    Memory.read (Memory.writeAll m (((List.range p.length).map (burstTarget page a)).zip p)) (burstTarget page a k) = b := by
  have hread := Memory.read_writeAll_last (burstTarget page a) b p 0 k m hm hk
    fun j hj hj' => burstTarget_ne (by omega) (by omega)
  simpa [List.range_eq_range'] using hread

/-- Settles O26: `Device.acceptsBurst` is the test of R89; within a page no two payload bytes share a target. -/
theorem writeBurstLandsInItsPage : Obligations.WriteBurstLandsInItsPage := by
  intro c wp d e a p hinj hpage hwf hawake hidle d' e' hdes
  rw [Device.deselect_taken hinj wp e (Device.listens_of_awake_idle hawake hidle _)] at hdes
  simp only [Device.perform] at hdes
  constructor <;> intro h
  · rw [Device.writeBurst_accepted (d := { d with window := [] }) e hidle h] at hdes
    cases hdes
    exact ⟨fun k b hk hlast => Memory.read_writeAll_burst hwf hk hlast, fun k => burstTarget_page _ k hpage, rfl, rfl, rfl⟩
  · rw [Device.writeBurst_refused (d := { d with window := [] }) e h] at hdes
    cases hdes
    exact ⟨rfl, rfl⟩

/-! ### Erases -/

/-- What the device tests before an erase of `n` bytes from `lo`, asked for at address `a` (R91, R95). -/
def Device.acceptsErase (c : Config) (d : Device) (i : Opcode) (a lo n : Nat) : Prop :=
  d.wel = true ∧ a < c.cap ∧ (∀ x, lo ≤ x → x < lo + n → d.protects c x = false) ∧
    ¬ (i = .chipErase ∧ d.wpen = true ∧ levelOf d.pl ≠ .none)

theorem Device.mayErase_iff {c : Config} {d : Device} {i : Opcode} {lo n : Nat} :
    d.mayErase c i lo n = true ↔ (∀ x, lo ≤ x → x < lo + n → d.protects c x = false) ∧
      ¬ (i = .chipErase ∧ d.wpen = true ∧ levelOf d.pl ≠ .none) := by
  have hrange : (∀ k, k < n → d.protects c (lo + k) = false) ↔ ∀ x, lo ≤ x → x < lo + n → d.protects c x = false :=
    ⟨fun h x hlo hx => by simpa [Nat.add_sub_cancel' hlo] using h (x - lo) (by omega),
      fun h k hk => h (lo + k) (by omega) (by omega)⟩
  rw [Device.mayErase, Bool.and_eq_true, ← hrange, Bool.not_eq_true', ← Bool.not_eq_true]
  simp only [List.all_eq_true, List.mem_range, Bool.not_eq_true', Bool.and_eq_true, beq_iff_eq, bne_iff_ne, and_assoc]

theorem Device.eraseAt_accepted {c : Config} {d : Device} {i : Opcode} {a lo n : Nat} (e : Env) (hidle : d.wip = 0)
    (hx : eraseExtent c d.sector i a = (lo, n)) (h : d.acceptsErase c i a lo n) :
    d.eraseAt c i a e =
      ({ d with
          arr := Memory.fill d.arr lo n d.erased
          wip := e.drawCycle.1
          wel := decide (e.drawCycle.1 ≠ 0) }, e.drawCycle.2) := by
  obtain ⟨hwel, ha, hmay⟩ := h
  simp only [Device.eraseAt, hx]
  rw [if_pos (by simp [hwel, ha, Device.mayErase_iff.mpr hmay])]
  exact Device.startCycle_eq e hwel hidle

theorem Device.eraseAt_refused {c : Config} {d : Device} {i : Opcode} {a lo n : Nat} (e : Env)
    (hx : eraseExtent c d.sector i a = (lo, n)) (h : ¬ d.acceptsErase c i a lo n) : d.eraseAt c i a e = (d, e) := by
  rw [Device.acceptsErase, ← Device.mayErase_iff] at h
  simp only [Device.eraseAt, hx]
  exact if_neg (by simpa [and_assoc] using h)

/-- The three erases are one operation, told apart by their opcode (R91). -/
theorem Device.perform_erase {a : Addr} {i : Instr} (hi : i ∈ [Instr.pe a, .se a, .ce a]) (c : Config) (wp : Pin)
    (d : Device) (e : Env) : d.perform c wp i e = d.eraseAt c i.opcode a.toNat e := by
  fin_cases hi <;> rfl

theorem erase_eq_ce_iff {a : Addr} {i : Instr} (hi : i ∈ [Instr.pe a, .se a, .ce a]) : i = .ce a ↔ i.opcode = .chipErase := by
  fin_cases hi <;> simp [Instr.opcode]

/-- Settles O27: `Device.acceptsErase` is the test of R91 and R95, and the whole extent is filled. -/
theorem eraseClearsItsExtent : Obligations.EraseClearsItsExtent := by
  intro c wp d e a i lo n hinj hwf hawake hidle hi hx d' e' hdes
  rw [Device.deselect_taken hinj wp e (Device.listens_of_awake_idle hawake hidle _), Device.perform_erase hi] at hdes
  rw [erase_eq_ce_iff hi]
  constructor <;> intro h
  · rw [Device.eraseAt_accepted (d := { d with window := [] }) e hidle hx h] at hdes
    cases hdes
    refine ⟨fun x hlo hhi => ?_, rfl, rfl, rfl⟩
    exact (Memory.read_fill n lo d.erased d.arr x hwf).trans (if_pos ⟨hlo, hhi⟩)
  · rw [Device.eraseAt_refused (d := { d with window := [] }) e hx h] at hdes
    cases hdes
    exact ⟨rfl, rfl⟩

/-! ### Reads -/

/-- R90: while it hears a read, the device names the array's byte at the address plus the data bytes so far. -/
theorem Device.reply_read {c : Config} {d : Device} {a : Addr} {data : List Byte}
    (h : d.heard c (header c.opc .read a ++ data) = some .read) :
    d.reply c (header c.opc .read a ++ data) =
      if a.toNat + data.length < c.cap then some (Memory.read d.arr (a.toNat + data.length)) else none := by
  simp only [Device.reply, h]
  simp [header_eq, addrOf_bytes]

/-- R90: during the header no byte is named. -/
theorem Device.reply_read_header {c : Config} {d : Device} {m : List Byte} (h : d.heard c m = some .read)
    (hlen : m.length < 4) : d.reply c m = none := by
  simp only [Device.reply, h]
  match m, hlen with
  | [], _ | [_], _ | [_, _], _ | [_, _, _], _ => rfl

/-- Settles O28: the device hears a read from the opcode byte on; four bytes of it are the header, the rest counts the data. -/
theorem readAnswersConsecutiveBytes : Obligations.ReadAnswersConsecutiveBytes := by
  intro c wp d e a x hinj hawake hidle
  have hlistens := Device.listens_of_awake_idle hawake hidle
  have hheard : ∀ k, 0 < k → d.heard c ((encode c (.read a x)).take k) = some .read :=
    fun k hk => Device.heard_take_taken hinj (hlistens _) hk
  refine ⟨fun k hk => ?_, fun k hk => ?_, Device.deselect_taken hinj wp e (hlistens _)⟩
  · have htake : (encode c (.read a x)).take (4 + k) = header c.opc .read a ++ x.take k := by
      simp [encode, header_eq, Nat.add_comm 4 k]
    have h := hheard (4 + k) (by omega)
    rw [htake] at h ⊢
    rw [Device.reply_read h, List.length_take, min_eq_left hk]
  · rcases Nat.eq_zero_or_pos k with rfl | hpos
    · rfl
    · exact Device.reply_read_header (hheard k hpos) (by simp; omega)

/-! ### The device at the end of a completed frame -/

/-- Every instruction whose events succeed answers a state whose device was deselected after exactly its frame (R83). -/
theorem exec_device (i : Instr) {s : State} {d : Device} (hm : s.mode ≠ .held) (hcs : s.cs ≠ .asserted)
    (hlink : s.link = .reference d) (hok : Env.okNext (callCount i + 2) s.env = true) :
    ∃ t, exec i s = .next t ∧
      ∃ e, t.link = .reference (Device.deselect s.cfg s.wp { d with window := encode s.cfg i } e).1 := by
  cases i with
  | read a buf => exact ⟨_, execRead_ok hm hok, afterFetch_device _ buf hlink hcs⟩
  | write a p => exact ⟨_, execWrite_ok hm hok, afterBurst_device _ p hlink hcs⟩
  | wren => exact ⟨_, execWren_ok hm hok, afterSend_device _ hlink hcs⟩
  | wrdi => exact ⟨_, execWrdi_ok hm hok, afterSend_device _ hlink hcs⟩
  | rdsr => exact ⟨_, execRdsr_ok hm hok, afterExchange_device _ hlink hcs⟩
  | wrsr v => exact ⟨_, execWrsr_ok hm hok, afterSend_device _ hlink hcs⟩
  | pe a => exact ⟨_, execPe_ok hm hok, afterSend_device _ hlink hcs⟩
  | se a => exact ⟨_, execSe_ok hm hok, afterSend_device _ hlink hcs⟩
  | ce a => exact ⟨_, execCe_ok hm hok, afterSend_device _ hlink hcs⟩
  | rpd => exact ⟨_, execRpd_ok hm hok, afterExchange_device _ hlink hcs⟩
  | dpd => exact ⟨_, execDpd_ok hm hok, afterSend_device _ hlink hcs⟩

/-- Settles O20: an instruction answers one state, the one `exec_device` describes. -/
theorem deviceHearsTheEncodedFrame : Obligations.DeviceHearsTheEncodedFrame := by
  intro i s t d hm hcs hlink hok hex
  obtain ⟨u, hu, hdevice⟩ := exec_device i hm hcs hlink hok
  cases hu.symm.trans hex
  exact hdevice

/-- The oracle stays at the other end, however the frame ends (R81). -/
theorem exec_keeps_oracle {i : Instr} {s t : State} (hlink : s.link = .oracle) (h : exec i s = .next t) :
    t.link = .oracle := by
  by_cases hm : s.mode = .held
  · rw [exec_held i hm] at h
    cases h
  rcases (exec_spec i hm).cases with ⟨u, -, he, hran, -⟩ | ⟨ev, k, u, -, -, he, -, -, -, hkeep, hrelease⟩ |
    ⟨ev, u, -, he, -, -, hran, -⟩ | ⟨ev, u, u', -, he, hlatch, -, -, -, hran, -⟩
  all_goals
    rw [he] at h
    cases h
  · exact hran.oracle hlink
  · cases hcs : s.cfg.csErr with
    | false => exact (hkeep hcs).1.oracle hlink
    | true => exact (hrelease hcs).1.oracle hlink
  · exact hran.oracle hlink
  · rcases hlatch with rfl | ⟨-, b, rfl⟩ <;> exact hran.oracle hlink

theorem Device.writeStatus_arr (wp : Pin) (v : Byte) (d : Device) (e : Env) : (d.writeStatus wp v e).1.arr = d.arr := by
  unfold Device.writeStatus
  split
  · exact Device.startCycle_arr _ e
  · rfl

/-- An instruction that is no write and no erase stores nothing in the array (R86 to R93). -/
theorem Device.perform_arr {c : Config} {wp : Pin} {i : Instr}
    (hi : i.opcode ∉ [Opcode.write, .pageErase, .sectorErase, .chipErase]) (d : Device) (e : Env) :
    (d.perform c wp i e).1.arr = d.arr := by
  cases i with
  | write | pe | se | ce => simp [Instr.opcode] at hi
  | rdsr => exact d.countDown_arr
  | wrsr v => exact d.writeStatus_arr wp v e
  | _ => rfl

/-- Taken or not, a frame changes a byte of the array only if its effect does. -/
theorem Device.deselect_encode_read {c : Config} (h : c.opc.injective = true) {wp : Pin} {d : Device} {i : Instr} {e : Env}
    {x : Nat} (hx : Memory.read (Device.perform c wp i { d with window := [] } e).1.arr x = Memory.read d.arr x) :
    Memory.read (Device.deselect c wp { d with window := encode c i } e).1.arr x = Memory.read d.arr x := by
  cases hd : d.listens i.opcode with
  | true => rwa [Device.deselect_taken h wp e hd]
  | false => rw [Device.deselect_ignored h wp e hd]

/-- Settles O19: the device hears the encoded frame (`deviceHearsTheEncodedFrame`), and the effect of each instruction keeps to
its own bytes. -/
theorem instructionArrayFrame : Obligations.InstructionArrayFrame := by
  intro i s t hm hok hex
  refine ⟨fun hlink => exec_keeps_oracle hlink hex, fun d hlink hwf hcs hinj => ?_⟩
  obtain ⟨e, ht⟩ := deviceHearsTheEncodedFrame i s t d hm hcs hlink hok hex
  have hread : ∀ x, Memory.read (Device.perform s.cfg s.wp i { d with window := [] } e).1.arr x = Memory.read d.arr x →
      Memory.read t.memory x = Memory.read s.memory x := by
    intro x hx
    simpa only [State.memory, ht, hlink] using Device.deselect_encode_read hinj hx
  refine ⟨fun hi x => hread x (by rw [Device.perform_arr hi]), ?_, ?_⟩
  · rintro a p rfl x hx
    exact hread x (Device.writeBurst_arr s.cfg a.toNat p { d with window := [] } e hwf x hx)
  · intro a lo n hi hextent x hx
    refine hread x ?_
    rw [Device.perform_erase hi]
    exact Device.eraseAt_arr s.cfg i.opcode a.toNat { d with window := [] } e hwf x (by simpa only [hextent] using hx)

end Sys2Proof.Machine
end

section
/-! The command word, the operands of a request, and the frame a step decodes (30_encoding.md R100, R106, R114). -/

namespace Sys2Proof

/-- The command word is the opcode byte before the address (R100). -/
theorem commandWord_eq_append (m : OpcodeMap) (i : Opcode) (a : Addr) : commandWord m i a = m.get i ++ a := by
  simp only [BitVec.append_def, BitVec.shiftLeftZeroExtend_eq, BitVec.setWidth'_eq, commandWord]

theorem commandWord_opcode (m : OpcodeMap) (i : Opcode) (a : Addr) : (commandWord m i a).extractLsb' 24 8 = m.get i := by
  rw [commandWord_eq_append]
  exact BitVec.extractLsb'_append_eq_left

theorem commandWord_address (m : OpcodeMap) (i : Opcode) (a : Addr) : (commandWord m i a).extractLsb' 0 24 = a := by
  rw [commandWord_eq_append]
  exact BitVec.extractLsb'_append_eq_right

/-- Settles O1: the fields are those of the command word at any opcode, `Read` and `Write` among them, and its wire bytes are the
header's (`header_eq`). -/
theorem commandWordHoldsOpcodeAndAddress : Obligations.CommandWordHoldsOpcodeAndAddress := fun m i a =>
  ⟨rfl, commandWord_opcode m i a, commandWord_address m i a, header_eq m i a,
    (commandWord_address m .read a).trans (commandWord_address m .write a).symm,
    commandWord_opcode m .read a, commandWord_opcode m .write a⟩

/-- Settles O30, request by request: a numeric operand is tested against its width, and the operand of a closed set decides the
rest of the test. -/
theorem operandValidity : Obligations.OperandValidity := by
  refine ⟨fun a buf => ⟨rfl, rfl⟩, fun a g => ?_, fun a i => ?_, fun v => ⟨rfl, rfl, rfl, rfl, rfl⟩, fun b l => ?_,
    fun b e => ?_, fun off buf => ⟨rfl, rfl⟩⟩
  · exact ⟨Bool.and_true _, Bool.and_false _⟩
  · exact ⟨rfl, rfl⟩
  · exact ⟨Bool.and_true _, Bool.and_false _⟩
  · exact (Bool.decide_and _ _).symm

namespace Machine

/-- A frame line runs the instruction its bytes decode to (R106). -/
theorem runFrame_of_decode {bs : List Byte} {i : Instr} {s : State} (h : decode s.cfg bs = .ok i) :
    runFrame bs s = exec i s := by
  simp only [runFrame, h]

/-- With no request presented, a step runs the instruction that the frame on the next line decodes to. -/
theorem step_frame {s : State} {bs : List Byte} {rest : List Line} {i : Instr} (hwf : s.cfg.wf = true)
    (hport : s.port = none) (htodo : s.todo = .frame bs :: rest) (hdec : decode s.cfg bs = .ok i) :
    step s = exec i { s with todo := rest } :=
  (step_line hwf hport htodo).trans (runFrame_of_decode hdec)

/-- Settles O35: a placed word is the next line of a state without a request, so both parts are `step_frame`. -/
theorem stepRunsTheDecodedInstruction : Obligations.StepRunsTheDecodedInstruction :=
  ⟨fun _ _ _ _ hwf hport htodo hdec => step_frame hwf hport htodo hdec,
    fun s nbits w _ hwf hdec => step_frame (s := s.withFetchWord nbits w) hwf rfl rfl hdec⟩

end Machine
end Sys2Proof
end

section
/-! The status-register codec, bit by bit (40_encoder_and_status.md R133 to R140). -/

namespace Sys2Proof.Machine

@[simp] theorem codeOf_levelOf (c : BitVec 2) : codeOf (levelOf c) = c := by
  revert c
  decide

@[simp] theorem levelOf_codeOf (l : Protection) : levelOf (codeOf l) = l := by
  cases l <;> rfl

/-- R137: bits 3:2 are the code of the level, every other bit is copied. -/
theorem getLsbD_srSetPl (b : Byte) (l : Protection) (k : Nat) :
    (srSetPl b l).getLsbD k = if k = 2 ∨ k = 3 then (codeOf l).getLsbD (k - 2) else b.getLsbD k := by
  rcases Nat.lt_or_ge k 8 with hk | hk
  · interval_cases k <;> simp [srSetPl]
  · rw [if_neg (by omega), BitVec.getLsbD_of_ge _ _ hk, BitVec.getLsbD_of_ge _ _ hk]

/-- R138: bit 7 is the bit given, every other bit is copied. -/
theorem getLsbD_srSetWpen (b : Byte) (e : Bool) (k : Nat) :
    (srSetWpen b e).getLsbD k = if k = 7 then e else b.getLsbD k := by
  rcases Nat.lt_or_ge k 8 with hk | hk
  · interval_cases k <;> simp [srSetWpen]
  · rw [if_neg (by omega), BitVec.getLsbD_of_ge _ _ hk, BitVec.getLsbD_of_ge _ _ hk]

theorem codeOf_srPl (b : Byte) : codeOf (srPl b) = b.extractLsb' 2 2 :=
  codeOf_levelOf _

/-- The level read depends on bits 3:2 alone (R135). -/
theorem srPl_eq_levelOf {b : Byte} {c : BitVec 2} (h : ∀ k < 2, b.getLsbD (2 + k) = c.getLsbD k) : srPl b = levelOf c := by
  rw [srPl]
  congr 1
  apply BitVec.eq_of_getLsbD_eq
  intro k hk
  simp [hk, h k hk]

@[simp] theorem srPl_srSetPl (b : Byte) (l : Protection) : srPl (srSetPl b l) = l := by
  refine (srPl_eq_levelOf fun k hk => ?_).trans (levelOf_codeOf l)
  rw [getLsbD_srSetPl, if_pos (by omega), Nat.add_sub_cancel_left]

@[simp] theorem srBusy_srSetPl (b : Byte) (l : Protection) : srBusy (srSetPl b l) = srBusy b :=
  getLsbD_srSetPl b l 0

@[simp] theorem srWel_srSetPl (b : Byte) (l : Protection) : srWel (srSetPl b l) = srWel b :=
  getLsbD_srSetPl b l 1

@[simp] theorem srWpen_srSetPl (b : Byte) (l : Protection) : srWpen (srSetPl b l) = srWpen b :=
  getLsbD_srSetPl b l 7

@[simp] theorem srWpen_srSetWpen (b : Byte) (e : Bool) : srWpen (srSetWpen b e) = e :=
  getLsbD_srSetWpen b e 7

@[simp] theorem srBusy_srSetWpen (b : Byte) (e : Bool) : srBusy (srSetWpen b e) = srBusy b :=
  getLsbD_srSetWpen b e 0

@[simp] theorem srWel_srSetWpen (b : Byte) (e : Bool) : srWel (srSetWpen b e) = srWel b :=
  getLsbD_srSetWpen b e 1

@[simp] theorem srPl_srSetWpen (b : Byte) (e : Bool) : srPl (srSetWpen b e) = srPl b := by
  refine srPl_eq_levelOf fun k hk => ?_
  rw [getLsbD_srSetWpen, if_neg (by omega)]
  simp [hk]

/-- A level that a byte has already is set without a change. -/
@[simp] theorem srSetPl_srPl (b : Byte) : srSetPl b (srPl b) = b := by
  apply BitVec.eq_of_getLsbD_eq
  intro k _
  rw [getLsbD_srSetPl, codeOf_srPl]
  split
  · next hfield => rcases hfield with rfl | rfl <;> simp
  · rfl

/-- A WPEN bit that a byte has already is set without a change. -/
@[simp] theorem srSetWpen_srWpen (b : Byte) : srSetWpen b (srWpen b) = b := by
  apply BitVec.eq_of_getLsbD_eq
  intro k _
  rw [getLsbD_srSetWpen]
  split
  · next hseven => rw [hseven, srWpen]
  · rfl

/-- Settles O2: neither of the two setters changes the byte. -/
theorem statusReencodeRoundTrip : Obligations.StatusReencodeRoundTrip := by
  intro b
  rw [srSetPl_srPl, srSetWpen_srWpen]

/-- Settles O3, accessor by accessor. -/
theorem statusSetThenGet : Obligations.StatusSetThenGet := fun b l e =>
  ⟨srPl_srSetPl b l, srBusy_srSetPl b l, srWel_srSetPl b l, srWpen_srSetPl b l,
    srWpen_srSetWpen b e, srBusy_srSetWpen b e, srWel_srSetWpen b e, srPl_srSetWpen b e⟩

end Sys2Proof.Machine
end

section
/-! The frames of the eleven instructions (41_frame_protocol.md): what a completed frame leaves, where a frame can fail, and that
the events of a step are those of at most one frame. -/

namespace Sys2Proof.Machine

/-! ### Completed frames -/

@[simp] theorem opened_buf (s : State) : s.opened.buf = s.buf :=
  afterSignal_buf .cs .asserted s

@[simp] theorem closed_buf (s : State) : s.closed.buf = s.buf :=
  afterSignal_buf .cs .deasserted s

theorem raise_kept (e : ErrorKind) (s : State) : Kept s (raise e s) := by
  constructor <;> rfl

theorem latch_kept (b : Byte) (s : State) : Kept s (s.latch b) := by
  constructor <;> rfl

/-- The data phase of a read changes the host buffer alone, which `Ran` does not speak of. -/
theorem Ran.fillBuffer {ev : List Event} {s t : State} (h : Ran ev s t) (rs : List Byte) : Ran ev s (t.fillBuffer rs) where
  trace := h.trace
  env := h.env
  pc := h.pc
  kept := h.kept.trans (by constructor <;> rfl)
  life := h.life
  todo := h.todo
  got := h.got
  result := h.result
  oracle := h.oracle

/-- The channel calls of an opened frame, with the two chip-select events around them (R153). -/
theorem Ran.closed {calls : List Event} {s t : State} (h : Ran calls s.opened t) : Ran (bracket calls) s t.closed :=
  ((ran_select .asserted s).trans h).trans (ran_select .deasserted t)

/-- What a frame leaves when all its events have succeeded (R168). -/
theorem Ran.frameDone {calls : List Event} {s t : State} (h : Ran calls s.opened t) : FrameDone calls s t.closed where
  trace := h.closed.trace
  cs := afterSignal_cs_cs .deasserted t
  pc := by simpa [bracket] using h.closed.pc
  kept := h.closed.kept
  life := h.closed.life
  todo := h.closed.todo
  result := h.closed.result

/-- Keeping the byte a frame returned changes nothing else (R36). -/
theorem FrameDone.latch {calls : List Event} {s t : State} (h : FrameDone calls s t) (b : Byte) :
    FrameDone calls s (t.latch b) where
  trace := h.trace
  cs := h.cs
  pc := h.pc
  kept := h.kept.trans (latch_kept b t)
  life := h.life
  todo := h.todo
  result := h.result

theorem afterSend_done (bs : List Byte) (s : State) :
    FrameDone [.write bs true] s (s.afterSend bs) ∧ (s.afterSend bs).got = s.got ∧ (s.afterSend bs).buf = s.buf := by
  have hran := ran_write bs s.opened
  exact ⟨hran.frameDone, hran.closed.got, by simp [State.afterSend]⟩

theorem afterBurst_done (hdr d : List Byte) (s : State) :
    FrameDone [.write hdr true, .write d true] s (s.afterBurst hdr d) ∧ (s.afterBurst hdr d).got = s.got ∧
      (s.afterBurst hdr d).buf = s.buf := by
  have hran := (ran_write hdr s.opened).trans (ran_write d (s.opened.afterWrite hdr))
  exact ⟨hran.frameDone, hran.closed.got, by simp [State.afterBurst]⟩

theorem afterExchange_done (bs : List Byte) (s : State) :
    FrameDone [.xfer bs (some (s.opened.received bs))] s (s.afterExchange bs) ∧ (s.afterExchange bs).buf = s.buf :=
  ⟨(ran_xfer bs s.opened).frameDone, by simp [State.afterExchange]⟩

/-- Settles O11: each of the seven is one half-duplex send, and `afterSend_done` says what it leaves. -/
theorem sendingFramesComplete : Obligations.SendingFramesComplete := by
  intro s hm hok
  exact ⟨⟨_, execWren_ok hm hok, afterSend_done _ s⟩, ⟨_, execWrdi_ok hm hok, afterSend_done _ s⟩,
    ⟨_, execDpd_ok hm hok, afterSend_done _ s⟩, fun _ => ⟨_, execWrsr_ok hm hok, afterSend_done _ s⟩,
    fun _ => ⟨_, execPe_ok hm hok, afterSend_done _ s⟩, fun _ => ⟨_, execSe_ok hm hok, afterSend_done _ s⟩,
    fun _ => ⟨_, execCe_ok hm hok, afterSend_done _ s⟩⟩

/-- Settles O12: as many bytes are received as sent, which are two (R152). -/
theorem statusReadFrameCompletes : Obligations.StatusReadFrameCompletes := by
  intro s hm hok
  obtain ⟨hdone, hbuf⟩ := afterExchange_done [s.cfg.opc.get .readStatus, 0x00] s
  have hex := execRdsr_ok hm hok
  obtain ⟨r0, r1, hrs⟩ := List.length_eq_two.mp (received_length [s.cfg.opc.get .readStatus, 0x00] s.opened)
  rw [hrs] at hdone hex
  exact ⟨_, r0, r1, hex, hdone.latch r1, rfl, hbuf⟩

/-- Settles O13: one byte more is received than there are dummy bytes (R104), so the byte kept is the last one. -/
theorem identityFrameCompletes : Obligations.IdentityFrameCompletes := by
  intro s hm hok
  obtain ⟨hdone, hbuf⟩ := afterExchange_done (s.cfg.opc.get .releasePowerDown :: zeroBytes (idDummies s.cfg)) s
  have hex := execRpd_ok hm hok
  have hlength := received_length (s.cfg.opc.get .releasePowerDown :: zeroBytes (idDummies s.cfg)) s.opened
  obtain hrs | ⟨rs, id, hrs⟩ := List.eq_nil_or_concat'
    (s.opened.received (s.cfg.opc.get .releasePowerDown :: zeroBytes (idDummies s.cfg)))
  · simp [hrs] at hlength
  · rw [hrs] at hdone hex hlength
    have hrest : rs.length = idDummies s.cfg := by simpa [zeroBytes] using hlength
    refine ⟨_, rs, id, hex, hrest, hdone.latch _, ?_, hbuf⟩
    simp [← hrest]

/-- Settles O15: two half-duplex sends, whatever the payload (R164). -/
theorem writeFrameCompletes : Obligations.WriteFrameCompletes := by
  intro s a d hm hok
  exact ⟨_, execWrite_ok hm hok, afterBurst_done _ d s⟩

/-! ### Where a frame can fail -/

theorem Env.failsAfter_dropOutcomes {j k : Nat} {e : Env} (h : Env.failsAfter (j + k) e) :
    Env.failsAfter k (e.dropOutcomes j) := by
  induction j generalizing e with
  | zero => rwa [Nat.zero_add] at h
  | succ j ih =>
    rw [Nat.succ_add] at h
    exact ih (Env.failsAfter_succ.mp h).2

/-- The first event to fail after the events `ev` is still to come when they have been issued. -/
theorem Ran.failsAfter {ev : List Event} {s t : State} {k : Nat} (h : Ran ev s t)
    (hfail : Env.failsAfter (ev.length + k) s.env) : Env.failsAfter k t.env :=
  (Env.failsAfter_congr h.env).mpr (Env.failsAfter_dropOutcomes hfail)

/-- The channel calls of an opened frame, with the assertion before them and the failed closing event after them (R155). -/
theorem Ran.close_fails {calls : List Event} {s t : State} (h : Ran calls s.opened t) :
    Ran (closing false calls) s (t.drawn.record (.sig .cs .deasserted false)).scramble := by
  simpa [closing] using (((ran_select .asserted s).trans h).trans (ran_record (.sig .cs .deasserted false) t)).trans
    (ran_scramble _)

/-- A frame whose closing event alone fails has done its calls (R155). -/
theorem issueFrame_close_fails {α : Type} {c : State → Ev α} {f : α → State → State} {s t : State} {v : α}
    (hm : s.mode ≠ .held) (hselect : s.outcome = true) (hcalls : c s.opened = .done v t) (hclose : t.outcome = false) :
    issueFrame c f s = .next (raise .signalError (t.drawn.record (.sig .cs .deasserted false)).scramble) := by
  have hopened : c (s.afterSignal .cs .asserted) = .done v t := hcalls
  simp only [issueFrame, if_neg hm, frame, signal_ok hselect, hopened, signal_fail hclose, Ev.settle]

/-- What an instruction answers when chip-select cannot be asserted. -/
theorem exec_select_fails (i : Instr) {s : State} (hm : s.mode ≠ .held) (hfail : Env.failsAfter 0 s.env) :
    ∃ t, exec i s = .next (raise .signalError t) ∧ Ran [.sig .cs .asserted false] s t ∧ t.cs = s.cs := by
  rcases (exec_spec i hm).cases with ⟨t, -, hex, hran, hcs, -⟩ | ⟨ev, k, t, -, hat, -⟩ | ⟨ev, t, hat, -⟩ | ⟨ev, t, u, hok, -⟩
  · exact ⟨t, hex, hran, hcs⟩
  · exact absurd (Env.failsAfter_unique hfail hat) (by omega)
  · exact absurd (Env.failsAfter_unique hfail hat) (by omega)
  · exact absurd (Env.failsAfter_ok hfail hok) (by omega)

/-- What an instruction answers when its channel call `k`, counted from 0, is the first event to fail. -/
theorem exec_call_fails (i : Instr) {s : State} {k : Nat} (hm : s.mode ≠ .held) (hk : k < callCount i)
    (hfail : Env.failsAfter (k + 1) s.env) :
    ∃ ev t, exec i s = .next (raise .transportError t) ∧ ev.length = k + 1 ∧ ev.all Event.isCall = true ∧ t.buf = s.buf ∧
      (s.cfg.csErr = false → Ran (.sig .cs .asserted true :: ev) s t ∧ t.cs = .asserted) ∧
      (s.cfg.csErr = true → Ran (closing (Env.outcomeAfter (k + 2) s.env) ev) s t ∧
        t.cs = if Env.outcomeAfter (k + 2) s.env then .deasserted else .asserted) := by
  rcases (exec_spec i hm).cases with ⟨t, hat, -⟩ | ⟨ev, j, t, -, hat, hex, hrest⟩ | ⟨ev, t, hat, -⟩ | ⟨ev, t, u, hok, -⟩
  · exact absurd (Env.failsAfter_unique hfail hat) (by omega)
  · obtain rfl : k = j := Nat.succ.inj (Env.failsAfter_unique hfail hat)
    exact ⟨ev, t, hex, hrest⟩
  · exact absurd (Env.failsAfter_unique hfail hat) (by omega)
  · exact absurd (Env.failsAfter_ok hfail hok) (by omega)

/-- What an instruction answers when chip-select cannot be deasserted at its end. -/
theorem exec_close_fails (i : Instr) {s : State} (hm : s.mode ≠ .held) (hfail : Env.failsAfter (callCount i + 1) s.env) :
    ∃ ev t, exec i s = .next (raise .signalError t) ∧ ev.length = callCount i ∧ ev.all Event.isCall = true ∧
      Ran (closing false ev) s t ∧ t.cs = .asserted := by
  rcases (exec_spec i hm).cases with ⟨t, hat, -⟩ | ⟨ev, k, t, hk, hat, -⟩ | ⟨ev, t, -, hex, hlen, hcall, hran, hcs, -⟩ |
    ⟨ev, t, u, hok, -⟩
  · exact absurd (Env.failsAfter_unique hfail hat) (by omega)
  · exact absurd (Env.failsAfter_unique hfail hat) (by omega)
  · exact ⟨ev, t, hex, hlen, hcall, hran, hcs⟩
  · exact absurd (Env.failsAfter_ok hfail hok) (by omega)

/-- Settles O17: one lemma for each of the three places. -/
theorem failureInsideFrame : Obligations.FailureInsideFrame := by
  intro i s hm
  refine ⟨fun hfail => ?_, fun k hpos hk hfail => ?_, fun hfail => ?_⟩
  · obtain ⟨t, hex, hran, hcs⟩ := exec_select_fails i hm hfail
    exact ⟨_, hex, rfl, rfl, hcs, hran.trace⟩
  · obtain ⟨k, rfl⟩ := Nat.exists_eq_add_of_le' hpos
    obtain ⟨ev, t, hex, hlen, hcall, -, hkeep, hrelease⟩ := exec_call_fails i hm hk hfail
    exact ⟨_, ev, hex, rfl, rfl, hlen, hcall, fun h => ⟨(hkeep h).2, (hkeep h).1.trace⟩,
      fun h => ⟨(hrelease h).2, by simpa [closing] using (hrelease h).1.trace⟩⟩
  · obtain ⟨ev, t, hex, hlen, hcall, hran, hcs⟩ := exec_close_fails i hm hfail
    exact ⟨_, ev, hex, rfl, rfl, hlen, hcall, hcs, by simpa [closing] using hran.trace⟩

/-! ### The read frame -/

/-- The state after the channel calls of a read. -/
def State.fetched (hdr buf : List Byte) (s : State) : State :=
  ((s.afterWrite hdr).afterXfer buf).fillBuffer ((s.afterWrite hdr).received buf)

theorem ran_fetched (hdr buf : List Byte) (s : State) :
    Ran [.write hdr true, .xfer buf (some ((s.afterWrite hdr).received buf))] s (s.fetched hdr buf) :=
  ((ran_write hdr s).trans (ran_xfer buf (s.afterWrite hdr))).fillBuffer _

/-- The received bytes replace the first ones of the host buffer (R163). -/
theorem fetched_buf (hdr buf : List Byte) (s : State) :
    (s.fetched hdr buf).buf = (s.afterWrite hdr).received buf ++ s.buf.drop buf.length := by
  simp [State.fetched, State.fillBuffer, memWrite, received_length]

theorem readCalls_ok (a : Addr) (buf : List Byte) {s : State} (h : Env.okNext 2 s.env = true) :
    both (sendHeader .read a) (receiveBuffer buf) s = .done () (s.fetched (header s.cfg.opc .read a) buf) := by
  obtain ⟨hheader, h⟩ := okNext_write (header s.cfg.opc .read a) h
  obtain ⟨hdata, -⟩ := okNext_xfer buf h
  simp only [both, sendHeader, chWrite_ok hheader, receiveBuffer, chXfer_ok hdata]
  rfl

/-- A read whose closing event alone fails: the host buffer holds the received bytes (R163). -/
theorem execRead_close_fails (a : Addr) (buf : List Byte) {s : State} (hm : s.mode ≠ .held)
    (hfail : Env.failsAfter 3 s.env) :
    execRead a buf s = .next (raise .signalError
      ((s.opened.fetched (header s.cfg.opc .read a) buf).drawn.record (.sig .cs .deasserted false)).scramble) := by
  obtain ⟨hselect, hok⟩ := okNext_signal .cs .asserted hfail.1
  have hcalls := readCalls_ok a buf (s := s.opened) hok
  rw [show s.opened.cfg = s.cfg from (ran_select .asserted s).kept.cfg] at hcalls
  have hran := (ran_select .asserted s).trans (ran_fetched (header s.cfg.opc .read a) buf s.opened)
  exact issueFrame_close_fails hm hselect hcalls (Env.failsAfter_zero.mp (hran.failsAfter (k := 0) hfail))

/-- Settles O14: the calls of a read leave `State.fetched`, whether the frame then closes or not, and no received byte stands
when the exchange has failed (`exec_call_fails`). -/
theorem readFrameCompletes : Obligations.ReadFrameCompletes := by
  intro s a buf hm
  have hran := ran_fetched (header s.cfg.opc .read a) buf s.opened
  have hbuf := fetched_buf (header s.cfg.opc .read a) buf s.opened
  have hlength := received_length buf (s.opened.afterWrite (header s.cfg.opc .read a))
  rw [opened_buf] at hbuf
  refine ⟨fun hok => ?_, fun hfail => ?_, fun hfail => ?_⟩
  · exact ⟨_, _, execRead_ok hm hok, hlength, hran.frameDone, (closed_buf _).trans hbuf, hran.closed.got⟩
  · obtain ⟨ev, t, hex, -, -, hkept, -⟩ := exec_call_fails (.read a buf) (k := 1) hm Nat.one_lt_two hfail
    exact ⟨_, hex, hkept⟩
  · exact ⟨_, _, execRead_close_fails a buf hm hfail, hlength, by simpa using hbuf, hran.close_fails.trace⟩

/-! ### Mode Held -/

theorem Request.known_of_opName {r : Request} {o : OpName} (h : r.opName = some o) : r.known = true := by
  cases r with
  | unknown name => cases h
  | _ => rfl

/-- An idle Ready block in mode Held refuses a driver operation that issues a frame (R180). -/
theorem admission_framed_held {r : Request} {o : OpName} {s : State} (hidle : s.pc = .idle) (hready : s.life = .ready)
    (hheld : s.mode = .held) (hop : r.opName = some o) (hoperands : r.operandsOk = true) (hframed : o.framedDriver = true) :
    admission r s = some .heldTransaction := by
  have hknown := Request.known_of_opName hop
  simp only [admission, hidle, hknown, hoperands, hop, hready, hheld]
  cases o with
  | init | hold | unhold | storeRead | storeWrite => cases hframed
  | _ => rfl

/-- The lines of a storage operation begin with the bound check and the hold release (R212, R213, R218). -/
theorem storeReadLines_begin (c : Config) (off : Nat) (buf : List Byte) :
    ∃ post, storeReadLines c off buf = [.checkRange off buf.length, .sig .hold .deasserted] ++ .leaveHeld :: post :=
  ⟨_, rfl⟩

theorem storeWriteLines_begin (c : Config) (off len : Nat) :
    ∃ post, storeWriteLines c off len = [.checkRange off len, .sig .hold .deasserted] ++ .leaveHeld :: post :=
  ⟨_, rfl⟩

/-- Settles O16: the instructions by `exec_held` and `exec_next`, the requests by the admission test, and the lines of the
storage operations by their first three. -/
theorem noFrameWhileHeld : Obligations.NoFrameWhileHeld := by
  refine ⟨fun i s hm => exec_held i hm, fun i s hm => exec_next i hm, ?_, fun c off len buf => ⟨?_, ?_⟩⟩
  · intro r o s hidle hready hheld hop _ hoperands hframed
    simp only [accept, admission_framed_held hidle hready hheld hop hoperands hframed]
  · obtain ⟨post, hlines⟩ := storeReadLines_begin c off buf
    exact ⟨_, post, hlines, by simp⟩
  · obtain ⟨post, hlines⟩ := storeWriteLines_begin c off len
    exact ⟨_, post, hlines, by simp⟩

/-! ### Everything an instruction leaves -/

/-- Channel calls may follow a chip-select assertion (R154). -/
theorem frameTail_append {ev : List Event} (h : ev.all Event.isCall = true) (rest : List Event) :
    frameTail (ev ++ rest) = frameTail rest := by
  induction ev with
  | nil => rfl
  | cons v ev ih =>
    simp only [List.all_cons, Bool.and_eq_true] at h
    obtain ⟨hcall, hev⟩ := h
    cases v with
    | sig x l ok => cases hcall
    | write bs ok => exact ih hev
    | xfer bs rs => exact ih hev

theorem frameTrace_calls {ev : List Event} (h : ev.all Event.isCall = true) (ok : Bool) :
    frameTrace (.sig .cs .asserted ok :: ev) = true := by
  simpa [frameTrace, frameTail] using frameTail_append h []

theorem frameTrace_closing {ev : List Event} (h : ev.all Event.isCall = true) (ok : Bool) :
    frameTrace (closing ok ev) = true :=
  frameTail_append h [.sig .cs .deasserted ok]

/-- `u` is `s` after the events `ev` of one frame of instruction `i`, complete or cut off, before its error ends the operation or
its byte is kept. -/
structure FrameRan (i : Instr) (ev : List Event) (s u : State) : Prop where
  ran : Ran ev s u
  atomic : frameTrace ev = true
  buf : writesBuffer i = false → u.buf = s.buf
  tail : ∀ a buf, i = .read a buf → u.buf.drop buf.length = s.buf.drop buf.length

/-- How an instruction leaves the operation after its frame: ended by one of the two errors of R155, or going on, with the
byte of a status or identity frame kept (R36). -/
inductive FrameEnd (i : Instr) (ev : List Event) (u : State) : State → Prop where
  | raised (e : ErrorKind) (he : e = .signalError ∨ e = .transportError) : FrameEnd i ev u (raise e u)
  | silent (hlen : ev.length = callCount i + 2) (hcs : u.cs = .deasserted) : FrameEnd i ev u u
  | kept (hlen : ev.length = callCount i + 2) (hcs : u.cs = .deasserted) (hbyte : returnsByte i = true) (b : Byte) :
    FrameEnd i ev u (u.latch b)

/-- An instruction that answers a next state has issued the events of one frame. -/
theorem exec_frame {i : Instr} {s t : State} (h : exec i s = .next t) : ∃ ev u, FrameRan i ev s u ∧ FrameEnd i ev u t := by
  by_cases hm : s.mode = .held
  · rw [exec_held i hm] at h
    cases h
  rcases (exec_spec i hm).cases with ⟨u, -, he, hran, -, hbuf⟩ | ⟨ev, k, u, -, -, he, -, hcall, hbuf, hkeep, hrelease⟩ |
    ⟨ev, u, -, he, -, hcall, hran, -, hbuf, htail⟩ | ⟨ev, u, u', -, he, hlatch, -, hlen, hcall, hran, hcs, hbuf, htail⟩
  all_goals
    rw [he] at h
    cases h
  · exact ⟨_, u, ⟨hran, rfl, fun _ => hbuf, fun _ _ _ => by rw [hbuf]⟩, .raised _ (.inl rfl)⟩
  · cases hrel : s.cfg.csErr with
    | false =>
      obtain ⟨hran, -⟩ := hkeep hrel
      exact ⟨_, u, ⟨hran, frameTrace_calls hcall true, fun _ => hbuf, fun _ _ _ => by rw [hbuf]⟩, .raised _ (.inr rfl)⟩
    | true =>
      obtain ⟨hran, -⟩ := hrelease hrel
      exact ⟨_, u, ⟨hran, frameTrace_closing hcall _, fun _ => hbuf, fun _ _ _ => by rw [hbuf]⟩, .raised _ (.inr rfl)⟩
  · exact ⟨_, u, ⟨hran, frameTrace_closing hcall false, hbuf, htail⟩, .raised _ (.inl rfl)⟩
  · have hframe : FrameRan i (closing true ev) s u := ⟨hran, frameTrace_closing hcall true, hbuf, htail⟩
    have hlength : (closing true ev).length = callCount i + 2 := by simp [closing, hlen]
    rcases hlatch with rfl | ⟨hbyte, b, rfl⟩
    · exact ⟨_, _, hframe, .silent hlength hcs⟩
    · exact ⟨_, _, hframe, .kept hlength hcs hbyte b⟩

theorem FrameEnd.keeps {i : Instr} {ev : List Event} {u t : State} (h : FrameEnd i ev u t) :
    Kept u t ∧ t.buf = u.buf ∧ t.trace = u.trace := by
  cases h with
  | raised e he => exact ⟨raise_kept e u, rfl, rfl⟩
  | silent hlen hcs => exact ⟨Kept.refl u, rfl, rfl⟩
  | kept hlen hcs hbyte b => exact ⟨latch_kept b u, rfl, rfl⟩

/-- The events of a frame do not change what an error makes of the lifecycle (R184). -/
theorem Ran.raise_life {ev : List Event} {s t : State} (h : Ran ev s t) (e : ErrorKind) :
    (raise e t).life = (raise e s).life := by
  by_cases hinit : ∃ k, s.pc = .op .init k
  · obtain ⟨k, hk⟩ := hinit
    rw [raise_life_init e s k hk, raise_life_init e t (k + ev.length) (by rw [h.pc, hk]; rfl)]
  · rw [raise_life_other e s (not_exists.mp hinit), h.life.symm]
    exact raise_life_other e t fun k hk => hinit (Phase.op_of_plus_eq_op (h.pc.symm.trans hk))

/-- Settles O18: the frame by `FrameRan`, its end by `FrameEnd`. -/
theorem instructionRegisterFrame : Obligations.InstructionRegisterFrame := by
  intro i s t h
  obtain ⟨ev, u, ⟨hran, -, hbuf, htail⟩, hend⟩ := exec_frame h
  obtain ⟨hkept, hbuf', -⟩ := hend.keeps
  refine ⟨hran.kept.trans hkept, by rwa [hbuf'], by rwa [hbuf'], ?_⟩
  cases hend with
  | raised e he => exact .inr ⟨e, he, rfl, rfl, rfl, rfl, hran.raise_life e⟩
  | silent hlen hcs => exact .inl ⟨hlen ▸ hran.pc, hran.life, hran.todo, hran.result, hcs, fun _ => hran.got⟩
  | kept hlen hcs hbyte b =>
    exact .inl ⟨hlen ▸ hran.pc, hran.life, hran.todo, hran.result, hcs, fun hnone => by simp [hbyte] at hnone⟩

/-! ### The events of one step -/

/-- The events added from `s` to `t` are none, one signal event, or those of one frame (R154). -/
def AtomicEvents (s t : State) : Prop :=
  ∃ ev, t.trace = s.trace ++ ev ∧ (ev = [] ∨ (∃ x l ok, ev = [.sig x l ok]) ∨ frameTrace ev = true)

theorem AtomicEvents.none {s t : State} (h : t.trace = s.trace) : AtomicEvents s t :=
  ⟨[], by simp [h], .inl rfl⟩

theorem exec_atomic {i : Instr} {s t : State} (h : exec i s = .next t) : AtomicEvents s t := by
  obtain ⟨ev, u, hframe, hend⟩ := exec_frame h
  obtain ⟨-, -, htrace⟩ := hend.keeps
  exact ⟨ev, htrace.trans hframe.ran.trace, .inr (.inr hframe.atomic)⟩

theorem signal_atomic (x : Signal) (l : Level) (s : State) : AtomicEvents s ((signal x l s).settle noValue) := by
  cases h : s.outcome with
  | true =>
    rw [signal_ok h]
    exact ⟨_, afterSignal_trace x l s, .inr (.inl ⟨x, l, true, rfl⟩)⟩
  | false =>
    rw [signal_fail h]
    exact ⟨_, rfl, .inr (.inl ⟨x, l, false, rfl⟩)⟩

@[simp] theorem checkIdentity_trace (s : State) : (checkIdentity s).trace = s.trace := by
  unfold checkIdentity; split <;> rfl

@[simp] theorem checkBusy_trace (s : State) : (checkBusy s).trace = s.trace := by
  unfold checkBusy; split <;> rfl

@[simp] theorem checkRange_trace (off len : Nat) (s : State) : (checkRange off len s).trace = s.trace := by
  unfold checkRange; split <;> rfl

@[simp] theorem burstLoop_trace (s : State) : (burstLoop s).trace = s.trace := by
  unfold burstLoop; split <;> rfl

@[simp] theorem testPoll_trace (s : State) : (testPoll s).trace = s.trace := by
  simp only [testPoll]
  split
  · split <;> rfl
  · rfl

/-- Only a signal line and a frame line issue events. -/
theorem runLine_atomic {l : Line} {s t : State} (h : runLine l s = .next t) : AtomicEvents s t := by
  cases l with
  | sig x l =>
    cases h
    exact signal_atomic x l s
  | frame bs =>
    simp only [runLine, runFrame] at h
    split at h
    · exact exec_atomic h
    · cases h
  | checkIdentity =>
    cases h
    exact .none (checkIdentity_trace s)
  | checkBusy =>
    cases h
    exact .none (checkBusy_trace s)
  | checkRange off len =>
    cases h
    exact .none (checkRange_trace off len s)
  | burstLoop =>
    cases h
    exact .none (burstLoop_trace s)
  | testPoll =>
    cases h
    exact .none (testPoll_trace s)
  | _ =>
    cases h
    exact .none rfl

/-- Settles O39: a step that takes a request or waits issues no event, and a line issues those of `runLine_atomic`. -/
theorem framesAreAtomic : Obligations.FramesAreAtomic := by
  intro s t h
  rcases step_result h with hacc | ⟨l, rest, -, hrun⟩ | rfl
  · exact AtomicEvents.none hacc.trace
  · exact runLine_atomic (s := { s with todo := rest }) hrun
  · exact AtomicEvents.none rfl

end Sys2Proof.Machine
end

section
/-! Every step keeps the invariant of the block (Safety.lean). What a line leaves of an operation whose plan may run is said
once (`LineKeeps`, `runLine_keeps`); the invariant after a line, and after a request, follows. -/

namespace Sys2Proof

/-- The decoder reads every instruction back from its frame (R104 to R106). -/
theorem decode_encode {c : Config} (h : c.opc.injective = true) (i : Instr) : decode c (encode c i) = .ok i := by
  rw [Machine.encode_eq_cons, decode, opcodeOf_get h]
  cases i <;>
    simp [encode, header_eq, Instr.opcode, decodeBody, decodeAddrData, decodeAddr, decodeBare, decodeDummies, decodeValue,
      addrOf_bytes, zeroBytes]

namespace Machine

theorem decode_encode_of_wf {c : Config} (h : c.wf = true) (i : Instr) : decode c (encode c i) = .ok i := by
  obtain ⟨-, -, hinj, -⟩ := Config.wf_facts h
  exact decode_encode hinj i

/-! ### Going on -/

/-- What a line that does not end its operation keeps for the invariant, beside the plan. -/
structure GoesOn (s t : State) : Prop where
  cfg : t.cfg = s.cfg
  link : Link.ok s.cfg s.link → Link.ok s.cfg t.link
  pc : ∃ k, t.pc = s.pc.plus k
  life : t.life = s.life
  result : t.result = s.result
  wp : s.wp = .deasserted → t.wp = .deasserted
  mode : s.mode ≠ .unknown → t.mode ≠ .unknown
  todo : ∀ l ∈ s.todo, l ∈ t.todo

/-- The cursor, the poll count and the lines put before those to come have no part in it. -/
theorem GoesOn.locals (s : State) (lines : List Line) (cur idx n polls : Nat) :
    GoesOn s { s with todo := lines ++ s.todo, cur := cur, idx := idx, n := n, polls := polls } :=
  ⟨rfl, id, ⟨0, (Phase.plus_zero s.pc).symm⟩, rfl, rfl, id, id, fun _ h => List.mem_append_right lines h⟩

theorem GoesOn.refl (s : State) : GoesOn s s :=
  .locals s [] s.cur s.idx s.n s.polls

theorem GoesOn.setMode (s : State) {m : Mode} (hm : s.mode ≠ .unknown → m ≠ .unknown) : GoesOn s { s with mode := m } :=
  ⟨rfl, id, ⟨0, (Phase.plus_zero s.pc).symm⟩, rfl, rfl, id, hm, fun _ h => h⟩

theorem Ran.goesOn {ev : List Event} {s t : State} (h : Ran ev s t) (hlink : Link.ok s.cfg s.link → Link.ok s.cfg t.link) :
    GoesOn s t where
  cfg := h.kept.cfg
  link := hlink
  pc := ⟨_, h.pc⟩
  life := h.life
  result := h.result
  wp := h.kept.wp.trans
  mode := by rw [h.kept.mode]; exact id
  todo := by rw [h.todo]; exact fun _ => id

/-- The byte that a frame returned has no part in it either. -/
theorem GoesOn.latch {s t : State} (h : GoesOn s t) (b : Byte) : GoesOn s (t.latch b) :=
  ⟨h.cfg, h.link, h.pc, h.life, h.result, h.wp, h.mode, h.todo⟩

/-- The lines after which an operation always goes on or ends with an error. -/
def Line.isInner : Line → Bool
  | .becomeReady | .ret _ | .retByte | .retBuffer => false
  | _ => true

/-- How a line `l` of a plan that may run leaves the block, when `s` is the state with the line taken off: going on with a plan
that may run, ended by an error (R238) or by its return (R22), or Ready with only the return of INIT left (R181). -/
inductive LineKeeps (l : Line) (s : State) : State → Prop where
  | goesOn {t : State} (hinner : l.isInner = true) (h : GoesOn s t) (hplan : planOk s.cfg t.view t.todo = true) :
    LineKeeps l s t
  | raised {u : State} (h : GoesOn s u) (hbalanced : u.view.balanced = true) (e : ErrorKind) : LineKeeps l s (raise e u)
  | returned (v : Value) (hbalanced : s.view.balanced = true) (hlast : s.todo = []) (hl : l ≠ .becomeReady) :
    LineKeeps l s (finish v s)
  | ready (v : Value) (hplan : planOk s.cfg s.view s.todo = true) (hwp : s.wp = .deasserted) (hmode : s.mode = .active)
      (hlast : s.todo = [.ret v]) : LineKeeps l s (becomeReady s)

/-! ### One line of a plan that may run -/

/-- What a driven output leaves in view (R151). -/
theorem view_afterSignal (x : Signal) (lv : Level) (s : State) :
    (s.afterSignal x lv).view = { s.view with
      hold := if x = .hold then lv.pin else s.view.hold
      wp := if x = .wp then lv.pin else s.view.wp
      passage := passageOf s.cfg (s.trace ++ [.sig x lv true]) } := by
  cases x <;> simp [State.view]

theorem GoesOn.signal {x : Signal} {lv : Level} (s : State) (hwp : x = .wp → lv = .deasserted) :
    GoesOn s (s.afterSignal x lv) where
  cfg := afterSignal_cfg x lv s
  link := Link.ok_afterSignal x lv
  pc := ⟨1, (afterSignal_pc x lv s).trans (Phase.tick_eq s.pc)⟩
  life := afterSignal_life x lv s
  result := afterSignal_result x lv s
  wp := by
    cases x with
    | wp => cases hwp rfl; exact fun _ => afterSignal_wp_wp .deasserted s
    | cs => simp
    | hold => simp
  mode := by simp
  todo := by simp

/-- The plan of a signal line: WP is never asserted, and what comes after runs from the level driven. -/
theorem plan_signal {x : Signal} {lv : Level} {s : State} (h : planOk s.cfg s.view (.sig x lv :: s.todo) = true) :
    s.view.balanced = true ∧ (x = .wp → lv = .deasserted) ∧ planOk s.cfg (s.afterSignal x lv).view s.todo = true := by
  rw [view_afterSignal]
  cases x <;> cases lv <;> simp only [planOk, Bool.and_eq_true, Bool.false_eq_true] at h
  all_goals obtain ⟨hbalanced, hrest⟩ := h
  · exact ⟨hbalanced, by simp, plan_passage hrest⟩
  · exact ⟨hbalanced, by simp, plan_passage hrest⟩
  · exact ⟨hbalanced, by simp, by simpa [Level.pin] using hrest⟩
  · exact ⟨hbalanced, by simp, by simpa [Level.pin] using hrest⟩

/-- A signal line goes on from the level it drives (R151), or ends its operation with the output as it was. -/
theorem signal_keeps {x : Signal} {lv : Level} {s : State} (hplan : planOk s.cfg s.view (.sig x lv :: s.todo) = true) :
    LineKeeps (.sig x lv) s ((signal x lv s).settle noValue) := by
  obtain ⟨hbalanced, hwp, hrest⟩ := plan_signal hplan
  cases hout : s.outcome with
  | false =>
    rw [signal_fail hout]
    exact .raised ((ran_record (.sig x lv false) s).goesOn id) hbalanced .signalError
  | true =>
    rw [signal_ok hout]
    exact .goesOn rfl (.signal s hwp) ((afterSignal_todo x lv s).symm ▸ hrest)

/-- The plan of a frame line: outside Held, the bytes are those of an instruction, and what comes after may run from a view with
what the instruction leaves: the byte it returns, a buffer it fills, and the passage it is. -/
theorem plan_frame_facts {c : Config} {v : View} {bs : List Byte} {rest : List Line}
    (h : planOk c v (.frame bs :: rest) = true) :
    v.balanced = true ∧ v.mode ≠ .held ∧ ∃ i, decode c bs = .ok i ∧
      (writesBuffer i = true → rest.all (fun l => !l.usesCursor) = true) ∧
      planOk c { v with got := v.got || returnsByte i, passage := framePassage i } rest = true := by
  obtain ⟨hmode, i, hdecode⟩ := plan_frame h
  simp only [planOk, hdecode, Bool.and_eq_true, Bool.or_eq_true, Bool.not_eq_true'] at h
  obtain ⟨⟨hbalanced, -⟩, hbuffer, hrest⟩ := h
  exact ⟨hbalanced, hmode, i, hdecode, fun hw => by simpa [hw] using hbuffer, hrest⟩

/-- What the frame of an instruction leaves for the lines after it when all its events have succeeded. -/
structure Completed (i : Instr) (s t : State) : Prop where
  goesOn : GoesOn s t
  kept : Kept s t
  todo : t.todo = s.todo
  got : (s.got.isSome || returnsByte i) = true → t.got.isSome = true
  buf : writesBuffer i = false → t.buf = s.buf
  passage : framePassage i = none ∨ t.view.passage = framePassage i

/-- An instruction ends its operation with an error (R155), or completes. -/
theorem exec_ends {i : Instr} {s t : State} (hm : s.mode ≠ .held) (h : exec i s = .next t) :
    (∃ e u ev, t = raise e u ∧ Ran ev s u ∧ (Link.ok s.cfg s.link → Link.ok s.cfg u.link)) ∨ Completed i s t := by
  have hlink : Link.ok s.cfg s.link → Link.ok s.cfg t.link := fun hl => Link.ok_exec hl h
  rcases (exec_spec i hm).cases with ⟨u, -, he, hran, -⟩ | ⟨ev, k, u, -, -, he, -, -, -, hkeep, hrelease⟩ |
    ⟨ev, u, -, he, -, -, hran, -⟩ | ⟨ev, u, u', hok, he, hlatch, hgot, -, -, hran, -, hbuf, -⟩
  all_goals obtain rfl := Host.Outcome.next.inj (h.symm.trans he)
  · exact .inl ⟨_, u, _, rfl, hran, hlink⟩
  · cases hcs : s.cfg.csErr with
    | false => exact .inl ⟨_, u, _, rfl, (hkeep hcs).1, hlink⟩
    | true => exact .inl ⟨_, u, _, rfl, (hrelease hcs).1, hlink⟩
  · exact .inl ⟨_, u, _, rfl, hran, hlink⟩
  · have hkept : Kept s t := (instructionRegisterFrame i s t h).1
    have hpassage : framePassage i = none ∨ t.view.passage = framePassage i := by
      simpa only [State.view, hkept.cfg] using exec_passage hm hok h
    refine .inr ?_
    rcases hlatch with rfl | ⟨hbyte, b, rfl⟩
    · refine ⟨hran.goesOn hlink, hkept, hran.todo, fun hor => ?_, hbuf, hpassage⟩
      rcases Bool.or_eq_true_iff.mp hor with hs | hbyte
      · rwa [hran.got]
      · exact hgot hbyte
    · exact ⟨(hran.goesOn hlink).latch b, hkept, hran.todo, fun _ => rfl, hbuf, hpassage⟩

theorem balanced_congr {s t : State} (hmode : t.mode = s.mode) (hhold : t.hold = s.hold) :
    t.view.balanced = s.view.balanced := by
  simp [View.balanced, State.view, hmode, hhold]

/-- The lines after a completed frame may run when the plan says so of the view it takes for granted. -/
theorem Completed.plan {i : Instr} {s t : State} (h : Completed i s t)
    (huse : writesBuffer i = true → s.todo.all (fun l => !l.usesCursor) = true)
    (hplan : planOk s.cfg { s.view with got := s.view.got || returnsByte i, passage := framePassage i } s.todo = true) :
    planOk s.cfg t.view t.todo = true := by
  rw [h.todo]
  refine plan_mono s.cfg s.todo { s.view with got := s.view.got || returnsByte i, passage := framePassage i } t.view
    h.kept.mode h.kept.hold h.kept.wp h.got h.passage ?_ hplan
  cases hw : writesBuffer i with
  | true => exact .inr (huse hw)
  | false => exact .inl ⟨h.kept.cur, h.kept.idx, h.kept.n, congrArg List.length (h.buf hw)⟩

/-- A frame line goes on from a completed frame, or ends its operation with the mode and HOLD as they were. -/
theorem frame_keeps {bs : List Byte} {s t : State} (hplan : planOk s.cfg s.view (.frame bs :: s.todo) = true)
    (h : runLine (.frame bs) s = .next t) : LineKeeps (.frame bs) s t := by
  obtain ⟨hbalanced, hm, i, hdecode, huse, hrest⟩ := plan_frame_facts hplan
  rw [show runLine (.frame bs) s = exec i s from runFrame_of_decode hdecode] at h
  rcases exec_ends hm h with ⟨e, u, ev, rfl, hran, hlink⟩ | hdone
  · exact .raised (hran.goesOn hlink) ((balanced_congr hran.kept.mode hran.kept.hold).trans hbalanced) e
  · exact .goesOn rfl hdone.goesOn (hdone.plan huse hrest)

/-! ### The lines that put others before those to come -/

/-- The line of an instruction's frame may run outside Held when the lines after it may. -/
theorem plan_frameLine {c : Config} {v : View} {i : Instr} {rest : List Line} (hinj : c.opc.injective = true)
    (hbalanced : v.balanced = true) (hm : v.mode ≠ .held) (hbuf : writesBuffer i = false)
    (h : planOk c { v with got := v.got || returnsByte i, passage := framePassage i } rest = true) :
    planOk c v (frameLine c i :: rest) = true := by
  simp [frameLine, planOk, hbalanced, hm, decode_encode hinj, hbuf, h]

/-- The frame of an instruction that returns no byte and is no passage leaves the lines after it the view it found, but for the
passage before it. -/
theorem plan_quietLine {c : Config} {v : View} {i : Instr} {rest : List Line} (hinj : c.opc.injective = true)
    (hbalanced : v.balanced = true) (hm : v.mode ≠ .held) (hbuf : writesBuffer i = false) (hbyte : returnsByte i = false)
    (hpassage : framePassage i = none) (h : planOk c { v with passage := none } rest = true) :
    planOk c v (frameLine c i :: rest) = true :=
  plan_frameLine hinj hbalanced hm hbuf (by rwa [hbyte, hpassage, Bool.or_false])

theorem chunk_bounds {page cur rem : Nat} (hpage : 0 < page) (hrem : 0 < rem) :
    1 ≤ chunk page cur rem ∧ chunk page cur rem ≤ page - cur % page ∧ chunk page cur rem ≤ rem := by
  have := Nat.mod_lt cur hpage
  unfold chunk
  omega

/-- One turn of the burst loop (R213) may run while payload is left: its chunk lies inside one page and the capacity (R211), and
the loop stands before the lines to come again. -/
theorem plan_burst {c : Config} {v : View} {rest : List Line} (hinj : c.opc.injective = true) (hpage : 0 < c.page)
    (hleft : v.idx < v.len) (h : planOk c v (.burstLoop :: rest) = true) :
    planOk c v (burstBody c ++ .burstLoop :: rest) = true := by
  simp only [planOk, Bool.and_eq_true, bne_iff_ne, decide_eq_true_eq] at h
  obtain ⟨⟨⟨⟨⟨hbalanced, hm⟩, -⟩, hcap⟩, huse⟩, hrest⟩ := h
  obtain ⟨hpos, hinPage, hinRest⟩ := chunk_bounds (cur := v.cur) hpage (Nat.sub_pos_of_lt hleft)
  have hinCap : v.cur + chunk c.page v.cur (v.len - v.idx) ≤ c.cap := by omega
  have hidx : v.idx + chunk c.page v.cur (v.len - v.idx) ≤ v.len := by omega
  have hcap' :
      v.cur + chunk c.page v.cur (v.len - v.idx) + (v.len - (v.idx + chunk c.page v.cur (v.len - v.idx))) ≤ c.cap := by
    omega
  have hrest' : planOk c { v with
      cur := v.cur + chunk c.page v.cur (v.len - v.idx), idx := v.idx + chunk c.page v.cur (v.len - v.idx),
      n := chunk c.page v.cur (v.len - v.idx), got := true, passage := none } rest = true :=
    plan_mono c rest { v with passage := none } _ rfl rfl rfl (fun _ => rfl) (.inr rfl) (.inr huse) hrest
  simp only [View.balanced, beq_iff_eq] at hbalanced
  simp [burstBody, frameLine, planOk, decode_encode hinj, writesBuffer, returnsByte, View.balanced, hbalanced, hm,
    hleft, hpos, hinPage, hinRest, hinCap, hidx, hcap', huse, hrest']

/-! ### Every line -/

/-- A line of a plan that may run keeps the invariant of the block, whatever the environment draws. -/
theorem runLine_keeps {l : Line} {s t : State} (hwf : s.cfg.wf = true) (hplan : planOk s.cfg s.view (l :: s.todo) = true)
    (h : runLine l s = .next t) : LineKeeps l s t := by
  obtain ⟨hpage, -, hinj, -⟩ := Config.wf_facts hwf
  cases l with
  | sig x lv =>
    cases h
    exact signal_keeps hplan
  | frame bs => exact frame_keeps hplan h
  | ret v =>
    cases h
    simp only [planOk, Bool.and_eq_true, List.isEmpty_iff] at hplan
    obtain ⟨hbalanced, hlast⟩ := hplan
    exact .returned _ hbalanced hlast (by simp)
  | retByte =>
    cases h
    simp only [planOk, Bool.and_eq_true, List.isEmpty_iff] at hplan
    obtain ⟨⟨hbalanced, -⟩, hlast⟩ := hplan
    exact .returned _ hbalanced hlast (by simp)
  | retBuffer =>
    cases h
    simp only [planOk, Bool.and_eq_true, List.isEmpty_iff] at hplan
    obtain ⟨hbalanced, hlast⟩ := hplan
    exact .returned _ hbalanced hlast (by simp)
  | becomeReady =>
    cases h
    simp only [planOk, Bool.and_eq_true, beq_iff_eq] at hplan
    obtain ⟨⟨⟨hbalanced, hwp⟩, hmode⟩, hlast⟩ := hplan
    split at hlast
    · next v hret => exact .ready v (by simp [hret, planOk, hbalanced]) hwp hmode hret
    · cases hlast
  | setMode m =>
    cases h
    simp only [planOk, Bool.and_eq_true] at hplan
    obtain ⟨hmove, hrest⟩ := hplan
    refine .goesOn rfl (.setMode s fun _ hm => ?_) hrest
    subst hm
    cases hmove
  | leaveHeld =>
    cases h
    simp only [planOk, Bool.and_eq_true] at hplan
    obtain ⟨-, hrest⟩ := hplan
    refine .goesOn rfl (.setMode s fun hm => ?_) hrest
    split
    · decide
    · exact hm
  | checkIdentity =>
    cases h
    simp only [planOk, Bool.and_eq_true] at hplan
    obtain ⟨⟨hbalanced, -⟩, hrest⟩ := hplan
    unfold checkIdentity
    split
    · exact .goesOn rfl (.refl s) hrest
    · exact .raised (.refl s) hbalanced _
  | checkBusy =>
    cases h
    simp only [planOk, Bool.and_eq_true] at hplan
    obtain ⟨⟨hbalanced, -⟩, hrest⟩ := hplan
    unfold checkBusy
    split
    · exact .raised (.refl s) hbalanced _
    · exact .goesOn rfl (.refl s) hrest
  | writeInitStatus =>
    cases h
    simp only [planOk, Bool.and_eq_true, bne_iff_ne] at hplan
    obtain ⟨⟨⟨hbalanced, -⟩, hm⟩, hrest⟩ := hplan
    exact .goesOn rfl (.locals s [_] _ _ _ _) (plan_quietLine hinj hbalanced hm rfl rfl rfl hrest)
  | checkRange off len =>
    cases h
    simp only [planOk, Bool.and_eq_true, Bool.or_eq_true, decide_eq_true_eq] at hplan
    obtain ⟨⟨hbalanced, -⟩, hrange⟩ := hplan
    unfold checkRange
    split
    · next hin =>
      have hin : off + len ≤ s.cfg.cap := by simpa [inRange] using hin
      exact .goesOn rfl (.refl s) (hrange.resolve_left (by omega))
    · exact .raised (.refl s) hbalanced _
  | startCursor off =>
    cases h
    simp only [planOk, Bool.and_eq_true] at hplan
    exact .goesOn rfl (.locals s [] _ _ _ _) hplan.2
  | burstLoop =>
    cases h
    unfold burstLoop
    split
    · next hleft =>
      exact .goesOn rfl (.locals s [_, _, _, _, _, _, _, _] _ _ _ _) (plan_burst hinj hpage hleft hplan)
    · simp only [planOk, Bool.and_eq_true] at hplan
      exact .goesOn rfl (.refl s) (plan_passage hplan.2)
  | sizeBurst =>
    cases h
    simp only [planOk, Bool.and_eq_true] at hplan
    exact .goesOn rfl (.locals s [] _ _ _ _) hplan.2
  | writeBurst =>
    cases h
    simp only [planOk, Bool.and_eq_true, bne_iff_ne] at hplan
    obtain ⟨⟨⟨⟨⟨⟨hbalanced, hm⟩, -⟩, -⟩, -⟩, -⟩, hrest⟩ := hplan
    exact .goesOn rfl (.locals s [_] _ _ _ _) (plan_quietLine hinj hbalanced hm rfl rfl rfl hrest)
  | advanceCursor =>
    cases h
    simp only [planOk, Bool.and_eq_true] at hplan
    exact .goesOn rfl (.locals s [] _ _ _ _) hplan.2
  | startPoll =>
    cases h
    simp only [planOk, Bool.and_eq_true] at hplan
    exact .goesOn rfl (.locals s [] _ _ _ _) hplan.2
  | poll =>
    cases h
    simp only [planOk, Bool.and_eq_true, bne_iff_ne] at hplan
    obtain ⟨⟨hbalanced, hm⟩, hrest⟩ := hplan
    refine .goesOn rfl (.locals s [_, _] _ _ _ _) (plan_frameLine hinj hbalanced hm rfl ?_)
    simp only [planOk, returnsByte, Bool.or_true, Bool.and_eq_true, bne_iff_ne]
    exact ⟨⟨⟨hbalanced, trivial⟩, hm⟩, hrest⟩
  | testPoll =>
    cases h
    simp only [planOk, Bool.and_eq_true, bne_iff_ne] at hplan
    obtain ⟨⟨⟨hbalanced, hgot⟩, hm⟩, hrest⟩ := hplan
    unfold testPoll
    dsimp only
    split
    · split
      · exact .raised (.locals s [] _ _ _ (s.polls + 1)) hbalanced _
      · refine .goesOn rfl (.locals s [_] _ _ _ _) ?_
        simp only [planOk, Bool.and_eq_true, bne_iff_ne]
        exact ⟨⟨hbalanced, hm⟩, plan_got hrest⟩
    · exact .goesOn rfl (.locals s [] _ _ _ _) (plan_passage hrest)

/-! ### Every step -/

/-- The invariant of a block on which an operation has just ended: nothing of it is left. -/
theorem inv_at_rest {t : State} (hwf : t.cfg.wf = true) (hlink : Link.ok t.cfg t.link) (hpc : t.pc = .idle)
    (htodo : t.todo = []) (hgot : t.got = none) (hbalanced : t.view.balanced = true) (huninit : t.life ≠ .uninit)
    (hready : t.life = .ready → t.wp = .deasserted ∧ t.mode ≠ .unknown) : Inv t := by
  refine ⟨hwf, hlink, ?_, hready⟩
  simp only [hpc]
  exact ⟨htodo, hgot, hbalanced, fun h => absurd h huninit⟩

theorem inv_running {t : State} {o : OpName} {k : Nat} (hwf : t.cfg.wf = true) (hlink : Link.ok t.cfg t.link)
    (hpc : t.pc = .op o k) (hrun : t.runOk o) (hready : t.life = .ready → t.wp = .deasserted ∧ t.mode ≠ .unknown) :
    Inv t := by
  refine ⟨hwf, hlink, ?_, hready⟩
  simpa only [hpc] using hrun

/-- What a running operation keeps, with its two lifecycles (R31) told apart. -/
theorem runOk_iff {s : State} {o : OpName} : s.runOk o ↔ planOk s.cfg s.view s.todo = true ∧ s.result = none ∧
    ((o = .init ∧ s.life = .uninit ∧ Line.becomeReady ∈ s.todo) ∨
      (s.life = .ready ∧ (o = .init → ∃ v, s.todo = [.ret v]))) := by
  unfold State.runOk
  by_cases ho : o = .init <;> simp [ho]

/-- An error leaves the block at rest: INIT Dead (R184), any other operation Ready. -/
theorem inv_raise {u : State} {o : OpName} {k : Nat} (e : ErrorKind) (hwf : u.cfg.wf = true) (hlink : Link.ok u.cfg u.link)
    (hpc : u.pc = .op o k) (hbalanced : u.view.balanced = true) (hlife : o ≠ .init → u.life = .ready)
    (hready : u.life = .ready → u.wp = .deasserted ∧ u.mode ≠ .unknown) : Inv (raise e u) := by
  by_cases ho : o = .init
  · have hdead : (raise e u).life = .dead := raise_life_init e u k (ho ▸ hpc)
    exact inv_at_rest hwf hlink rfl rfl rfl hbalanced (by simp [hdead]) (by simp [hdead])
  · have hsame : (raise e u).life = .ready :=
      (raise_life_other e u fun j hj => ho (Phase.op.inj (hpc.symm.trans hj)).1).trans (hlife ho)
    exact inv_at_rest hwf hlink rfl rfl rfl hbalanced (by simp [hsame]) fun _ => hready (hlife ho)

/-- A line of a running operation keeps the invariant. -/
theorem runLine_inv {l : Line} {rest : List Line} {s t : State} (hInv : Inv s) (htodo : s.todo = l :: rest)
    (h : runLine l { s with todo := rest } = .next t) : Inv t := by
  obtain ⟨o, k, hpc⟩ := hInv.op_of_todo htodo
  obtain ⟨hplan, hresult, hlife⟩ := runOk_iff.mp (hInv.running hpc)
  obtain ⟨hwf, hlink, -, hready⟩ := hInv
  rw [htodo] at hplan hlife
  cases runLine_keeps (s := { s with todo := rest }) hwf hplan h with
  | goesOn hinner hgo hplan' =>
    obtain ⟨j, hpc'⟩ := hgo.pc
    refine inv_running (o := o) (k := k + j) (by rwa [hgo.cfg]) (by rw [hgo.cfg]; exact hgo.link hlink)
      (by rw [hpc', hpc]; rfl) (runOk_iff.mpr ⟨by rwa [hgo.cfg], hgo.result.trans hresult, ?_⟩) fun hl => ?_
    · rw [hgo.life]
      refine hlife.imp (fun ⟨hinit, huninit, hmem⟩ => ⟨hinit, huninit, hgo.todo _ ?_⟩)
        (fun ⟨hl, hret⟩ => ⟨hl, fun hinit => ?_⟩)
      · rcases List.mem_cons.mp hmem with rfl | hmem
        · cases hinner
        · exact hmem
      · obtain ⟨v, hv⟩ := hret hinit
        obtain ⟨rfl, -⟩ := List.cons.inj hv
        cases hinner
    · rw [hgo.life] at hl
      exact ⟨hgo.wp (hready hl).1, hgo.mode (hready hl).2⟩
  | @raised u hgo hbalanced e =>
    obtain ⟨j, hpc'⟩ := hgo.pc
    refine inv_raise (o := o) (k := k + j) e (by rwa [hgo.cfg]) (by rw [hgo.cfg]; exact hgo.link hlink)
      (by rw [hpc', hpc]; rfl) hbalanced (fun ho => ?_) fun hl => ?_
    · rcases hlife with ⟨hinit, -⟩ | ⟨hl, -⟩
      · exact absurd hinit ho
      · exact hgo.life.trans hl
    · rw [hgo.life] at hl
      exact ⟨hgo.wp (hready hl).1, hgo.mode (hready hl).2⟩
  | returned v hbalanced hlast hl =>
    have hl : s.life = .ready := by
      rcases hlife with ⟨-, -, hmem⟩ | ⟨hready, -⟩
      · rw [show rest = [] from hlast, List.mem_singleton] at hmem
        exact absurd hmem.symm hl
      · exact hready
    exact inv_at_rest hwf hlink rfl rfl rfl hbalanced (by simp [hl]) hready
  | ready v hplan' hwp hmode hlast =>
    exact inv_running hwf hlink hpc (runOk_iff.mpr ⟨hplan', hresult, .inr ⟨rfl, fun _ => ⟨v, hlast⟩⟩⟩)
      fun _ => ⟨hwp, fun hm => by cases hmode.symm.trans hm⟩

/-- A request that an idle block takes keeps the invariant: answered at once it leaves the block at rest, and the lines of the
operation it begins may run (`start_plan`). -/
theorem accept_inv {r : Request} {s t : State} (hInv : Inv s) (h : accept r s = .next t) : Inv t := by
  obtain ⟨hidle, hadm, rfl⟩ := accept_next h
  obtain ⟨-, hknown, hoperands, hallowed⟩ := admit_none hadm
  obtain ⟨htodo, hgot, hbalanced, huninit⟩ := hInv.resting hidle
  obtain ⟨hwf, hlink, -, hready⟩ := hInv
  cases ho : r.opName with
  | none =>
    rcases start_cases hknown hoperands with ⟨-, v, hstart⟩ | ⟨o, lines, buf, hop, -⟩
    · rw [hstart]
      refine ⟨hwf, hlink, ?_, hready⟩
      simp only [answer, show s.pc = .idle from hidle]
      exact ⟨htodo, hgot, hbalanced, huninit⟩
    · rw [ho] at hop; cases hop
  | some o =>
    obtain ⟨lines, buf, hstart, hplan, hmem⟩ :=
      start_plan hwf (decode_encode_of_wf hwf) hadm ho hbalanced huninit hready
    rw [hstart]
    refine inv_running hwf hlink rfl (runOk_iff.mpr ⟨hplan, rfl, ?_⟩) hready
    rcases hallowed o ho with ⟨hinit, hl⟩ | ⟨hne, hl, -⟩
    · exact .inl ⟨hinit, hl, hmem hinit⟩
    · exact .inr ⟨hl, fun hinit => absurd hinit hne⟩

/-- Settles O33: a request by `accept_inv`, for which the port and the requests to come do not matter, a line by
`runLine_inv`, and a block that waits does not change. -/
theorem everyStepKeepsTheInvariant : Obligations.EveryStepKeepsTheInvariant := by
  intro s t hInv h
  obtain ⟨-, hcases⟩ := step_cases h
  rcases hcases with ⟨r, -, hacc⟩ | ⟨l, rest, -, htodo, hrun⟩ | ⟨r, rest, -, -, -, hacc⟩ | ⟨-, -, -, -, rfl⟩
  · exact accept_inv (s := { s with port := none }) hInv hacc
  · exact runLine_inv hInv htodo hrun
  · exact accept_inv (s := { s with program := rest }) hInv hacc
  · exact hInv

end Machine
end Sys2Proof
end

section
/-! The moves of the mode (42_driver_operations.md R196) and the admission of a request (R180). -/

namespace Sys2Proof.Machine

/-! ### The mode -/

/-- Only a move line and the line that leaves Held change the mode (R168, R196). -/
theorem runLine_mode {l : Line} {s t : State} (h : runLine l s = .next t) :
    t.mode = s.mode ∨ (∃ m, l = .setMode m ∧ t = { s with mode := m }) ∨ (l = .leaveHeld ∧ t = leaveHeld s) := by
  cases l with
  | setMode m =>
    cases h
    exact .inr (.inl ⟨m, rfl, rfl⟩)
  | leaveHeld =>
    cases h
    exact .inr (.inr ⟨rfl, rfl⟩)
  | frame bs =>
    simp only [runLine, runFrame] at h
    split at h
    · exact .inl (instructionRegisterFrame _ s t h).1.mode
    · cases h
  | sig x lv =>
    cases h
    unfold signal
    split
    · exact .inl (afterSignal_mode x lv s)
    · exact .inl rfl
  | checkIdentity =>
    cases h
    unfold checkIdentity
    split <;> exact .inl rfl
  | checkBusy =>
    cases h
    unfold checkBusy
    split <;> exact .inl rfl
  | checkRange off len =>
    cases h
    unfold checkRange
    split <;> exact .inl rfl
  | burstLoop =>
    cases h
    unfold burstLoop
    split <;> exact .inl rfl
  | testPoll =>
    cases h
    simp only [testPoll]
    split
    · split <;> exact .inl rfl
    · exact .inl rfl
  | _ =>
    cases h
    exact .inl rfl

/-- Taking a request leaves the mode as it was. -/
theorem accept_mode {r : Request} {s t : State} (h : accept r s = .next t) : t.mode = s.mode := by
  obtain ⟨-, hadm, rfl⟩ := accept_next h
  obtain ⟨-, hknown, hoperands, -⟩ := admit_none hadm
  rcases start_cases hknown hoperands with ⟨-, v, hstart⟩ | ⟨o, lines, buf, -, hstart⟩ <;> rw [hstart] <;> rfl

/-- The trace ends with the event or the frame that R196's table ties the passage to. -/
def Passage.EndsTrace (c : Config) (tr : List Event) : Passage → Prop
  | .hold => ∃ pre, tr = pre ++ [.sig .hold .asserted true]
  | .release => ∃ pre, tr = pre ++ [.sig .hold .deasserted true]
  | .sleep => ∃ pre, tr = pre ++ bracket [.write [c.opc.deepSleep] true]
  | .wake => ∃ pre rs, tr = pre ++ bracket [.xfer (c.opc.releasePowerDown :: zeroBytes (idDummies c)) (some rs)]

theorem endsTrace_of_passage {c : Config} {tr : List Event} {p : Passage} (h : passageOf c tr = some p) :
    p.EndsTrace c tr := by
  obtain ⟨pre, ⟨rfl, htr⟩ | ⟨rfl, htr⟩ | ⟨rfl, htr⟩ | ⟨rfl, rs, htr⟩⟩ := passageOf_eq_some h
  · exact ⟨pre, htr⟩
  · exact ⟨pre, htr⟩
  · exact ⟨pre, htr⟩
  · exact ⟨pre, rs, htr⟩

/-- Settles O41: the plan of a running operation lets a move line, or the line that leaves Held, run only after its passage. -/
theorem modeTransitions : Obligations.ModeTransitions := by
  intro s t hInv h hmoved
  obtain ⟨-, hcases⟩ := step_cases h
  rcases hcases with ⟨r, -, hacc⟩ | ⟨l, rest, -, htodo, hrun⟩ | ⟨r, rest, -, -, -, hacc⟩ | ⟨-, -, -, -, rfl⟩
  · exact absurd (accept_mode hacc) hmoved
  · obtain ⟨o, k, hpc⟩ := hInv.op_of_todo htodo
    obtain ⟨hplan, -⟩ := hInv.running hpc
    rw [htodo] at hplan
    rcases runLine_mode hrun with hsame | ⟨m, rfl, rfl⟩ | ⟨rfl, rfl⟩
    · exact absurd hsame hmoved
    · refine ⟨rfl, ?_⟩
      cases m <;> simp only [planOk, Bool.and_eq_true, Bool.false_eq_true, false_and, beq_iff_eq, bne_iff_ne] at hplan
      case active =>
        obtain ⟨⟨⟨-, hm⟩, hpassage⟩, -⟩ := hplan
        exact .inl ⟨hm, rfl, endsTrace_of_passage hpassage⟩
      case deepSleep =>
        obtain ⟨⟨⟨-, hm⟩, hpassage⟩, -⟩ := hplan
        exact .inr (.inl ⟨hm, rfl, endsTrace_of_passage hpassage⟩)
      case held =>
        obtain ⟨⟨⟨hm, hhold⟩, hpassage⟩, -⟩ := hplan
        exact .inr (.inr (.inl ⟨hm, rfl, hhold, endsTrace_of_passage hpassage⟩))
    · simp only [planOk, Bool.and_eq_true, beq_iff_eq] at hplan
      obtain ⟨⟨hhold, hpassage⟩, -⟩ := hplan
      have hheld : s.mode = .held := by
        by_contra hm
        exact hmoved (if_neg hm)
      exact ⟨rfl, .inr (.inr (.inr ⟨hheld, if_pos hheld, hhold, endsTrace_of_passage hpassage⟩))⟩
  · exact absurd (accept_mode hacc) hmoved
  · exact absurd rfl hmoved

/-! ### Admission -/

theorem accept_of_admission {r : Request} {s : State} (h : admission r s = none) : accept r s = .next (start r s) := by
  simp [accept, h]

theorem refused_of_admission {r : Request} {s : State} {why : Refusal} (h : admission r s = some why) :
    accept r s = .refused why := by
  simp [accept, h]

/-- The tests left for an operation other than INIT once its name and its operands have passed (R180). -/
theorem admission_op {r : Request} {o : OpName} {s : State} (hidle : s.pc = .idle) (hoperands : r.operandsOk = true)
    (hop : r.opName = some o) (hne : o ≠ .init) :
    admission r s =
      if s.life ≠ .ready then some .notReady
      else if o.framedDriver && s.mode == .held then some .heldTransaction
      else if o == .deepSleep && !s.cfg.sleep then some .noDeepSleep
      else if o == .hold && !s.cfg.hold then some .noHold
      else if o == .hold && s.mode != .active then some .holdNotActive
      else none := by
  have hknown := Request.known_of_opName hop
  simp only [admission, hidle, hknown, hoperands, hop]
  cases o with
  | init => exact absurd rfl hne
  | _ => rfl

/-- Settles O29, test by test in R180's order: each refusal comes with the tests before it passed. -/
theorem admissionFollowsTheTable : Obligations.AdmissionFollowsTheTable := by
  intro r s
  refine ⟨fun hbusy => refused_of_admission (if_pos hbusy),
    fun hidle => ⟨?_, ?_, fun hknown hoperands => ⟨?_, ?_, ?_, ?_⟩⟩⟩
  · rintro name rfl
    exact refused_of_admission (by simp [admission, hidle, Request.known])
  · intro hknown hoperands
    exact refused_of_admission (by simp [admission, hidle, hknown, hoperands])
  · intro hop
    exact accept_of_admission (by simp [admission, hidle, hknown, hoperands, hop])
  · rintro rfl hlife
    exact accept_of_admission (by simp [admission, hidle, hknown, hoperands, Request.opName, hlife])
  · rintro rfl hlife
    exact refused_of_admission (by simp [admission, hidle, hknown, hoperands, Request.opName, hlife])
  · intro o hop hne
    have htests := admission_op hidle hoperands hop hne
    refine ⟨fun hlife => refused_of_admission ?_, fun hready => ⟨?_, ?_, ?_, ?_, ?_⟩⟩
    · rw [htests, if_pos hlife]
    · intro hframed hheld
      exact refused_of_admission (by simp [htests, hready, hframed, hheld])
    · rintro rfl hm hsleep
      exact refused_of_admission (by simp [htests, hready, hm, hsleep])
    · rintro rfl hhold
      exact refused_of_admission (by simp [htests, hready, hhold, OpName.framedDriver])
    · rintro rfl hhold hm
      exact refused_of_admission (by simp [htests, hready, hhold, hm, OpName.framedDriver])
    · intro hheld hsleep hhold
      have hhold : o = .hold → s.cfg.hold = true ∧ s.mode = .active := by simpa using hhold
      refine accept_of_admission ?_
      rw [htests, if_neg (not_not_intro hready), if_neg (by simpa using hheld), if_neg (by simpa using hsleep),
        if_neg (by simpa using fun ho => (hhold ho).1), if_neg (by simpa using fun ho => (hhold ho).2)]

end Sys2Proof.Machine
end

section
/-! The driver operations from the request to the result (42_driver_operations.md R181 to R195): a running operation is followed
line by line, with the registers its rule sets, the events it has issued and the lines it has left. -/

namespace Sys2Proof.Machine

/-! ### Outcomes -/

/-- The outcomes that come after the next `j`. -/
theorem Env.okNext_dropOutcomes {j n : Nat} {e : Env} (h : Env.okNext (j + n) e = true) :
    Env.okNext n (e.dropOutcomes j) = true := by
  induction j generalizing e with
  | zero => rwa [Nat.zero_add] at h
  | succ j ih =>
    rw [Nat.succ_add] at h
    exact ih (Env.okNext_succ h).2

/-- The signal's outcome is the one draw an event takes (R150). -/
theorem afterSignal_env (x : Signal) (lv : Level) (s : State) :
    (s.afterSignal x lv).env.sameOutcomes s.env.drawOutcome.2 := by
  simpa [State.afterSignal] using tellDevice_same x lv (s.drawn.record (.sig x lv true))

/-- A completed instruction has taken the outcomes of its channel calls and of the two chip-select events (R153). -/
theorem exec_env {i : Instr} {s t : State} (hm : s.mode ≠ .held) (hok : Env.okNext (callCount i + 2) s.env = true)
    (h : exec i s = .next t) : t.env.sameOutcomes (s.env.dropOutcomes (callCount i + 2)) := by
  rcases (exec_spec i hm).cases with ⟨u, hat, -⟩ | ⟨ev, k, u, hk, hat, -⟩ | ⟨ev, u, hat, -⟩ |
    ⟨ev, u, u', -, he, hlatch, -, hlen, -, hran, -⟩
  · exact absurd (Env.failsAfter_ok hat hok) (by omega)
  · exact absurd (Env.failsAfter_ok hat hok) (by omega)
  · exact absurd (Env.failsAfter_ok hat hok) (by omega)
  · obtain rfl := Host.Outcome.next.inj (h.symm.trans he)
    have henv := hran.env
    rw [show (closing true ev).length = callCount i + 2 by simp [closing, hlen]] at henv
    rcases hlatch with rfl | ⟨-, b, rfl⟩ <;> exact henv

theorem runLine_sig_ok {x : Signal} {lv : Level} {s : State} (h : s.outcome = true) :
    runLine (.sig x lv) s = .next (s.afterSignal x lv) := by
  simp [runLine, signal_ok h, Ev.settle, noValue]

theorem runLine_sig_fail {x : Signal} {lv : Level} {s : State} (h : s.outcome = false) :
    runLine (.sig x lv) s = .next (raise .signalError (s.drawn.record (.sig x lv false))) := by
  simp [runLine, signal_fail h, Ev.settle]

/-- The instructions whose frame is one half-duplex call (R158, R159, R160, R162, R165). -/
def sendsOnly : Instr → Bool
  | .read _ _ | .write _ _ | .rdsr | .rpd => false
  | _ => true

/-- Such an instruction sends its encoding. -/
theorem exec_send_ok {i : Instr} {s : State} (hsend : sendsOnly i = true) (hm : s.mode ≠ .held)
    (hok : Env.okNext 3 s.env = true) : exec i s = .next (s.afterSend (encode s.cfg i)) ∧ callCount i = 1 := by
  cases i with
  | wren => exact ⟨execWren_ok hm hok, rfl⟩
  | wrdi => exact ⟨execWrdi_ok hm hok, rfl⟩
  | dpd => exact ⟨execDpd_ok hm hok, rfl⟩
  | wrsr v => exact ⟨execWrsr_ok hm hok, rfl⟩
  | pe a => exact ⟨execPe_ok hm hok, rfl⟩
  | se a => exact ⟨execSe_ok hm hok, rfl⟩
  | ce a => exact ⟨execCe_ok hm hok, rfl⟩
  | read | write | rdsr | rpd => cases hsend

/-! ### An operation under way -/

/-- The registers that the rules of the driver operations set (R31 to R33, R36, R64). -/
structure Regs where
  life : Life
  mode : Mode
  cs : Pin
  wp : Pin
  hold : Pin
  got : Option Byte
  buf : List Byte

def State.regs (s : State) : Regs where
  life := s.life
  mode := s.mode
  cs := s.cs
  wp := s.wp
  hold := s.hold
  got := s.got
  buf := s.buf

/-- The level recorded for an output, as in `State.setPin` (R151). -/
def Regs.setPin (x : Signal) (lv : Level) (g : Regs) : Regs :=
  match x with
  | .cs => { g with cs := lv.pin }
  | .wp => { g with wp := lv.pin }
  | .hold => { g with hold := lv.pin }

theorem afterSignal_regs (x : Signal) (lv : Level) (s : State) : (s.afterSignal x lv).regs = s.regs.setPin x lv := by
  cases x <;> simp [State.regs, Regs.setPin]

/-- `t` is the block `k` steps after the request `r` was presented to `s`: the operation has issued the events `ev` and left
the registers `g`, its lines to come are `lines`, and no other request is on the port. -/
structure Underway (s : State) (r : Request) (k : Nat) (ev : List Event) (lines : List Line) (g : Regs) (t : State) : Prop where
  run : core.run k (s.ask r) = .next t
  wf : s.cfg.wf = true
  trace : t.trace = s.trace ++ ev
  env : t.env.sameOutcomes (s.env.dropOutcomes ev.length)
  pc : ∃ o j, r.opName = some o ∧ t.pc = .op o j
  cfg : t.cfg = s.cfg
  program : t.program = s.program
  port : t.port = none
  todo : t.todo = lines
  regs : t.regs = g

section
variable {s t t' : State} {r : Request} {o : OpName} {k : Nat} {ev : List Event} {l : Line} {rest lines : List Line} {g : Regs}

theorem run_of_step (h : step s = .next t) : core.run (k + 1) s = core.run k t := by
  simp only [Host.Core.run, core, h]

/-- One more step of a run. -/
theorem run_succ (h : core.run k s = .next t) (hstep : step t = .next t') : core.run (k + 1) s = .next t' := by
  induction k generalizing s with
  | zero =>
    cases h
    exact run_of_step hstep
  | succ k ih =>
    cases hs : step s with
    | next u =>
      rw [run_of_step hs] at h ⊢
      exact ih h
    | fault why => simp [Host.Core.run, core, hs] at h
    | refused why => simp [Host.Core.run, core, hs] at h

namespace Underway

theorem life (h : Underway s r k ev lines g t) : t.life = g.life := congrArg Regs.life h.regs

theorem mode (h : Underway s r k ev lines g t) : t.mode = g.mode := congrArg Regs.mode h.regs

theorem cs (h : Underway s r k ev lines g t) : t.cs = g.cs := congrArg Regs.cs h.regs

theorem wp (h : Underway s r k ev lines g t) : t.wp = g.wp := congrArg Regs.wp h.regs

theorem hold (h : Underway s r k ev lines g t) : t.hold = g.hold := congrArg Regs.hold h.regs

theorem got (h : Underway s r k ev lines g t) : t.got = g.got := congrArg Regs.got h.regs

theorem buf (h : Underway s r k ev lines g t) : t.buf = g.buf := congrArg Regs.buf h.regs

/-- The next step runs the next line. -/
theorem run_line (h : Underway s r k ev (l :: rest) g t) (hrun : runLine l { t with todo := rest } = .next t') :
    core.run (k + 1) (s.ask r) = .next t' :=
  run_succ h.run ((step_line (h.cfg ▸ h.wf) h.port h.todo).trans hrun)

/-- As many outcomes as are still to come are `ok` in the state reached. -/
theorem okNext (h : Underway s r k ev lines g t) {n : Nat} (hok : Env.okNext (ev.length + n) s.env = true) :
    Env.okNext n t.env = true := by
  rw [Env.okNext_congr n h.env]
  exact Env.okNext_dropOutcomes hok

/-! ### The lines of the driver operations, one lemma each -/

/-- A line that issues no event changes at most the lines to come, the lifecycle and the mode. -/
theorem silent (h : Underway s r k ev (l :: rest) g t) {life' : Life} {mode' : Mode}
    (hrun : runLine l { t with todo := rest } = .next { t with todo := lines, life := life', mode := mode' }) :
    ∃ t', Underway s r (k + 1) ev lines { g with life := life', mode := mode' } t' := by
  obtain rfl := h.regs
  exact ⟨_, h.run_line hrun, h.wf, h.trace, h.env, h.pc, h.cfg, h.program, h.port, rfl, rfl⟩

/-- `S.mode <- m` (R196). -/
theorem setMode {m : Mode} (h : Underway s r k ev (.setMode m :: rest) g t) :
    ∃ t', Underway s r (k + 1) ev rest { g with mode := m } t' := by
  obtain rfl := h.regs
  exact h.silent rfl

/-- R195: only mode Held is left. -/
theorem leaveHeld (h : Underway s r k ev (.leaveHeld :: rest) g t) :
    ∃ t', Underway s r (k + 1) ev rest { g with mode := if g.mode = .held then .active else g.mode } t' := by
  obtain rfl := h.regs
  exact h.silent rfl

/-- `S.life <- Ready` (R181). -/
theorem becomeReady (h : Underway s r k ev (.becomeReady :: rest) g t) :
    ∃ t', Underway s r (k + 1) ev rest { g with life := .ready } t' := by
  obtain rfl := h.regs
  exact h.silent rfl

/-- R182: the known identity lets INIT go on. -/
theorem knownIdentity (h : Underway s r k ev (.checkIdentity :: rest) g t) (hgot : g.got = some s.cfg.manuf) :
    ∃ t', Underway s r (k + 1) ev rest g t' := by
  have hbyte : t.gotByte = t.cfg.manuf := by simp [State.gotByte, h.got, hgot, h.cfg]
  obtain rfl := h.regs
  exact h.silent (congrArg _ (if_pos hbyte))

/-- R182: any other identity ends INIT. -/
theorem wrongIdentity (h : Underway s r k ev (.checkIdentity :: rest) g t) {id : Byte} (hgot : g.got = some id)
    (hid : id ≠ s.cfg.manuf) : core.run (k + 1) (s.ask r) = .next (raise .wrongIdentity t) := by
  have hbyte : t.gotByte ≠ t.cfg.manuf := by simp [State.gotByte, h.got, hgot, h.cfg, hid]
  exact h.run_line (congrArg _ (if_neg hbyte))

/-- R191: an idle device lets ERASE go on. -/
theorem idleStatus (h : Underway s r k ev (.checkBusy :: rest) g t) {b : Byte} (hgot : g.got = some b)
    (hb : b.getLsbD 0 = false) : ∃ t', Underway s r (k + 1) ev rest g t' := by
  have hbusy : ¬ srBusy t.gotByte = true := by simpa [State.gotByte, h.got, hgot, srBusy] using hb
  obtain rfl := h.regs
  exact h.silent (congrArg _ (if_neg hbusy))

/-- R191: a busy device ends ERASE. -/
theorem busyStatus (h : Underway s r k ev (.checkBusy :: rest) g t) {b : Byte} (hgot : g.got = some b)
    (hb : b.getLsbD 0 = true) : core.run (k + 1) (s.ask r) = .next (raise .deviceBusy t) := by
  have hbusy : srBusy t.gotByte = true := by simpa [State.gotByte, h.got, hgot, srBusy] using hb
  exact h.run_line (congrArg _ (if_pos hbusy))

/-- `F_WRSR(P_INITSR(s))` becomes the frame that it is (R183). -/
theorem writeInitStatus (h : Underway s r k ev (.writeInitStatus :: rest) g t) {b : Byte} (hgot : g.got = some b) :
    ∃ t', Underway s r (k + 1) ev (frameLine s.cfg (.wrsr (initStatus s.cfg b)) :: rest) g t' := by
  have hbyte : t.gotByte = b := by simp [State.gotByte, h.got, hgot]
  obtain rfl := h.regs
  rw [← hbyte, ← h.cfg]
  exact h.silent rfl

/-- A line that issues the events `ev'` and goes on. -/
theorem issues (h : Underway s r k ev (l :: rest) g t) {ev' : List Event} {g' : Regs}
    (hrun : runLine l { t with todo := rest } = .next t') (htrace : t'.trace = t.trace ++ ev')
    (henv : t'.env.sameOutcomes (t.env.dropOutcomes ev'.length)) (hpc : t'.pc = t.pc.plus ev'.length) (hcfg : t'.cfg = t.cfg)
    (hprogram : t'.program = t.program) (hport : t'.port = t.port) (htodo : t'.todo = rest) (hregs : t'.regs = g') :
    Underway s r (k + 1) (ev ++ ev') rest g' t' where
  run := h.run_line hrun
  wf := h.wf
  trace := by rw [htrace, h.trace, List.append_assoc]
  env := by
    rw [List.length_append, Env.dropOutcomes_add]
    exact Env.sameOutcomes_trans henv (Env.dropOutcomes_congr _ h.env)
  pc := by
    obtain ⟨o, j, hop, hj⟩ := h.pc
    exact ⟨o, j + ev'.length, hop, by rw [hpc, hj]; rfl⟩
  cfg := hcfg.trans h.cfg
  program := hprogram.trans h.program
  port := hport.trans h.port
  todo := htodo
  regs := hregs

/-- `Sig(x, l)` with outcome `ok` (R151). -/
theorem signal {x : Signal} {lv : Level} (h : Underway s r k ev (.sig x lv :: rest) g t)
    (hok : Env.okNext (ev.length + 1) s.env = true) :
    ∃ t', Underway s r (k + 1) (ev ++ [.sig x lv true]) rest (g.setPin x lv) t' := by
  have hout : State.outcome { t with todo := rest } = true := (Env.okNext_succ (h.okNext hok)).1
  obtain rfl := h.regs
  exact ⟨_, h.issues (runLine_sig_ok hout) (afterSignal_trace x lv _) (afterSignal_env x lv _)
    ((afterSignal_pc x lv _).trans (Phase.tick_eq _)) (afterSignal_cfg x lv _) (afterSignal_program x lv _)
    (afterSignal_port x lv _) (afterSignal_todo x lv _) (afterSignal_regs x lv _)⟩

/-- `Sig(x, l)` with outcome `fail` ends the operation (R151). -/
theorem signal_fails {x : Signal} {lv : Level} (h : Underway s r k ev (.sig x lv :: rest) g t) (hout : t.outcome = false) :
    core.run (k + 1) (s.ask r) = .next (raise .signalError (t.drawn.record (.sig x lv false))) :=
  h.run_line (runLine_sig_fail (s := { t with todo := rest }) hout)

/-- The frame of an instruction with every outcome `ok` (R153, R168). -/
theorem frame {i : Instr} {calls : List Event} {got' : Option Byte} {buf' : List Byte}
    (h : Underway s r k ev (frameLine s.cfg i :: rest) g t) (hm : g.mode ≠ .held)
    (hok : Env.okNext (ev.length + (callCount i + 2)) s.env = true) (hex : exec i { t with todo := rest } = .next t')
    (hdone : FrameDone calls { t with todo := rest } t') (hcalls : calls.length = callCount i) (hgot : t'.got = got')
    (hbuf : t'.buf = buf') :
    Underway s r (k + 1) (ev ++ bracket calls) rest { g with cs := .deasserted, got := got', buf := buf' } t' := by
  obtain rfl := h.regs
  have hlength : (bracket calls).length = callCount i + 2 := by simp [bracket, hcalls]
  have hdecode : decode t.cfg (encode s.cfg i) = .ok i := by
    rw [h.cfg]
    exact decode_encode_of_wf h.wf i
  have hrun : runLine (frameLine s.cfg i) { t with todo := rest } = .next t' :=
    (runFrame_of_decode (s := { t with todo := rest }) hdecode).trans hex
  refine h.issues (ev' := bracket calls) hrun hdone.trace ?_ ?_ hdone.kept.cfg hdone.kept.program hdone.kept.port hdone.todo ?_
  · rw [hlength]
    exact exec_env (s := { t with todo := rest }) hm (h.okNext hok) hex
  · rw [hlength, ← hcalls]
    exact hdone.pc
  · simp [State.regs, hdone.life, hdone.kept.mode, hdone.cs, hdone.kept.wp, hdone.kept.hold, hgot, hbuf]

/-- The frame of an instruction that only sends, by one half-duplex call (R158, R159, R160, R162, R165). -/
theorem send {i : Instr} (h : Underway s r k ev (frameLine s.cfg i :: rest) g t) (hsend : sendsOnly i = true)
    (hm : g.mode ≠ .held) (hok : Env.okNext (ev.length + 3) s.env = true) :
    ∃ t', Underway s r (k + 1) (ev ++ bracket [.write (encode s.cfg i) true]) rest { g with cs := .deasserted } t' := by
  obtain ⟨hex, hcalls⟩ := exec_send_ok (s := { t with todo := rest }) hsend (h.mode.trans_ne hm) (h.okNext hok)
  obtain ⟨hdone, hgot, hbuf⟩ := afterSend_done (encode t.cfg i) { t with todo := rest }
  rw [← h.cfg]
  exact ⟨_, h.frame hm (hcalls ▸ hok) hex hdone hcalls.symm (hgot.trans h.got) (hbuf.trans h.buf)⟩

/-- The status frame (R161): the second byte received is kept. -/
theorem readStatus (h : Underway s r k ev (frameLine s.cfg .rdsr :: rest) g t) (hm : g.mode ≠ .held)
    (hok : Env.okNext (ev.length + 3) s.env = true) :
    ∃ t' r0 r1, Underway s r (k + 1) (ev ++ bracket [.xfer [s.cfg.opc.readStatus, 0x00] (some [r0, r1])]) rest
      { g with cs := .deasserted, got := some r1 } t' := by
  obtain ⟨t', r0, r1, hex, hdone, hgot, hbuf⟩ :=
    statusReadFrameCompletes { t with todo := rest } (h.mode.trans_ne hm) (h.okNext hok)
  rw [← h.cfg]
  exact ⟨t', r0, r1, h.frame hm hok hex hdone rfl hgot (hbuf.trans h.buf)⟩

/-- The identity frame (R166): the last byte received is kept. -/
theorem readIdentity (h : Underway s r k ev (frameLine s.cfg .rpd :: rest) g t) (hm : g.mode ≠ .held)
    (hok : Env.okNext (ev.length + 3) s.env = true) :
    ∃ t' rs id, rs.length = (if s.cfg.id5 then 4 else 3) ∧
      Underway s r (k + 1) (ev ++ bracket [.xfer (s.cfg.opc.releasePowerDown ::
        List.replicate (if s.cfg.id5 then 4 else 3) 0x00) (some (rs ++ [id]))]) rest
        { g with cs := .deasserted, got := some id } t' := by
  obtain ⟨t', rs, id, hex, hlength, hdone, hgot, hbuf⟩ :=
    identityFrameCompletes { t with todo := rest } (h.mode.trans_ne hm) (h.okNext hok)
  rw [← h.cfg]
  exact ⟨t', rs, id, hlength, h.frame hm hok hex hdone rfl hgot (hbuf.trans h.buf)⟩

/-- The read frame (R163): the received bytes replace the first ones of the host buffer. -/
theorem read {a : Addr} {d : List Byte} (h : Underway s r k ev (frameLine s.cfg (.read a d) :: rest) g t)
    (hm : g.mode ≠ .held) (hok : Env.okNext (ev.length + 4) s.env = true) :
    ∃ t' rs, rs.length = d.length ∧
      Underway s r (k + 1) (ev ++ bracket [.write (be32 (commandWord s.cfg.opc .read a)) true, .xfer d (some rs)]) rest
        { g with cs := .deasserted, buf := rs ++ g.buf.drop d.length } t' := by
  obtain ⟨hcompletes, -⟩ := readFrameCompletes { t with todo := rest } a d (h.mode.trans_ne hm)
  obtain ⟨t', rs, hex, hlength, hdone, hbuf, hgot⟩ := hcompletes (h.okNext hok)
  rw [← h.cfg, ← h.buf]
  exact ⟨t', rs, hlength, h.frame hm hok hex hdone rfl (hgot.trans h.got) hbuf⟩

/-- The write frame (R164). -/
theorem write {a : Addr} {d : List Byte} (h : Underway s r k ev (frameLine s.cfg (.write a d) :: rest) g t)
    (hm : g.mode ≠ .held) (hok : Env.okNext (ev.length + 4) s.env = true) :
    ∃ t', Underway s r (k + 1) (ev ++ bracket [.write (be32 (commandWord s.cfg.opc .write a)) true, .write d true]) rest
      { g with cs := .deasserted } t' := by
  obtain ⟨t', hex, hdone, hgot, hbuf⟩ :=
    writeFrameCompletes { t with todo := rest } a d (h.mode.trans_ne hm) (h.okNext hok)
  rw [← h.cfg]
  exact ⟨t', h.frame hm hok hex hdone rfl (hgot.trans h.got) (hbuf.trans h.buf)⟩

/-! ### The two ends of an operation -/

/-- `return v` (R22). -/
theorem returns {v : Value} (h : Underway s r k ev (.ret v :: rest) g t) :
    core.run (k + 1) (s.ask r) = .next (finish v t) :=
  h.run_line rfl

/-- `return` the byte the operation received last (R185, R193). -/
theorem returnsByte {b : Byte} (h : Underway s r k ev (.retByte :: rest) g t) (hgot : g.got = some b) :
    core.run (k + 1) (s.ask r) = .next (finish (.byte b) t) := by
  have hbyte : t.gotByte = b := by simp [State.gotByte, h.got, hgot]
  rw [← hbyte]
  exact h.run_line rfl

/-- `return` the host buffer (R189). -/
theorem returnsBuffer {bs : List Byte} (h : Underway s r k ev (.retBuffer :: rest) g t) (hbuf : g.buf = bs) :
    core.run (k + 1) (s.ask r) = .next (finish (.bytes bs) t) := by
  rw [← hbuf, ← h.buf]
  exact h.run_line rfl

/-- An operation that returns with the lifecycle and WP as it found them is done (R22, R24). -/
theorem done (h : Underway s r k ev lines g t) (v : Value) (hlife : g.life = s.life) (hwp : g.wp = s.wp) :
    OpDone ev v s (finish v t) where
  trace := h.trace
  result := rfl
  pc := rfl
  todo := rfl
  got := rfl
  life := h.life.trans hlife
  cfg := h.cfg
  wp := h.wp.trans hwp
  program := h.program

end Underway

/-- The first step takes the request from the port and begins its operation (R180, R34). -/
theorem underway_of_accept {buf : List Byte} (hwf : s.cfg.wf = true) (hop : r.opName = some o)
    (hacc : accept r s = .next (start r s))
    (hstart : start r { s with port := none } = begin o lines buf { s with port := none }) :
    ∃ t, Underway s r 1 [] lines { s.regs with got := none, buf := buf } t := by
  obtain ⟨-, hadm, -⟩ := accept_next hacc
  have hstep : step (s.ask r) = .next (begin o lines buf { s with port := none }) := by
    rw [← hstart, ← accept_of_admission (s := { s with port := none }) hadm]
    simp [step, advance, State.ask, hwf]
  exact ⟨_, run_succ (k := 0) rfl hstep, hwf, (List.append_nil _).symm, Env.sameOutcomes_refl _, ⟨o, 0, hop, rfl⟩, rfl,
    rfl, rfl, rfl, rfl⟩

/-- An idle Ready block begins an operation that none of the tests after the operands refuses (R180). -/
theorem ReadyIdle.underway {buf : List Byte} (hs : ReadyIdle s) (hop : r.opName = some o) (hne : o ≠ .init)
    (hoperands : r.operandsOk = true) (hheld : ¬ (o.framedDriver = true ∧ s.mode = .held))
    (hsleep : ¬ (o = .deepSleep ∧ s.cfg.sleep = false)) (hhold : ¬ (o = .hold ∧ (s.cfg.hold = false ∨ s.mode ≠ .active)))
    (hstart : start r { s with port := none } = begin o lines buf { s with port := none }) :
    ∃ t, Underway s r 1 [] lines { s.regs with got := none, buf := buf } t := by
  obtain ⟨-, htable⟩ := admissionFollowsTheTable r s
  obtain ⟨-, -, hokay⟩ := htable hs.idle
  obtain ⟨-, -, -, hops⟩ := hokay (Request.known_of_opName hop) hoperands
  obtain ⟨-, hready⟩ := hops o hop hne
  obtain ⟨-, -, -, -, hadmitted⟩ := hready hs.ready
  exact underway_of_accept hs.wf hop (hadmitted hheld hsleep hhold) hstart

/-- A driver operation whose only condition is that the block is outside Held begins there. -/
theorem ReadyIdle.underway_framed {buf : List Byte} (hs : ReadyIdle s) (hm : s.mode ≠ .held) (hop : r.opName = some o)
    (hframed : o.framedDriver = true) (hsleep : o = .deepSleep → s.cfg.sleep = true) (hoperands : r.operandsOk = true)
    (hstart : start r { s with port := none } = begin o lines buf { s with port := none }) :
    ∃ t, Underway s r 1 [] lines { s.regs with got := none, buf := buf } t := by
  refine hs.underway hop ?_ hoperands (fun h => hm h.2) (fun h => ?_) ?_ hstart
  · rintro rfl; cases hframed
  · cases (hsleep h.1).symm.trans h.2
  · rintro ⟨rfl, -⟩; cases hframed

end

/-! ### READ_STATUS, WRITE_STATUS, WRITE_ENABLE, WRITE_DISABLE -/

/-- An operation of one sending frame and a return without a value (R186 to R188). -/
theorem one_send_runs {s t : State} {r : Request} {i : Instr} {g : Regs}
    (h : Underway s r 1 [] [frameLine s.cfg i, .ret .unit] g t) (hsend : sendsOnly i = true) (hm : g.mode ≠ .held)
    (hok : Env.okNext 3 s.env = true) (hlife : g.life = s.life) (hwp : g.wp = s.wp) :
    ∃ u, core.run 3 (s.ask r) = .next u ∧ OpDone (bracket [.write (encode s.cfg i) true]) .unit s u ∧ u.mode = g.mode ∧
      u.cs = .deasserted ∧ u.hold = g.hold ∧ u.buf = g.buf := by
  obtain ⟨t, h⟩ := h.send hsend hm hok
  exact ⟨_, h.returns, h.done .unit hlife hwp, h.mode, h.cs, h.hold, h.buf⟩

/-- Settles O48: one status frame, or one sending frame (`one_send_runs`). -/
theorem statusAndLatchOperationsRun : Obligations.StatusAndLatchOperationsRun := by
  intro s hs hm hok
  refine ⟨?_, fun v hv => ?_, ?_, ?_⟩
  · obtain ⟨t, h⟩ := hs.underway_framed (r := .readStatus) hm rfl rfl nofun rfl rfl
    obtain ⟨t, r0, r1, h⟩ := h.readStatus hm hok
    exact ⟨_, r0, r1, h.returnsByte rfl, h.done _ rfl rfl, h.mode, h.cs, h.hold, h.buf⟩
  · obtain ⟨t, h⟩ := hs.underway_framed (r := .writeStatus v) hm rfl rfl nofun (decide_eq_true hv) rfl
    exact one_send_runs h rfl hm hok rfl rfl
  · obtain ⟨t, h⟩ := hs.underway_framed (r := .writeEnable) hm rfl rfl nofun rfl rfl
    exact one_send_runs h rfl hm hok rfl rfl
  · obtain ⟨t, h⟩ := hs.underway_framed (r := .writeDisable) hm rfl rfl nofun rfl rfl
    exact one_send_runs h rfl hm hok rfl rfl

/-! ### READ and WRITE -/

/-- Settles O49: the read fills the whole host buffer, which the request has brought. -/
theorem readAndWriteOperationsRun : Obligations.ReadAndWriteOperationsRun := by
  intro s a d hs hm hok ha
  constructor
  · obtain ⟨t, h⟩ := hs.underway_framed (r := .read a d) hm rfl rfl nofun (decide_eq_true ha) rfl
    obtain ⟨t, rs, hlength, h⟩ := h.read hm hok
    have hbuf : rs ++ d.drop d.length = rs := by simp
    exact ⟨_, rs, h.returnsBuffer hbuf, hlength, h.done _ rfl rfl, h.buf.trans hbuf, h.mode, h.cs, h.hold⟩
  · obtain ⟨t, h⟩ := hs.underway_framed (r := .write a d) hm rfl rfl nofun (decide_eq_true ha) rfl
    obtain ⟨t, h⟩ := h.write hm hok
    exact ⟨_, h.returns, h.done _ rfl rfl, h.mode, h.cs, h.hold⟩

/-! ### ERASE -/

/-- The frame of an erase is its command word (R103, R165). -/
theorem encode_eraseInstr (c : Config) (g : Granularity) (a : Addr) :
    encode c (eraseInstr g a) = be32 (commandWord c.opc (granularityOpcode g) a) := by
  cases g <;> rfl

theorem sendsOnly_eraseInstr (g : Granularity) (a : Addr) : sendsOnly (eraseInstr g a) = true := by
  cases g <;> rfl

/-- Settles O50: bit 0 of the status byte alone decides whether the two sending frames follow. -/
theorem eraseRuns : Obligations.EraseRuns := by
  intro s a g hs hm hok ha
  obtain ⟨t, h⟩ := hs.underway_framed (r := .erase a (some g)) hm rfl rfl nofun (by simpa [Request.operandsOk] using ha) rfl
  obtain ⟨t, r0, r1, h⟩ := h.readStatus hm hok
  refine ⟨t, r0, r1, h.run, h.trace, fun hbusy => ?_, fun hidle hok => ?_⟩
  · obtain ⟨o, j, hop, hpc⟩ := h.pc
    have hlife : (raise .deviceBusy t).life = s.life :=
      (raise_life_other _ t fun j' hj => by cases hop; cases hpc.symm.trans hj).trans h.life
    exact ⟨_, h.busyStatus rfl hbusy, rfl, rfl, rfl, h.mode, hlife, h.cs⟩
  · obtain ⟨t, h⟩ := h.idleStatus rfl hidle
    obtain ⟨t, h⟩ := h.send (i := .wren) rfl hm (Env.okNext_le hok (by simp [bracket]))
    obtain ⟨t, h⟩ := h.send (i := eraseInstr g (addrField a)) (sendsOnly_eraseInstr _ _) hm hok
    rw [encode_eraseInstr] at h
    exact ⟨_, h.returns, h.done _ rfl rfl, h.mode, h.cs⟩

/-! ### DEEP_SLEEP and WAKE -/

/-- Settles O51: the mode moves after the frame. -/
theorem sleepAndWakeOperationsRun : Obligations.SleepAndWakeOperationsRun := by
  intro s hs hm hok
  refine ⟨fun hsleep => ?_, ?_⟩
  · obtain ⟨t, h⟩ := hs.underway_framed (r := .deepSleep) hm rfl rfl (fun _ => hsleep) rfl rfl
    obtain ⟨t, h⟩ := h.send (i := .dpd) rfl hm hok
    obtain ⟨t, h⟩ := h.setMode
    exact ⟨_, h.returns, h.done _ rfl rfl, h.mode, h.cs⟩
  · obtain ⟨t, h⟩ := hs.underway_framed (r := .wake) hm rfl rfl nofun rfl rfl
    obtain ⟨t, rs, id, hlength, h⟩ := h.readIdentity hm hok
    obtain ⟨t, h⟩ := h.setMode
    exact ⟨_, rs, id, h.returnsByte rfl, hlength, h.done _ rfl rfl, h.mode, h.cs⟩

/-! ### HOLD and UNHOLD -/

/-- An operation whose first event fails ends with the mode and HOLD as they were (R151, R238). -/
theorem first_signal_fails {s t : State} {r : Request} {x : Signal} {lv : Level} {rest : List Line} {g : Regs}
    (h : Underway s r 1 [] (.sig x lv :: rest) g t) (hfails : Env.okNext 1 s.env = false) :
    ∃ u, core.run 2 (s.ask r) = .next u ∧ u.result = some (.err .signalError) ∧ u.mode = g.mode ∧ u.hold = g.hold ∧
      u.pc = .idle ∧ u.trace = s.trace ++ [.sig x lv false] := by
  have hout : t.outcome = false := by
    rw [State.outcome, Env.sameOutcomes_outcome h.env]
    simpa [Env.okNext, Env.dropOutcomes] using hfails
  exact ⟨_, h.signal_fails hout, rfl, h.mode, h.hold, rfl, by simp [h.trace]⟩

/-- Settles O52: the mode moves after the event, and an event that fails ends the operation before the move. -/
theorem holdAndUnholdOperationsRun : Obligations.HoldAndUnholdOperationsRun := by
  intro s hs
  have hunhold : ∃ t, Underway s .unhold 1 [] unholdLines { s.regs with got := none } t :=
    hs.underway rfl nofun rfl nofun nofun nofun rfl
  refine ⟨fun hvariant hactive => ?_, fun hok => ?_, fun hfails => ?_⟩
  · obtain ⟨t, h⟩ := hs.underway (r := .hold) (o := .hold) rfl nofun rfl nofun nofun (by simp [hvariant, hactive]) rfl
    refine ⟨fun hok => ?_, fun hfails => ?_⟩
    · obtain ⟨t, h⟩ := h.signal hok
      obtain ⟨t, h⟩ := h.setMode
      exact ⟨_, h.returns, h.done _ rfl rfl, h.mode, h.hold, h.cs⟩
    · rw [← hactive]
      exact first_signal_fails h hfails
  · obtain ⟨t, h⟩ := hunhold
    obtain ⟨t, h⟩ := h.signal hok
    obtain ⟨t, h⟩ := h.leaveHeld
    exact ⟨_, h.returns, h.done _ rfl rfl, h.mode, h.hold, h.cs⟩
  · obtain ⟨t, h⟩ := hunhold
    exact first_signal_fails h hfails

/-! ### INIT -/

/-- The lines of INIT after its identity check (R181). -/
def initRest (c : Config) : List Line :=
  (if c.srProt then initProtectLines c else []) ++ [.sig .hold .deasserted, .becomeReady, .ret .unit]

theorem initLines_eq (c : Config) :
    initLines c = .sig .cs .deasserted :: .sig .hold .deasserted :: .sig .wp .deasserted :: frameLine c .rpd ::
      .setMode .active :: .checkIdentity :: initRest c := by
  simp [initLines, initRest]

/-- The last three lines of INIT (R181). -/
theorem init_ends {s t : State} {k : Nat} {ev : List Event} {g : Regs}
    (h : Underway s .init k ev [.sig .hold .deasserted, .becomeReady, .ret .unit] g t)
    (hok : Env.okNext (ev.length + 1) s.env = true) (hmode : g.mode = .active) (hcs : g.cs = .deasserted)
    (hwp : g.wp = .deasserted) :
    ∃ u, core.run (k + 3) (s.ask .init) = .next u ∧ u.trace = s.trace ++ (ev ++ [.sig .hold .deasserted true]) ∧
      u.result = some (.ok .unit) ∧ u.life = .ready ∧ u.mode = .active ∧ u.cs = .deasserted ∧ u.hold = .deasserted ∧
      u.wp = .deasserted ∧ u.pc = .idle ∧ u.got = none := by
  obtain ⟨t, h⟩ := h.signal hok
  obtain ⟨t, h⟩ := h.becomeReady
  exact ⟨_, h.returns, h.trace, rfl, h.life, h.mode.trans hmode, h.cs.trans hcs, h.hold, h.wp.trans hwp, rfl, rfl⟩

/-- `P_INITSR` by default is the byte with level None (R15). -/
theorem initStatus_default {c : Config} (h : c.initSr = []) (b : Byte) : initStatus c b = b &&& 0xF3#8 := by
  simp [initStatus, h, srSetPl, codeOf]

/-- Settles O47: the identity byte parts the ways after six events, and P_SRPROT the ways that lead to Ready. -/
theorem initRuns : Obligations.InitRuns := by
  intro s hwf hidle huninit hm hok
  obtain ⟨-, htable⟩ := admissionFollowsTheTable .init s
  obtain ⟨-, -, hokay⟩ := htable hidle
  obtain ⟨-, hadmitted, -⟩ := hokay rfl rfl
  obtain ⟨t, h⟩ := underway_of_accept hwf rfl (hadmitted rfl huninit) rfl
  rw [initLines_eq] at h
  obtain ⟨t, h⟩ := h.signal (Env.okNext_le hok (by simp))
  obtain ⟨t, h⟩ := h.signal (Env.okNext_le hok (by simp))
  obtain ⟨t, h⟩ := h.signal (Env.okNext_le hok (by simp))
  obtain ⟨u, rs, id, hlength, hu⟩ := h.readIdentity hm hok
  obtain ⟨t, h⟩ := hu.setMode
  refine ⟨u, rs, id, hu.run, hlength, by simp [hu.trace], fun hid => ?_, fun hid hplain hok => ?_, fun hid hprot hok => ?_,
    initStatus_default⟩
  · obtain ⟨o, j, hop, hpc⟩ := h.pc
    cases hop
    exact ⟨_, h.wrongIdentity rfl hid, rfl, raise_life_init _ t j hpc, h.mode, h.trace.trans hu.trace.symm, rfl⟩
  · obtain ⟨t, h⟩ := h.knownIdentity (congrArg some hid)
    rw [initRest, hplain] at h
    obtain ⟨t, hrun, htrace, hend⟩ := init_ends h hok rfl rfl rfl
    exact ⟨t, hrun, by simp [htrace, hu.trace], hend⟩
  · obtain ⟨t, h⟩ := h.knownIdentity (congrArg some hid)
    rw [initRest, hprot] at h
    obtain ⟨t, r0, r1, h⟩ := h.readStatus nofun (Env.okNext_le hok (by simp [bracket]))
    obtain ⟨t, h⟩ := h.send (i := .wren) rfl nofun (Env.okNext_le hok (by simp [bracket]))
    obtain ⟨t, h⟩ := h.writeInitStatus rfl
    obtain ⟨t, h⟩ := h.send (i := .wrsr _) rfl nofun (Env.okNext_le hok (by simp [bracket]))
    obtain ⟨t, h⟩ := h.send (i := .wren) rfl nofun (Env.okNext_le hok (by simp [bracket]))
    obtain ⟨t, h⟩ := h.send (i := .wrdi) rfl nofun (Env.okNext_le hok (by simp [bracket]))
    obtain ⟨t, hrun, htrace, hend⟩ := init_ends h hok rfl rfl rfl
    exact ⟨t, r0, r1, hrun, by simp [htrace, hu.trace, encode, OpcodeMap.get], hend⟩

end Sys2Proof.Machine
end

section
/-! The bursts of a storage write (43_storage_operations.md R211, R215, R216): the law of the chunks, and the burst about to be
sent in a running operation. -/

namespace Sys2Proof.Machine

/-! ### Chunks -/

theorem bursts_zero (page fuel cur : Nat) : bursts page fuel cur 0 = [] := by
  cases fuel <;> simp [bursts]

theorem bursts_succ {page fuel cur rem : Nat} (hrem : 0 < rem) :
    bursts page (fuel + 1) cur rem =
      (cur, chunk page cur rem) :: bursts page fuel (cur + chunk page cur rem) (rem - chunk page cur rem) := by
  simp [bursts, Nat.ne_of_gt hrem]

/-- A chunk is all that is left, or it fills its page (R211). -/
theorem chunk_ends {page cur rem : Nat} (hpage : 0 < page) :
    chunk page cur rem = rem ∨ chunk page cur rem < rem ∧ cur + chunk page cur rem = page * (cur / page + 1) := by
  have hdiv := Nat.div_add_mod cur page
  have hmod := Nat.mod_lt cur hpage
  rw [Nat.mul_succ]
  unfold chunk
  omega

/-- A burst that does not pass the end of its page lies inside it (R216). -/
theorem same_page {page cur n : Nat} (hpos : 1 ≤ n) (hfit : n ≤ page - cur % page) :
    cur / page = (cur + n - 1) / page := by
  have hdiv := Nat.div_add_mod cur page
  have hsplit : cur + n - 1 = page * (cur / page) + (cur % page + n - 1) := by omega
  have hlt : cur % page + n - 1 < page := by omega
  rw [hsplit, Nat.mul_add_div (by omega), Nat.div_eq_of_lt hlt, Nat.add_zero]

/-! ### The burst law -/

/-- What R211 and R216 say of one burst of a write from `cur` to `stop`. -/
structure BurstOk (page cur stop : Nat) (x : Nat × Nat) : Prop where
  pos : 1 ≤ x.2
  le_page : x.2 ≤ page
  inPage : x.1 / page = (x.1 + x.2 - 1) / page
  from_cur : cur ≤ x.1
  to_stop : x.1 + x.2 ≤ stop
  aligned : x.1 = cur ∨ x.1 % page = 0
  full : x.1 = cur ∨ x.1 + x.2 = stop ∨ x.2 = page

theorem chunk_ok {page cur rem : Nat} (hpage : 0 < page) (hrem : 0 < rem) :
    BurstOk page cur (cur + rem) (cur, chunk page cur rem) := by
  obtain ⟨hpos, hfit, hle⟩ := chunk_bounds (cur := cur) hpage hrem
  exact ⟨hpos, by omega, same_page hpos hfit, Nat.le_refl _, by simp only; omega, .inl rfl, .inl rfl⟩

/-- A chunk from a page boundary on is a page long, or the last. -/
theorem chunk_full {page cur rem : Nat} (hcur : cur % page = 0) : chunk page cur rem = rem ∨ chunk page cur rem = page := by
  unfold chunk
  omega

/-- A burst that is in order after a chunk that fills its page is in order before it too: it starts on a page boundary, and
ends the write or has a whole page. -/
theorem burst_ok {page fuel cur rem : Nat} (hpage : 0 < page) {x : Nat × Nat} (hx : x ∈ bursts page fuel cur rem) :
    BurstOk page cur (cur + rem) x ∧ (x.1 = cur → x.2 = chunk page cur rem) := by
  induction fuel generalizing cur rem with
  | zero => simp [bursts] at hx
  | succ fuel ih =>
    rcases Nat.eq_zero_or_pos rem with rfl | hrem
    · simp [bursts_zero] at hx
    rw [bursts_succ hrem, List.mem_cons] at hx
    obtain ⟨hpos, -, hle⟩ := chunk_bounds (cur := cur) hpage hrem
    rcases hx with rfl | hx
    · exact ⟨chunk_ok hpage hrem, fun _ => rfl⟩
    rcases chunk_ends (cur := cur) (rem := rem) hpage with hall | ⟨hlt, hboundary⟩
    · simp [hall, bursts_zero] at hx
    obtain ⟨hok, hfirst⟩ := ih hx
    have hzero : (cur + chunk page cur rem) % page = 0 := by rw [hboundary, Nat.mul_mod_right]
    have hstop : cur + chunk page cur rem + (rem - chunk page cur rem) = cur + rem := by omega
    rw [hstop] at hok
    refine ⟨⟨hok.pos, hok.le_page, hok.inPage, by have := hok.from_cur; omega, hok.to_stop, .inr ?_, .inr ?_⟩, ?_⟩
    · rcases hok.aligned with heq | hmod
      · rwa [heq]
      · exact hmod
    · rcases hok.full with heq | hend
      · rcases chunk_full (rem := rem - chunk page cur rem) hzero with hlast | hwhole
        · left; rw [hfirst heq, heq, hlast, hstop]
        · right; rw [hfirst heq, hwhole]
      · exact hend
    · intro heq
      have := hok.from_cur
      omega

theorem bursts_sum {page fuel cur rem : Nat} (hpage : 0 < page) (hfuel : rem ≤ fuel) :
    ((bursts page fuel cur rem).map (·.2)).sum = rem := by
  induction fuel generalizing cur rem with
  | zero => simp [bursts, Nat.le_zero.mp hfuel]
  | succ fuel ih =>
    rcases Nat.eq_zero_or_pos rem with rfl | hrem
    · simp [bursts_zero]
    obtain ⟨hpos, -, hle⟩ := chunk_bounds (cur := cur) hpage hrem
    rw [bursts_succ hrem, List.map_cons, List.sum_cons, ih (by omega)]
    omega

theorem bursts_head {page fuel cur rem : Nat} {x : Nat × Nat} (h : (bursts page fuel cur rem)[0]? = some x) :
    x = (cur, chunk page cur rem) := by
  cases fuel with
  | zero => simp [bursts] at h
  | succ fuel =>
    rcases Nat.eq_zero_or_pos rem with rfl | hrem
    · simp [bursts_zero] at h
    · simpa [bursts_succ hrem] using h.symm

theorem bursts_contiguous {page fuel cur rem k : Nat} {x y : Nat × Nat} (hx : (bursts page fuel cur rem)[k]? = some x)
    (hy : (bursts page fuel cur rem)[k + 1]? = some y) : y.1 = x.1 + x.2 := by
  induction fuel generalizing cur rem k with
  | zero => simp [bursts] at hx
  | succ fuel ih =>
    rcases Nat.eq_zero_or_pos rem with rfl | hrem
    · simp [bursts_zero] at hx
    rw [bursts_succ hrem, List.getElem?_cons_succ] at hy
    cases k with
    | zero => rw [bursts_head hx, bursts_head hy]
    | succ k =>
      rw [bursts_succ hrem, List.getElem?_cons_succ] at hx
      exact ih hx hy

/-- There are as many bursts as pages that the range touches (R215). -/
theorem bursts_length {page fuel cur rem : Nat} (hpage : 0 < page) (hrem : 0 < rem) (hfuel : rem ≤ fuel) :
    (bursts page fuel cur rem).length = (cur + rem - 1) / page - cur / page + 1 := by
  induction fuel generalizing cur rem with
  | zero => omega
  | succ fuel ih =>
    obtain ⟨hpos, hfit, hle⟩ := chunk_bounds (cur := cur) hpage hrem
    rw [bursts_succ hrem, List.length_cons]
    rcases chunk_ends (cur := cur) (rem := rem) hpage with hall | ⟨hlt, hboundary⟩
    · have hpages := same_page hpos hfit
      rw [hall] at hpages
      simp [hall, bursts_zero, ← hpages]
    · have hnext : (cur + chunk page cur rem) / page = cur / page + 1 := by
        rw [hboundary, Nat.mul_div_cancel_left _ hpage]
      have hstop : cur + chunk page cur rem + (rem - chunk page cur rem) - 1 = cur + rem - 1 := by omega
      have hpages : cur / page + 1 ≤ (cur + rem - 1) / page := by
        rw [← hnext]
        exact Nat.div_le_div_right (by omega)
      rw [ih (by omega) (by omega), hnext, hstop]
      omega

/-- Settles O55: each burst by `burst_ok`, the whole of them by induction on the fuel, which the length bounds. -/
theorem burstLaw : Obligations.BurstLaw := by
  intro page off len hpage
  refine ⟨fun x hx => ?_, bursts_sum hpage (Nat.le_refl len), fun k x y hx hy => bursts_contiguous hx hy, fun hlen => ?_, ?_⟩
  · obtain ⟨h, -⟩ := burst_ok hpage hx
    exact ⟨h.pos, h.le_page, h.inPage, h.from_cur, h.to_stop, h.aligned, h.full⟩
  · obtain ⟨fuel, rfl⟩ : ∃ fuel, len = fuel + 1 := ⟨len - 1, by omega⟩
    exact ⟨by simp [bursts_succ hlen], bursts_length hpage hlen (Nat.le_refl _)⟩
  · rintro rfl
    rfl

/-! ### The burst about to be sent -/

/-- What the plan asks before a burst is sent (R35, R210, R216). -/
theorem plan_writeBurst {c : Config} {v : View} {rest : List Line} (h : planOk c v (.writeBurst :: rest) = true) :
    1 ≤ v.n ∧ v.n ≤ c.page - v.cur % c.page ∧ v.n ≤ v.len - v.idx ∧ v.cur + v.n ≤ c.cap := by
  simp only [planOk, Bool.and_eq_true, decide_eq_true_eq] at h
  obtain ⟨⟨⟨⟨⟨-, hpos⟩, hfit⟩, hlen⟩, hcap⟩, -⟩ := h
  exact ⟨hpos, hfit, hlen, hcap⟩

/-- Settles O45: the plan of the running operation has tested the burst. -/
theorem everyBurstIsInsideOnePage : Obligations.EveryBurstIsInsideOnePage := by
  rintro s rest hInv ⟨o, k, hpc⟩ htodo
  obtain ⟨-, hcap, -, -⟩ := Config.wf_facts hInv.wf
  obtain ⟨hplan, -⟩ := hInv.running hpc
  obtain ⟨hpos, hfit, hlen, hin⟩ : 1 ≤ s.n ∧ s.n ≤ s.cfg.page - s.cur % s.cfg.page ∧ s.n ≤ s.buf.length - s.idx ∧
    s.cur + s.n ≤ s.cfg.cap := plan_writeBurst (htodo ▸ hplan)
  refine ⟨hpos, by omega, hin, same_page hpos hfit, ?_, ?_⟩
  · rw [addrField, BitVec.toNat_ofNat, Nat.mod_eq_of_lt (by omega)]
  · simp [memRead, hlen]

end Sys2Proof.Machine
end

section
/-! The bytes the oracle sends (20_memory.md R81, R167), and the busy-wait of a storage write (43_storage_operations.md R214,
R220). -/

namespace Sys2Proof.Machine

/-! ### The bytes to come -/

/-- Two draw states give the same received bytes from here on. -/
def Env.sameBytes (e e' : Env) : Prop :=
  e.bytes = e'.bytes ∧ e.byteCount = e'.byteCount

theorem Env.sameBytes_refl (e : Env) : e.sameBytes e := ⟨rfl, rfl⟩

theorem Env.sameBytes_trans {e e' e'' : Env} (h : e.sameBytes e') (h' : e'.sameBytes e'') : e.sameBytes e'' :=
  ⟨h.1.trans h'.1, h.2.trans h'.2⟩

theorem Env.sameBytes_drawOutcome (e : Env) : e.drawOutcome.2.sameBytes e := by
  unfold Env.drawOutcome; split <;> exact ⟨rfl, rfl⟩

theorem Env.drawByte_congr {e e' : Env} (h : e.sameBytes e') :
    e.drawByte.1 = e'.drawByte.1 ∧ e.drawByte.2.sameBytes e'.drawByte.2 := by
  obtain ⟨hbytes, hcount⟩ := h
  simp only [Env.drawByte, hbytes, hcount]
  split
  · exact ⟨rfl, rfl, rfl⟩
  · exact ⟨rfl, rfl, rfl⟩

theorem Env.nextBytes_congr {e e' : Env} (n : Nat) (h : e.sameBytes e') : Env.nextBytes n e = Env.nextBytes n e' := by
  induction n generalizing e e' with
  | zero => rfl
  | succ n ih =>
    obtain ⟨hbyte, hrest⟩ := Env.drawByte_congr h
    rw [Env.nextBytes, Env.nextBytes, hbyte, ih hrest]

theorem Env.afterBytes_congr {e e' : Env} (n : Nat) (h : e.sameBytes e') :
    (Env.afterBytes n e).sameBytes (Env.afterBytes n e') := by
  induction n generalizing e e' with
  | zero => exact h
  | succ n ih => exact ih (Env.drawByte_congr h).2

theorem Env.afterBytes_add (j k : Nat) (e : Env) : Env.afterBytes (j + k) e = Env.afterBytes k (Env.afterBytes j e) := by
  induction j generalizing e with
  | zero => rw [Nat.zero_add]; rfl
  | succ j ih => rw [Nat.succ_add]; exact ih _

theorem Env.statusesRead_congr {busy : Bool} {n : Nat} {e e' : Env} (h : e.sameBytes e')
    (hst : Env.statusesRead busy n e) : Env.statusesRead busy n e' := by
  unfold Env.statusesRead at hst ⊢
  rwa [← Env.nextBytes_congr _ h]

theorem Env.nextBytes_add (j k : Nat) (e : Env) :
    Env.nextBytes (j + k) e = Env.nextBytes j e ++ Env.nextBytes k (Env.afterBytes j e) := by
  induction j generalizing e with
  | zero => rw [Nat.zero_add]; rfl
  | succ j ih => rw [Nat.succ_add, Env.nextBytes, ih]; rfl

/-- The first `j` status frames to come, and those after them. -/
theorem Env.statusesRead_add {busy : Bool} {j n : Nat} {e : Env} (h : Env.statusesRead busy (j + n) e) :
    Env.statusesRead busy j e ∧ Env.statusesRead busy n (Env.afterBytes (2 * j) e) := by
  unfold Env.statusesRead at h ⊢
  rw [Nat.mul_add, Env.nextBytes_add] at h
  constructor <;> intro i b hb
  · obtain ⟨hlt, -⟩ := List.getElem?_eq_some_iff.mp hb
    exact h i b ((List.getElem?_append_left hlt).trans hb)
  · refine h (j + i) b ?_
    rw [List.getElem?_append_right (by rw [Env.nextBytes_length]; omega), Env.nextBytes_length, ← hb]
    congr 1
    omega

/-- Bit 0 of the next status byte. -/
theorem Env.statusesRead_next {busy : Bool} {n : Nat} {e : Env} (h : Env.statusesRead busy (n + 1) e) :
    ((Env.nextBytes 2 e).getD 1 0).getLsbD 0 = busy :=
  h 0 _ rfl

/-- The exchange with the oracle draws a byte for each byte sent. -/
theorem drawBytes_after (bs : List Byte) (e : Env) : (drawBytes bs e).2 = Env.afterBytes bs.length e := by
  induction bs generalizing e with
  | nil => rfl
  | cons b bs ih => exact ih e.drawByte.2

/-! ### What a frame receives from the oracle -/

/-- With the oracle at the other end `t` is `s` after `n` received bytes. -/
def TookBytes (n : Nat) (s t : State) : Prop :=
  s.link = .oracle → t.link = .oracle ∧ t.env.sameBytes (Env.afterBytes n s.env)

theorem TookBytes.trans {m n : Nat} {s t u : State} (h : TookBytes m s t) (h' : TookBytes n t u) : TookBytes (m + n) s u := by
  intro hs
  obtain ⟨ht, hst⟩ := h hs
  obtain ⟨hu, htu⟩ := h' ht
  rw [Env.afterBytes_add]
  exact ⟨hu, Env.sameBytes_trans htu (Env.afterBytes_congr n hst)⟩

theorem tookBytes_signal (x : Signal) (lv : Level) (s : State) : TookBytes 0 s (s.afterSignal x lv) := by
  intro hs
  have htell : (s.drawn.record (.sig x lv true)).tellDevice x lv = s.drawn.record (.sig x lv true) := by
    simp [State.tellDevice, hs]
  simp only [State.afterSignal, htell, setPin_link, setPin_env]
  exact ⟨hs, Env.sameBytes_drawOutcome s.env⟩

theorem tookBytes_write (bs : List Byte) (s : State) : TookBytes 0 s (s.afterWrite bs) := by
  intro hs
  refine ⟨(ran_write bs s).oracle hs, ?_⟩
  simpa [State.afterWrite, Env.afterBytes] using Env.sameBytes_drawOutcome s.env

theorem exchange_oracle {s : State} (bs : List Byte) (hs : s.link = .oracle) :
    s.exchange bs = ((drawBytes bs s.env).1, { s with env := (drawBytes bs s.env).2 }) := by
  simp only [State.exchange, hs]

theorem tookBytes_xfer (bs : List Byte) (s : State) : TookBytes bs.length s (s.afterXfer bs) := by
  intro hs
  refine ⟨(ran_xfer bs s).oracle hs, ?_⟩
  simp only [State.afterXfer, exchange_oracle bs (show s.drawn.link = .oracle from hs), record_env, drawBytes_after]
  exact Env.afterBytes_congr _ (Env.sameBytes_drawOutcome s.env)

theorem received_oracle {s : State} (bs : List Byte) (hs : s.link = .oracle) :
    s.received bs = Env.nextBytes bs.length s.env := by
  simp [State.received, exchange_oracle bs (show s.drawn.link = .oracle from hs), drawBytes_eq]

/-- The two chip-select events of a frame receive nothing. -/
theorem TookBytes.closed {n : Nat} {s t : State} (h : TookBytes n s.opened t) : TookBytes n s t.closed := by
  simpa [State.closed] using ((tookBytes_signal .cs .asserted s).trans h).trans (tookBytes_signal .cs .deasserted t)

/-- How many bytes the frame of an instruction receives (R161, R163, R166). -/
def receivedCount (c : Config) : Instr → Nat
  | .read _ buf => buf.length
  | .rdsr => 2
  | .rpd => idDummies c + 1
  | _ => 0

theorem receivedCount_of_sendsOnly {c : Config} {i : Instr} (h : sendsOnly i = true) : receivedCount c i = 0 := by
  cases i with
  | read | write | rdsr | rpd => cases h
  | _ => rfl

/-- A completed instruction has taken the bytes its frame receives. -/
theorem exec_tookBytes {i : Instr} {s t : State} (hm : s.mode ≠ .held) (hok : Env.okNext (callCount i + 2) s.env = true)
    (h : exec i s = .next t) : TookBytes (receivedCount s.cfg i) s t := by
  cases hsend : sendsOnly i with
  | true =>
    rw [receivedCount_of_sendsOnly hsend]
    obtain ⟨hex, -⟩ := exec_send_ok hsend hm (Env.okNext_le hok (by cases i <;> simp [callCount]))
    obtain rfl := Host.Outcome.next.inj (h.symm.trans hex)
    exact (tookBytes_write _ s.opened).closed
  | false =>
    cases i with
    | read a buf =>
      obtain rfl := Host.Outcome.next.inj (h.symm.trans (execRead_ok hm hok))
      have hcalls := (tookBytes_write (header s.cfg.opc .read a) s.opened).trans (tookBytes_xfer buf _)
      rw [Nat.zero_add] at hcalls
      exact TookBytes.closed (t := State.fillBuffer _ _) hcalls
    | write a d =>
      obtain rfl := Host.Outcome.next.inj (h.symm.trans (execWrite_ok hm hok))
      exact ((tookBytes_write _ s.opened).trans (tookBytes_write d _)).closed
    | rdsr =>
      obtain rfl := Host.Outcome.next.inj (h.symm.trans (execRdsr_ok hm hok))
      exact (tookBytes_xfer _ s.opened).closed
    | rpd =>
      obtain rfl := Host.Outcome.next.inj (h.symm.trans (execRpd_ok hm hok))
      have hbytes := (tookBytes_xfer (s.cfg.opc.get .releasePowerDown :: zeroBytes (idDummies s.cfg)) s.opened).closed
      rw [List.length_cons, zeroBytes, List.length_replicate] at hbytes
      exact hbytes
    | _ => cases hsend

/-- The status byte is the second byte the oracle sends (R161). -/
theorem exec_rdsr_got {s t : State} (hm : s.mode ≠ .held) (hlink : s.link = .oracle) (hok : Env.okNext 3 s.env = true)
    (h : exec .rdsr s = .next t) : t.got = some ((Env.nextBytes 2 s.env).getD 1 0) := by
  obtain rfl := Host.Outcome.next.inj (h.symm.trans (execRdsr_ok hm hok))
  obtain ⟨hopen, hbytes⟩ := tookBytes_signal .cs .asserted s hlink
  have hrs : s.opened.received [s.cfg.opc.get .readStatus, 0x00] = Env.nextBytes 2 s.env :=
    (received_oracle _ hopen).trans (Env.nextBytes_congr 2 hbytes)
  rw [← hrs]
  rfl

/-! ### The tests of the busy-wait -/

theorem srBusy_gotByte {s : State} {b : Byte} (hgot : s.got = some b) : srBusy s.gotByte = b.getLsbD 0 := by
  rw [State.gotByte, hgot]
  rfl

theorem testPoll_idle {s : State} (hidle : srBusy s.gotByte = false) : testPoll s = { s with polls := s.polls + 1 } :=
  if_neg (Bool.eq_false_iff.mp hidle)

theorem testPoll_busy {s : State} (hbusy : srBusy s.gotByte = true) (hmore : ∀ m, s.cfg.poll = some m → s.polls + 1 < m) :
    testPoll s = { s with polls := s.polls + 1, todo := .poll :: s.todo } := by
  refine (if_pos hbusy).trans (if_neg ?_)
  cases hpoll : s.cfg.poll with
  | none => simp [pollsSpent, hpoll]
  | some m => simpa [pollsSpent, hpoll] using hmore m hpoll

theorem testPoll_spent {s : State} {m : Nat} (hbusy : srBusy s.gotByte = true) (hpoll : s.cfg.poll = some m)
    (hm : m ≤ s.polls + 1) : testPoll s = raise .writeTimeout { s with polls := s.polls + 1 } :=
  (if_pos hbusy).trans (if_pos (by simpa [pollsSpent, hpoll] using hm))

/-- Settles O58: the step runs the next line, and the three outcomes of the tests are `testPoll_idle`, `testPoll_busy` and
`testPoll_spent`. -/
theorem busyWaitTests : Obligations.BusyWaitTests := by
  intro s rest b hwf hport
  refine ⟨step_line hwf hport, step_line hwf hport, fun htodo hgot => ?_⟩
  rw [step_line hwf hport htodo]
  have hbusy := srBusy_gotByte (s := { s with todo := rest }) hgot
  refine ⟨fun hb => congrArg _ (testPoll_idle (hbusy.trans hb)),
    fun hb hmore => congrArg _ (testPoll_busy (hbusy.trans hb) ?_), ?_⟩
  · intro m hm
    rcases hmore with hnone | ⟨m', hm', hlt⟩
    · cases hnone.symm.trans hm
    · cases hm'.symm.trans hm
      exact hlt
  · rintro hb ⟨m, hpoll, hm⟩
    exact ⟨_, congrArg Host.Outcome.next (testPoll_spent (hbusy.trans hb) hpoll hm), rfl, rfl, rfl, rfl, rfl⟩

/-! ### The busy-wait of a device that stays busy -/

/-- A run from where another has come. -/
theorem run_append {j k : Nat} {s t u : State} (h : core.run j s = .next t) (h' : core.run k t = .next u) :
    core.run (j + k) s = .next u := by
  induction j generalizing s with
  | zero =>
    cases h
    rwa [Nat.zero_add]
  | succ j ih =>
    rw [Nat.succ_add]
    cases hs : step s with
    | next v =>
      rw [run_of_step hs] at h ⊢
      exact ih h
    | fault why => simp [Host.Core.run, core, hs] at h
    | refused why => simp [Host.Core.run, core, hs] at h

/-- `s` stands before lines of a busy-wait with `p` status reads counted, and the oracle answers. -/
structure Polling (c : Config) (lines : List Line) (p : Nat) (s : State) : Prop where
  wf : s.cfg.wf = true
  cfg : s.cfg = c
  port : s.port = none
  mode : s.mode ≠ .held
  oracle : s.link = .oracle
  todo : s.todo = lines
  polls : s.polls = p

/-- From `s` to `t` in `k` steps `j` status frames have succeeded. -/
structure ReadStatuses (k j : Nat) (s t : State) : Prop where
  run : core.run k s = .next t
  trace : t.trace.length = s.trace.length + 3 * j
  outcomes : t.env.sameOutcomes (s.env.dropOutcomes (3 * j))
  bytes : t.env.sameBytes (Env.afterBytes (2 * j) s.env)

namespace ReadStatuses

theorem refl (s : State) : ReadStatuses 0 0 s s :=
  ⟨rfl, rfl, Env.sameOutcomes_refl _, Env.sameBytes_refl _⟩

theorem trans {k j k' j' : Nat} {s t u : State} (h : ReadStatuses k j s t) (h' : ReadStatuses k' j' t u) :
    ReadStatuses (k + k') (j + j') s u where
  run := run_append h.run h'.run
  trace := by rw [h'.trace, h.trace]; omega
  outcomes := by
    rw [Nat.mul_add, Env.dropOutcomes_add]
    exact Env.sameOutcomes_trans h'.outcomes (Env.dropOutcomes_congr _ h.outcomes)
  bytes := by
    rw [Nat.mul_add, Env.afterBytes_add]
    exact Env.sameBytes_trans h'.bytes (Env.afterBytes_congr _ h.bytes)

theorem okNext {k j n : Nat} {s t : State} (h : ReadStatuses k j s t) (hok : Env.okNext (3 * j + n) s.env = true) :
    Env.okNext n t.env = true := by
  rw [Env.okNext_congr n h.outcomes]
  exact Env.okNext_dropOutcomes hok

theorem statusesRead {busy : Bool} {k j n : Nat} {s t : State} (h : ReadStatuses k j s t)
    (hst : Env.statusesRead busy (j + n) s.env) : Env.statusesRead busy n t.env :=
  Env.statusesRead_congr ⟨h.bytes.1.symm, h.bytes.2.symm⟩ (Env.statusesRead_add hst).2

end ReadStatuses

namespace Polling
variable {c : Config} {l : Line} {rest lines : List Line} {p p' : Nat} {s : State}

theorem step_next (h : Polling c (l :: rest) p s) : step s = runLine l { s with todo := rest } :=
  step_line h.wf h.port h.todo

/-- A line of the wait that issues no event. -/
theorem silent (h : Polling c (l :: rest) p s)
    (hrun : runLine l { s with todo := rest } = .next { s with todo := lines, polls := p' }) :
    ∃ t, Polling c lines p' t ∧ ReadStatuses 1 0 s t ∧ t.got = s.got :=
  ⟨{ s with todo := lines, polls := p' }, ⟨h.wf, h.cfg, h.port, h.mode, h.oracle, rfl, rfl⟩,
    ⟨run_of_step (h.step_next.trans hrun), rfl, Env.sameOutcomes_refl _, Env.sameBytes_refl _⟩, rfl⟩

/-- The status frame of a turn (R161) keeps the second byte of the oracle. -/
theorem status (h : Polling c (frameLine c .rdsr :: rest) p s) (hok : Env.okNext 3 s.env = true) :
    ∃ t, Polling c rest p t ∧ ReadStatuses 1 1 s t ∧ t.got = some ((Env.nextBytes 2 s.env).getD 1 0) := by
  obtain ⟨t, r0, r1, hex, hdone, -, -⟩ := statusReadFrameCompletes { s with todo := rest } h.mode hok
  have hkept := hdone.kept
  have hstep : step s = .next t := (step_frame h.wf h.port h.todo (h.cfg ▸ decode_encode_of_wf h.wf .rdsr)).trans hex
  have houtcomes := exec_env (i := .rdsr) (s := { s with todo := rest }) h.mode hok hex
  obtain ⟨hlink, hbytes⟩ := exec_tookBytes (i := .rdsr) (s := { s with todo := rest }) h.mode hok hex h.oracle
  have hpolling : Polling c rest p t := ⟨hkept.cfg ▸ h.wf, hkept.cfg.trans h.cfg, hkept.port.trans h.port,
    hkept.mode.trans_ne h.mode, hlink, hdone.todo, hkept.polls.trans h.polls⟩
  exact ⟨t, hpolling, ⟨run_of_step hstep, by simp [hdone.trace, bracket], houtcomes, hbytes⟩,
    exec_rdsr_got (s := { s with todo := rest }) h.mode h.oracle hok hex⟩

/-- One turn up to its tests. -/
theorem reads (h : Polling c (.poll :: rest) p s) (hok : Env.okNext 3 s.env = true) :
    ∃ t, Polling c (.testPoll :: rest) p t ∧ ReadStatuses 2 1 s t ∧ t.got = some ((Env.nextBytes 2 s.env).getD 1 0) := by
  obtain ⟨t, ht, hread, -⟩ := h.silent (lines := frameLine s.cfg .rdsr :: .testPoll :: rest) (p' := s.polls) rfl
  rw [h.cfg, h.polls] at ht
  obtain ⟨u, hu, hread', hgot⟩ := ht.status (hread.okNext hok)
  rw [Env.nextBytes_congr 2 hread.bytes] at hgot
  exact ⟨u, hu, hread.trans hread', hgot⟩

/-- R214: a busy reading below the bound turns the wait. -/
theorem busy_turn (h : Polling c (.poll :: rest) p s) (hmore : ∀ m, c.poll = some m → p + 1 < m)
    (hok : Env.okNext 3 s.env = true) (hb : ((Env.nextBytes 2 s.env).getD 1 0).getLsbD 0 = true) :
    ∃ t, Polling c (.poll :: rest) (p + 1) t ∧ ReadStatuses 3 1 s t := by
  obtain ⟨t, ht, hread, hgot⟩ := h.reads hok
  have htest := testPoll_busy (s := { t with todo := rest }) ((srBusy_gotByte hgot).trans hb)
    (by rw [ht.cfg, ht.polls]; exact hmore)
  obtain ⟨u, hu, hread', -⟩ := ht.silent (congrArg Host.Outcome.next htest)
  exact ⟨u, ht.polls ▸ hu, hread.trans hread'⟩

/-- `j` busy readings below the bound turn it `j` times. -/
theorem busy_turns {j : Nat} (h : Polling c (.poll :: rest) p s) (hmore : ∀ m, c.poll = some m → p + j < m)
    (hok : Env.okNext (3 * j) s.env = true) (hst : Env.statusesRead true j s.env) :
    ∃ t, Polling c (.poll :: rest) (p + j) t ∧ ReadStatuses (3 * j) j s t := by
  induction j generalizing s p with
  | zero => exact ⟨s, h, .refl s⟩
  | succ j ih =>
    have hb := Env.statusesRead_next hst
    rw [Nat.add_comm j 1] at hok hst hmore ⊢
    rw [← Nat.add_assoc] at hmore ⊢
    rw [Nat.mul_add] at hok ⊢
    obtain ⟨t, ht, hread⟩ := h.busy_turn (fun m hm => by have := hmore m hm; omega) (Env.okNext_le hok (by omega)) hb
    obtain ⟨u, hu, hread'⟩ := ih ht hmore (hread.okNext hok) (hread.statusesRead hst)
    exact ⟨u, hu, hread.trans hread'⟩

/-- R214: the busy reading that reaches the bound ends the operation. -/
theorem spent {m : Nat} (h : Polling c (.poll :: rest) p s) (hpoll : c.poll = some m) (hm : m ≤ p + 1)
    (hok : Env.okNext 3 s.env = true) (hb : ((Env.nextBytes 2 s.env).getD 1 0).getLsbD 0 = true) :
    ∃ u, core.run 3 s = .next (raise .writeTimeout u) ∧ u.trace.length = s.trace.length + 3 ∧ u.polls = p + 1 := by
  obtain ⟨t, ht, hread, hgot⟩ := h.reads hok
  have htest := testPoll_spent (s := { t with todo := rest }) ((srBusy_gotByte hgot).trans hb)
    (by rw [ht.cfg]; exact hpoll) (by rw [ht.polls]; exact hm)
  exact ⟨_, run_succ hread.run (ht.step_next.trans (congrArg Host.Outcome.next htest)), hread.trace,
    congrArg (· + 1) ht.polls⟩

end Polling

theorem Config.poll_pos {c : Config} {m : Nat} (h : c.wf = true) (hpoll : c.poll = some m) : 0 < m := by
  simp only [Config.wf, Config.pollOk, hpoll, Bool.and_eq_true] at h
  simpa [Nat.pos_iff_ne_zero] using h.2

/-- Settles O59: without a bound every busy reading turns the wait. -/
theorem unboundedBusyWait : Obligations.UnboundedBusyWait := by
  intro j s rest hwf hpoll hport hm hlink htodo hok hst
  have h : Polling s.cfg (.poll :: rest) s.polls s := ⟨hwf, rfl, hport, hm, hlink, htodo, rfl⟩
  obtain ⟨t, ht, hread⟩ := h.busy_turns (by simp [hpoll]) hok hst
  exact ⟨t, hread.run, ht.todo, ht.polls, hread.trace⟩

/-- Settles O60: all busy readings but the last turn the wait, which counts from 0. -/
theorem boundedBusyWaitTimesOut : Obligations.BoundedBusyWaitTimesOut := by
  intro m s rest hwf hpoll hport hm _ hlink htodo hok hst
  obtain ⟨j, rfl⟩ := Nat.exists_eq_add_one.mpr (Config.poll_pos hwf hpoll)
  obtain ⟨hturning, -⟩ := Env.statusesRead_add hst
  have hpolling : Polling s.cfg (.startPoll :: .poll :: rest) s.polls s := ⟨hwf, rfl, hport, hm, hlink, htodo, rfl⟩
  obtain ⟨t, ht, hstart, -⟩ := hpolling.silent (lines := .poll :: rest) (p' := 0) rfl
  rw [← Nat.zero_add j] at hturning hst hok
  obtain ⟨u, hu, hturns⟩ := ht.busy_turns (j := j) (fun m hm => by cases hpoll.symm.trans hm; omega)
    (hstart.okNext (Env.okNext_le hok (by omega))) (hstart.statusesRead hturning)
  have hread := hstart.trans hturns
  obtain ⟨v, hrun, htrace, hpolls⟩ :=
    hu.spent hpoll (by omega) (hread.okNext hok) (Env.statusesRead_next (hread.statusesRead hst))
  refine ⟨raise .writeTimeout v, ?_, rfl, rfl, by rw [raise_polls, hpolls, Nat.zero_add], ?_⟩
  · rw [show 3 * (j + 1) + 1 = 1 + 3 * j + 3 by omega]
    exact run_append hread.run hrun
  · rw [raise_trace, htrace, hread.trace]
    omega

end Sys2Proof.Machine
end

section
/-! The storage operations up to their first frame (43_storage_operations.md R210, R217, R218), and STORE_READ (R212). -/

namespace Sys2Proof.Machine

/-! ### Admission and the bound check -/

/-- An idle Ready block begins a storage operation in every mode (R180). -/
theorem ReadyIdle.step_store {s : State} {r : Request} {o : OpName} (hs : ReadyIdle s) (hop : r.opName = some o)
    (hstore : o = .storeRead ∨ o = .storeWrite) (hoperands : r.operandsOk = true) :
    step (s.ask r) = .next (start r { s with port := none }) := by
  have hadm : admission r { s with port := none } = none := by
    rw [admission_op (s := { s with port := none }) hs.idle hoperands hop (by rintro rfl; rcases hstore with h | h <;> cases h)]
    rcases hstore with rfl | rfl <;> simp [hs.ready, OpName.framedDriver]
  rw [← accept_of_admission hadm]
  simp [step, advance, State.ask, hs.wf]

theorem checkRange_ok {off len : Nat} {s : State} (h : off + len ≤ s.cfg.cap) : checkRange off len s = s :=
  if_pos (decide_eq_true h)

theorem checkRange_raises {off len : Nat} {s : State} (h : s.cfg.cap < off + len) :
    checkRange off len s = raise .outOfRange s :=
  if_neg (by simpa [inRange] using h)

theorem step_outOfRange {s : State} {off len : Nat} {rest : List Line} (hwf : s.cfg.wf = true) (hport : s.port = none)
    (htodo : s.todo = .checkRange off len :: rest) (hout : s.cfg.cap < off + len) :
    step s = .next (raise .outOfRange { s with todo := rest }) :=
  (step_line hwf hport htodo).trans (congrArg Host.Outcome.next (checkRange_raises hout))

/-- Settles O53: both operations begin with the bound check, and `raise` changes no output. -/
theorem outOfRangeBeforeAnyEvent : Obligations.OutOfRangeBeforeAnyEvent := by
  intro s off d hs hout r hr
  obtain ⟨o, rest, hne, hbegin⟩ : ∃ o rest, o ≠ .init ∧
      step (s.ask r) = .next (begin o (.checkRange off d.length :: rest) d { s with port := none }) := by
    rcases hr with rfl | rfl
    · exact ⟨.storeRead, _, nofun, hs.step_store rfl (.inl rfl) rfl⟩
    · exact ⟨.storeWrite, _, nofun, hs.step_store rfl (.inr rfl) rfl⟩
  exact ⟨_, run_succ (run_succ (k := 0) rfl hbegin) (step_outOfRange hs.wf rfl rfl hout), rfl, rfl, rfl, rfl,
    raise_life_other _ _ fun k hk => hne (Phase.op.inj hk).1, rfl, rfl, rfl, rfl, rfl, rfl⟩

/-! ### The lines that STORE_READ and STORE_WRITE share -/

/-- The mode after a hold release (R218). -/
def Mode.released (m : Mode) : Mode :=
  if m = .held then .active else m

theorem Mode.released_ne_held (m : Mode) : m.released ≠ .held := by
  cases m <;> decide

theorem Mode.released_of_ne_held {m : Mode} (h : m ≠ .held) : m.released = m :=
  if_neg h

namespace Underway
variable {s t : State} {r : Request} {k : Nat} {ev : List Event} {rest : List Line} {g : Regs}

theorem checkRange {off len : Nat} (h : Underway s r k ev (.checkRange off len :: rest) g t) (hin : off + len ≤ s.cfg.cap) :
    ∃ t', Underway s r (k + 1) ev rest g t' := by
  obtain rfl := h.regs
  exact h.silent (congrArg Host.Outcome.next (checkRange_ok (h.cfg ▸ hin)))

/-- R218: HOLD is driven deasserted, and Held is left. -/
theorem holdRelease (h : Underway s r k ev (holdRelease ++ rest) g t) (hok : Env.okNext (ev.length + 1) s.env = true) :
    ∃ t', Underway s r (k + 2) (ev ++ [.sig .hold .deasserted true]) rest
      { g with hold := .deasserted, mode := g.mode.released } t' := by
  obtain ⟨t, h⟩ := h.signal hok
  exact h.leaveHeld

end Underway

/-! ### STORE_READ -/

theorem storeReadLines_eq (c : Config) (off : Nat) (buf : List Byte) :
    storeReadLines c off buf = .checkRange off buf.length :: (holdRelease ++ (storeWake c ++
      frameLine c (.read (addrField off) buf) :: (storeSleep c ++ (holdRelease ++ [.retBuffer])))) := by
  simp [storeReadLines]

/-- Settles O54: one read frame between two hold releases; it fills the whole host buffer, which the request has brought. -/
theorem storeReadRuns : Obligations.StoreReadRuns := by
  intro s off d hs hin
  obtain ⟨t, h⟩ := hs.underway (r := .storeRead off d) rfl nofun rfl nofun nofun nofun rfl
  rw [storeReadLines_eq] at h
  obtain ⟨t, h⟩ := h.checkRange hin
  refine ⟨fun hsleep hok => ?_, fun hsleep hok => ?_⟩
  · obtain ⟨t, h⟩ := h.holdRelease (Env.okNext_le hok (by simp))
    rw [storeWake, storeSleep, hsleep] at h
    obtain ⟨t, rs, hlength, h⟩ := h.read (Mode.released_ne_held _) (Env.okNext_le hok (by simp))
    obtain ⟨t, h⟩ := h.holdRelease (Env.okNext_le hok (by simp [bracket]))
    have hbuf : rs ++ d.drop d.length = rs := by simp
    exact ⟨_, rs, h.returnsBuffer hbuf, hlength, h.done _ rfl rfl, h.buf.trans hbuf,
      h.mode.trans (Mode.released_of_ne_held (Mode.released_ne_held _)), h.hold, h.cs⟩
  · obtain ⟨t, h⟩ := h.holdRelease (Env.okNext_le hok (by simp))
    rw [storeWake, storeSleep, hsleep] at h
    obtain ⟨t, ids, id, -, h⟩ := h.readIdentity (Mode.released_ne_held _) (Env.okNext_le hok (by simp))
    obtain ⟨t, h⟩ := h.setMode
    obtain ⟨t, rs, hlength, h⟩ := h.read nofun (Env.okNext_le hok (by simp [bracket]))
    obtain ⟨t, h⟩ := h.send (i := .dpd) rfl nofun (Env.okNext_le hok (by simp [bracket]))
    obtain ⟨t, h⟩ := h.setMode
    obtain ⟨t, h⟩ := h.holdRelease (Env.okNext_le hok (by simp [bracket]))
    have hbuf : rs ++ d.drop d.length = rs := by simp
    exact ⟨_, rs, _, h.returnsBuffer hbuf, hlength, h.done _ rfl rfl, h.buf.trans hbuf, h.mode, h.hold, h.cs⟩

end Sys2Proof.Machine
end

section
/-! What the lines of a STORE_WRITE that issue no event do, said once (43_storage_operations.md R210 to R218). -/

namespace Sys2Proof.Machine

/-- The operation-local registers (R35). -/
structure Locals where
  cur : Nat
  idx : Nat
  n : Nat
  polls : Nat

def State.locals (s : State) : Locals where
  cur := s.cur
  idx := s.idx
  n := s.n
  polls := s.polls

theorem Kept.locals {s t : State} (h : Kept s t) : t.locals = s.locals := by
  simp only [State.locals, h.cur, h.idx, h.n, h.polls]

/-- `Quiet c d l m x more m' y`: line `l` of a storage operation with payload `d` moves the mode from `m` to `m'` and the local
registers from `x` to `y`, and puts the lines `more` before those to come. The tests of the busy-wait are not among these lines:
they depend on the byte received. -/
inductive Quiet (c : Config) (d : List Byte) : Line → Mode → Locals → List Line → Mode → Locals → Prop
  | checkRange {off len : Nat} {m : Mode} {x : Locals} (h : off + len ≤ c.cap) : Quiet c d (.checkRange off len) m x [] m x
  | setMode {m m' : Mode} {x : Locals} : Quiet c d (.setMode m') m x [] m' x
  | leaveHeld {m : Mode} {x : Locals} : Quiet c d .leaveHeld m x [] m.released x
  | startCursor {off cur idx n polls : Nat} {m : Mode} :
    Quiet c d (.startCursor off) m ⟨cur, idx, n, polls⟩ [] m ⟨off, 0, n, polls⟩
  | nextBurst {m : Mode} {x : Locals} (h : x.idx < d.length) : Quiet c d .burstLoop m x (burstBody c ++ [.burstLoop]) m x
  | lastBurst {m : Mode} {x : Locals} (h : ¬ x.idx < d.length) : Quiet c d .burstLoop m x [] m x
  | sizeBurst {cur idx n polls : Nat} {m : Mode} :
    Quiet c d .sizeBurst m ⟨cur, idx, n, polls⟩ [] m ⟨cur, idx, chunk c.page cur (d.length - idx), polls⟩
  | writeBurst {cur idx n polls : Nat} {m : Mode} :
    Quiet c d .writeBurst m ⟨cur, idx, n, polls⟩ [frameLine c (.write (addrField cur) (memRead d idx n))] m
      ⟨cur, idx, n, polls⟩
  | advanceCursor {cur idx n polls : Nat} {m : Mode} :
    Quiet c d .advanceCursor m ⟨cur, idx, n, polls⟩ [] m ⟨cur + n, idx + n, n, polls⟩
  | startPoll {cur idx n polls : Nat} {m : Mode} : Quiet c d .startPoll m ⟨cur, idx, n, polls⟩ [] m ⟨cur, idx, n, 0⟩
  | poll {m : Mode} {x : Locals} : Quiet c d .poll m x [frameLine c .rdsr, .testPoll] m x

/-- The model runs such a line as `Quiet` says. -/
theorem Quiet.run {c : Config} {d : List Byte} {l : Line} {m m' : Mode} {x y : Locals} {more : List Line} {t : State}
    (h : Quiet c d l m x more m' y) (rest : List Line) (hcfg : t.cfg = c) (hbuf : t.buf = d) (hmode : t.mode = m)
    (hlocals : t.locals = x) :
    runLine l { t with todo := rest } =
      .next { t with todo := more ++ rest, mode := m', cur := y.cur, idx := y.idx, n := y.n, polls := y.polls } := by
  subst hcfg hbuf hmode
  cases h with
  | checkRange hin =>
    subst hlocals
    exact congrArg Host.Outcome.next (checkRange_ok (s := { t with todo := rest }) hin)
  | setMode | leaveHeld | poll =>
    subst hlocals
    rfl
  | nextBurst hleft =>
    subst hlocals
    exact congrArg Host.Outcome.next (if_pos hleft)
  | lastBurst hdone =>
    subst hlocals
    exact congrArg Host.Outcome.next (if_neg hdone)
  | startCursor | sizeBurst | writeBurst | advanceCursor | startPoll =>
    obtain ⟨rfl, rfl, rfl, rfl⟩ := Locals.mk.inj hlocals
    rfl

end Sys2Proof.Machine
end

section
/-! The bound on the events of a STORE_WRITE (43_storage_operations.md R220), whatever the environment draws and whatever device
answers: a state ends within so many events when the state after its next line does, by so many fewer as the line may issue. -/

namespace Sys2Proof.Machine

/-! ### Ending within a number of events -/

/-- From `t` the running operation comes to a result of its own after at most `N` events, and takes no further request. -/
def EndsWithin (N : Nat) (t : State) : Prop :=
  ∃ k u, core.run k t = .next u ∧ u.pc = .idle ∧ u.port = none ∧ u.program = t.program ∧ (∃ r, u.result = some r) ∧
    u.trace.length ≤ t.trace.length + N

theorem EndsWithin.mono {M N : Nat} {t : State} (h : EndsWithin M t) (hle : M ≤ N) : EndsWithin N t := by
  obtain ⟨k, u, hrun, hpc, hport, hprogram, hresult, htrace⟩ := h
  exact ⟨k, u, hrun, hpc, hport, hprogram, hresult, by omega⟩

theorem endsWithin_of_result {t : State} {r : Result} (hpc : t.pc = .idle) (hport : t.port = none) (hresult : t.result = some r) :
    EndsWithin 0 t :=
  ⟨0, t, rfl, hpc, hport, rfl, ⟨r, hresult⟩, Nat.le_refl _⟩

theorem endsWithin_raise (e : ErrorKind) {t : State} (hport : t.port = none) : EndsWithin 0 (raise e t) :=
  endsWithin_of_result rfl hport rfl

/-- One step that issues at most `a` events. -/
theorem EndsWithin.of_step {a N : Nat} {t u : State} (h : EndsWithin N u) (hstep : step t = .next u)
    (hprogram : u.program = t.program) (htrace : u.trace.length ≤ t.trace.length + a) : EndsWithin (a + N) t := by
  obtain ⟨k, v, hrun, hpc, hport, hprogram', hresult, htrace'⟩ := h
  exact ⟨k + 1, v, (run_of_step hstep).trans hrun, hpc, hport, hprogram'.trans hprogram, hresult, by omega⟩

/-- A frame issues at most the events of its channel calls and of the two chip-select lines (R153, R155). -/
theorem exec_trace_le {i : Instr} {s t : State} (h : exec i s = .next t) :
    t.trace.length ≤ s.trace.length + (callCount i + 2) := by
  by_cases hm : s.mode = .held
  · rw [exec_held i hm] at h
    cases h
  rcases (exec_spec i hm).cases with ⟨u, -, he, hran, -⟩ | ⟨ev, k, u, hk, -, he, hlen, -, -, hkeep, hrelease⟩ |
    ⟨ev, u, -, he, hlen, -, hran, -⟩ | ⟨ev, u, u', -, he, hlatch, -, hlen, -, hran, -⟩
  all_goals obtain rfl := Host.Outcome.next.inj (h.symm.trans he)
  · simp [hran.trace]
  · cases hcs : s.cfg.csErr with
    | false => simp [(hkeep hcs).1.trace, hlen]; omega
    | true => simp [(hrelease hcs).1.trace, closing, hlen]; omega
  · simp [hran.trace, closing, hlen]
  · rcases hlatch with rfl | ⟨-, b, rfl⟩ <;> simp [hran.trace, closing, hlen]

/-! ### The lines to come -/

/-- The lines `lines` are still to come, in mode `m`, with the host buffer `d` and the local registers `x`. -/
structure Pending (c : Config) (m : Mode) (d : List Byte) (lines : List Line) (x : Locals) (t : State) : Prop where
  wf : c.wf = true
  cfg : t.cfg = c
  port : t.port = none
  mode : t.mode = m
  buf : t.buf = d
  todo : t.todo = lines
  locals : t.locals = x

namespace Pending
variable {c : Config} {m : Mode} {d : List Byte} {l : Line} {rest lines : List Line} {x : Locals} {t : State} {N : Nat}

theorem step_next (h : Pending c m d (l :: rest) x t) : step t = runLine l { t with todo := rest } :=
  step_line (h.cfg ▸ h.wf) h.port h.todo

/-- A line that issues no event and goes on. -/
theorem silent {m' : Mode} {y : Locals} (h : Pending c m d (l :: rest) x t)
    (hrun : runLine l { t with todo := rest } =
      .next { t with todo := lines, mode := m', cur := y.cur, idx := y.idx, n := y.n, polls := y.polls })
    (hends : ∀ u, Pending c m' d lines y u → EndsWithin N u) : EndsWithin N t := by
  have hu := hends { t with todo := lines, mode := m', cur := y.cur, idx := y.idx, n := y.n, polls := y.polls }
    ⟨h.wf, h.cfg, h.port, rfl, h.buf, rfl, rfl⟩
  exact (hu.of_step (a := 0) (h.step_next.trans hrun) rfl (Nat.le_refl _)).mono (by omega)

theorem quiet {m' : Mode} {y : Locals} (h : Pending c m d (l :: rest) x t) (hl : Quiet c d l m x lines m' y)
    (hends : ∀ u, Pending c m' d (lines ++ rest) y u → EndsWithin N u) : EndsWithin N t :=
  h.silent (hl.run rest h.cfg h.buf h.mode h.locals) hends

/-- A line that ends the operation without an event. -/
theorem ends {r : Result} {u : State} (h : Pending c m d (l :: rest) x t)
    (hrun : runLine l { t with todo := rest } = .next u) (hpc : u.pc = .idle) (hport : u.port = t.port)
    (hresult : u.result = some r) (hprogram : u.program = t.program) (htrace : u.trace = t.trace) : EndsWithin N t := by
  have hu := endsWithin_of_result hpc (hport.trans h.port) hresult
  exact (hu.of_step (a := 0) (h.step_next.trans hrun) hprogram (by rw [htrace]; exact Nat.le_refl _)).mono (Nat.zero_le N)

/-- A signal line (R151). -/
theorem signal {sig : Signal} {lv : Level} (h : Pending c m d (.sig sig lv :: rest) x t)
    (hends : ∀ u, Pending c m d rest x u → EndsWithin N u) : EndsWithin (1 + N) t := by
  cases hout : t.outcome with
  | true =>
    have hstep := h.step_next.trans (runLine_sig_ok (s := { t with todo := rest }) hout)
    refine (hends _ ?_).of_step hstep (afterSignal_program sig lv _) (by simp)
    exact ⟨h.wf, by simp [h.cfg], by simp [h.port], by simp [h.mode], by simp [h.buf], by simp,
      by simp [State.locals, ← h.locals]⟩
  | false =>
    have hstep := h.step_next.trans (runLine_sig_fail (s := { t with todo := rest }) hout)
    exact ((endsWithin_raise .signalError (by exact h.port)).of_step (a := 1) hstep rfl (by simp)).mono (by omega)

/-- A frame line outside Held (R153 to R156). -/
theorem frame {i : Instr} (h : Pending c m d (frameLine c i :: rest) x t) (hm : m ≠ .held) (hbuf : writesBuffer i = false)
    (hends : ∀ u, Pending c m d rest x u → EndsWithin N u) : EndsWithin (callCount i + 2 + N) t := by
  obtain ⟨u, hu⟩ := exec_next i (s := { t with todo := rest }) (h.mode.trans_ne hm)
  have hdecode : decode t.cfg (encode c i) = .ok i := by rw [h.cfg]; exact decode_encode_of_wf h.wf i
  have hstep := (step_frame (h.cfg ▸ h.wf) h.port h.todo hdecode).trans hu
  have htrace := exec_trace_le hu
  obtain ⟨hkept, hkeepsBuf, -, hdone | ⟨e, -, hpc, -, -, hresult, -⟩⟩ := instructionRegisterFrame i _ u hu
  · obtain ⟨-, -, htodo, -⟩ := hdone
    exact (hends u ⟨h.wf, hkept.cfg.trans h.cfg, hkept.port.trans h.port, hkept.mode.trans h.mode,
      (hkeepsBuf hbuf).trans h.buf, htodo, hkept.locals.trans h.locals⟩).of_step hstep hkept.program htrace
  · exact ((endsWithin_of_result hpc (hkept.port.trans h.port) hresult).of_step hstep hkept.program htrace).mono (by omega)

/-- The bound check (R210). -/
theorem checkRange {off len : Nat} (h : Pending c m d (.checkRange off len :: rest) x t)
    (hends : ∀ u, Pending c m d rest x u → EndsWithin N u) : EndsWithin N t := by
  by_cases hin : off + len ≤ c.cap
  · exact h.quiet (.checkRange hin) hends
  · exact h.ends (congrArg Host.Outcome.next (checkRange_raises (h.cfg ▸ Nat.lt_of_not_le hin))) rfl rfl rfl rfl rfl

/-- R218. -/
theorem holdRelease (h : Pending c m d (holdRelease ++ rest) x t)
    (hends : ∀ u, Pending c m.released d rest x u → EndsWithin N u) : EndsWithin (1 + N) t :=
  h.signal fun _ h => h.quiet .leaveHeld hends

/-- R217: a wake or a return to deep-sleep is at most one frame, and leaves the device unheld. -/
theorem passage {i : Instr} {m' : Mode} (h : Pending c m d ((if c.sleep then [frameLine c i, .setMode m'] else []) ++ rest) x t)
    (hm : m ≠ .held) (hm' : m' ≠ .held) (hbuf : writesBuffer i = false)
    (hends : ∀ u m, m ≠ .held → Pending c m d rest x u → EndsWithin N u) : EndsWithin (callCount i + 2 + N) t := by
  cases hsleep : c.sleep with
  | true =>
    rw [hsleep] at h
    exact h.frame hm hbuf fun _ h => h.quiet .setMode fun u h => hends u m' hm' h
  | false =>
    rw [hsleep] at h
    exact (hends t m hm h).mono (by omega)

/-! ### The busy-wait and the bursts -/

/-- The tests of the busy-wait (R214): what is left is the line after the wait, or another turn below the bound, or nothing. -/
theorem testPoll (h : Pending c m d (.testPoll :: rest) x t)
    (hidle : ∀ u, Pending c m d rest { x with polls := x.polls + 1 } u → EndsWithin N u)
    (hturn : (∀ b, c.poll = some b → x.polls + 1 < b) → ∀ u,
      Pending c m d (.poll :: rest) { x with polls := x.polls + 1 } u → EndsWithin N u) : EndsWithin N t := by
  obtain rfl := h.locals
  obtain rfl := h.mode
  obtain rfl := h.cfg
  cases hbusy : srBusy t.gotByte with
  | false => exact h.silent (congrArg Host.Outcome.next (testPoll_idle (s := { t with todo := rest }) hbusy)) hidle
  | true =>
    by_cases hmore : ∀ b, t.cfg.poll = some b → t.polls + 1 < b
    · exact h.silent (congrArg Host.Outcome.next (testPoll_busy (s := { t with todo := rest }) hbusy hmore)) (hturn hmore)
    · push Not at hmore
      obtain ⟨b, hpoll, hb⟩ := hmore
      exact h.ends (congrArg Host.Outcome.next (testPoll_spent (s := { t with todo := rest }) hbusy hpoll hb)) rfl rfl rfl rfl rfl

/-- One turn of the wait (R214). -/
theorem turn (h : Pending c m d (.poll :: rest) x t) (hm : m ≠ .held)
    (hidle : ∀ u, Pending c m d rest { x with polls := x.polls + 1 } u → EndsWithin N u)
    (hturn : (∀ b, c.poll = some b → x.polls + 1 < b) → ∀ u,
      Pending c m d (.poll :: rest) { x with polls := x.polls + 1 } u → EndsWithin N u) : EndsWithin (3 + N) t :=
  h.quiet .poll fun _ h => h.frame (i := .rdsr) hm rfl fun _ h => h.testPoll hidle hturn

/-- With `j + 1` readings left below the bound the wait turns at most as many times (R220). -/
theorem wait {b j : Nat} (h : Pending c m d (.poll :: rest) x t) (hm : m ≠ .held) (hpoll : c.poll = some b)
    (hb : x.polls + j + 1 = b) (hends : ∀ u p, Pending c m d rest { x with polls := p } u → EndsWithin N u) :
    EndsWithin (3 * (j + 1) + N) t := by
  induction j generalizing t x with
  | zero =>
    refine h.turn hm (fun u hu => hends u _ hu) fun hmore => ?_
    have := hmore b hpoll
    omega
  | succ j ih =>
    have hturn := h.turn (N := 3 * (j + 1) + N) hm (fun u hu => (hends u _ hu).mono (by omega))
      fun _ u hu => ih hu (by simp only; omega) hends
    exact hturn.mono (by omega)

/-- One burst (R213): write-enable, write, the wait, write-disable. -/
theorem burst {b : Nat} (h : Pending c m d (burstBody c ++ rest) x t) (hm : m ≠ .held) (hpoll : c.poll = some b)
    (hends : ∀ u y, Pending c m d rest y u → y.cur = x.cur + chunk c.page x.cur (d.length - x.idx) →
      y.idx = x.idx + chunk c.page x.cur (d.length - x.idx) → EndsWithin N u) : EndsWithin (3 * b + 10 + N) t := by
  obtain ⟨j, rfl⟩ := Nat.exists_eq_add_one.mpr (Config.poll_pos h.wf hpoll)
  have hburst : EndsWithin (3 + (4 + (3 * (j + 1) + (3 + N)))) t :=
    h.frame (i := .wren) hm rfl fun _ h => h.quiet .sizeBurst fun _ h => h.quiet .writeBurst fun _ h =>
      h.frame (i := .write _ _) hm rfl fun _ h => h.quiet .advanceCursor fun _ h => h.quiet .startPoll fun _ h =>
        h.wait hm hpoll (by simp only; omega) fun _ _ h => h.frame (i := .wrdi) hm rfl fun u h => hends u _ h rfl rfl
  exact hburst.mono (by omega)

/-- The whole loop with `rem` bytes left, by the bursts to come (R215). -/
theorem allBursts {b fuel rem : Nat} (h : Pending c m d (.burstLoop :: rest) x t) (hm : m ≠ .held) (hpoll : c.poll = some b)
    (hrem : x.idx + rem = d.length) (hfuel : rem ≤ fuel) (hends : ∀ u y, Pending c m d rest y u → EndsWithin N u) :
    EndsWithin ((bursts c.page fuel x.cur rem).length * (3 * b + 10) + N) t := by
  have hdone : rem = 0 → EndsWithin N t := fun hzero => h.quiet (.lastBurst (by omega)) fun u h => hends u x h
  induction fuel generalizing t x rem with
  | zero => exact (hdone (by omega)).mono (by omega)
  | succ fuel ih =>
    rcases Nat.eq_zero_or_pos rem with hzero | hpos
    · exact (hdone hzero).mono (by omega)
    obtain ⟨hpage, -⟩ := Config.wf_facts h.wf
    obtain ⟨hone, -, hle⟩ := chunk_bounds (cur := x.cur) hpage hpos
    obtain rfl : d.length - x.idx = rem := by omega
    have hburst : EndsWithin (3 * b + 10 + ((bursts c.page fuel (x.cur + chunk c.page x.cur (d.length - x.idx))
        (d.length - x.idx - chunk c.page x.cur (d.length - x.idx))).length * (3 * b + 10) + N)) t :=
      h.quiet (.nextBurst (by omega)) fun _ h => h.burst (rest := .burstLoop :: rest) hm hpoll fun v y hv hcur hidx =>
        hcur ▸ ih hv (by omega) (by omega) fun hzero => hv.quiet (.lastBurst (by omega)) fun u h => hends u y h
    rw [bursts_succ hpos, List.length_cons, Nat.succ_mul]
    exact hburst.mono (by omega)

end Pending

theorem storeWriteLines_eq (c : Config) (off len : Nat) :
    storeWriteLines c off len = .checkRange off len :: (holdRelease ++ (storeWake c ++
      .startCursor off :: .burstLoop :: (storeSleep c ++ (holdRelease ++ [.ret .unit])))) := by
  simp [storeWriteLines]

/-- Settles O57: line by line from the start of the operation; the loop is bounded by its bursts, and each wait by `P_POLL`. -/
theorem storeWriteEndsWithinItsBound : Obligations.StoreWriteEndsWithinItsBound := by
  intro s off b d hs hpoll
  have hbegin := hs.step_store (r := .storeWrite off d) rfl (.inr rfl) rfl
  have hstart : Pending s.cfg s.mode d (storeWriteLines s.cfg off d.length) s.locals
      (start (.storeWrite off d) { s with port := none }) := ⟨hs.wf, rfl, rfl, rfl, rfl, rfl, rfl⟩
  rw [storeWriteLines_eq] at hstart
  have hall := hstart.checkRange fun _ h => h.holdRelease fun _ h =>
    h.passage (Mode.released_ne_held _) nofun rfl fun _ m hm h =>
      h.quiet .startCursor fun _ h => h.allBursts hm hpoll (Nat.zero_add _) (Nat.le_refl _) fun _ _ h =>
        h.passage hm nofun rfl fun _ m _ h => h.holdRelease fun _ h => h.ends (N := 0) rfl rfl rfl rfl rfl rfl
  obtain ⟨k, u, hrun, hpc, hport, hprogram, hresult, htrace⟩ := hall.mono (N :=
    (bursts s.cfg.page d.length off d.length).length * (3 * b + 10) + 8) (by simp only [callCount]; omega)
  exact ⟨k + 1, u, Nat.succ_pos k, (run_of_step hbegin).trans hrun, hpc, hport, hprogram, hresult, htrace⟩

end Sys2Proof.Machine
end

section
/-! STORE_WRITE with the oracle at the other end and every outcome `ok` (43_storage_operations.md R213 to R218): the operation is
followed line by line as the driver operations are (`Underway`), with its local registers and the bytes it has received. -/

namespace Sys2Proof.Machine

/-- The step after a run is the last of the longer run. -/
theorem run_succ_eq {k : Nat} {s t : State} (h : core.run k s = .next t) : core.run (k + 1) s = step t := by
  induction k generalizing s with
  | zero =>
    cases h
    cases hs : step t <;> simp [Host.Core.run, core, hs]
  | succ k ih =>
    cases hs : step s with
    | next u =>
      rw [run_of_step hs] at h ⊢
      exact ih h
    | fault why => simp [Host.Core.run, core, hs] at h
    | refused why => simp [Host.Core.run, core, hs] at h

/-- What the next line of an operation under way has done. -/
theorem Underway.next_line {s t t' : State} {r : Request} {k : Nat} {ev : List Event} {l : Line} {rest : List Line} {g : Regs}
    (h : Underway s r k ev (l :: rest) g t) (hrun : core.run (k + 1) (s.ask r) = .next t') :
    runLine l { t with todo := rest } = .next t' := by
  rw [← step_line (h.cfg ▸ h.wf) h.port h.todo]
  exact (run_succ_eq h.run).symm.trans hrun

/-- An operation under way with the oracle at the other end: it has received `nb` bytes, and its local registers are `x`. -/
structure Storing (s : State) (r : Request) (k : Nat) (ev : List Event) (lines : List Line) (g : Regs) (nb : Nat) (x : Locals)
    (t : State) : Prop extends Underway s r k ev lines g t where
  oracle : t.link = .oracle
  bytes : t.env.sameBytes (Env.afterBytes nb s.env)
  locals : t.locals = x

/-- The events of the wake, and of the return to deep-sleep, of a storage operation (R217). -/
def wakeEvents (c : Config) (ids : List Byte) : List Event :=
  if c.sleep then bracket [.xfer (c.opc.releasePowerDown :: zeroBytes (idDummies c)) (some ids)] else []

def sleepEvents (c : Config) : List Event :=
  if c.sleep then bracket [.write [c.opc.deepSleep] true] else []

theorem wakeEvents_length (c : Config) (ids : List Byte) : (wakeEvents c ids).length = if c.sleep then 3 else 0 := by
  unfold wakeEvents
  split <;> rfl

theorem sleepEvents_length (c : Config) : (sleepEvents c).length = if c.sleep then 3 else 0 := by
  unfold sleepEvents
  split <;> rfl

theorem burstEvents_length (c : Config) (off : Nat) (d : List Byte) (x : Nat × Nat) (rs : List Byte) :
    (burstEvents c off d x rs).length = 13 := rfl

theorem burstsEvents_length (c : Config) (off : Nat) (d : List Byte) {xs : List (Nat × Nat)} {rss : List (List Byte)}
    (h : rss.length = xs.length) :
    ((xs.zip rss).flatMap fun x => burstEvents c off d x.1 x.2).length = 13 * xs.length := by
  simp [List.length_flatMap, burstEvents_length, h, Nat.mul_comm]

theorem append_burstEvents (ev : List Event) (c : Config) (off : Nat) (d : List Byte) (x : Nat × Nat) (rs : List Byte) :
    ev ++ burstEvents c off d x rs = ev ++ bracket [.write [c.opc.get .writeEnable] true] ++
      bracket [.write (header c.opc .write (addrField x.1)) true, .write (memRead d (x.1 - off) x.2) true] ++
      bracket [.xfer [c.opc.get .readStatus, 0x00] (some rs)] ++ bracket [.write [c.opc.get .writeDisable] true] := by
  simp [burstEvents]

namespace Storing
variable {s t t' : State} {r : Request} {k nb : Nat} {ev ev' : List Event} {l : Line} {rest lines : List Line} {g g' : Regs}
  {x : Locals} {d : List Byte} {cur idx n polls : Nat}

/-! ### Lines that issue no event -/

/-- A line that issues no event and goes on. -/
theorem silent {m : Mode} {y : Locals} (h : Storing s r k ev (l :: rest) g nb x t)
    (hrun : runLine l { t with todo := rest } =
      .next { t with todo := lines, mode := m, cur := y.cur, idx := y.idx, n := y.n, polls := y.polls }) :
    ∃ t', Storing s r (k + 1) ev lines { g with mode := m } nb y t' := by
  obtain rfl := h.regs
  exact ⟨_, ⟨h.run_line hrun, h.wf, h.trace, h.env, h.pc, h.cfg, h.program, h.port, rfl, rfl⟩, h.oracle, h.bytes, rfl⟩

theorem quiet {m : Mode} {y : Locals} (h : Storing s r k ev (l :: rest) g nb x t) (hbuf : g.buf = d)
    (hl : Quiet s.cfg d l g.mode x lines m y) : ∃ t', Storing s r (k + 1) ev (lines ++ rest) { g with mode := m } nb y t' :=
  h.silent (hl.run rest h.cfg (h.buf.trans hbuf) h.mode h.locals)

/-- R214: the idle reading ends the wait. -/
theorem idleReading {b : Byte} (h : Storing s r k ev (.testPoll :: rest) g nb ⟨cur, idx, n, polls⟩ t) (hgot : g.got = some b)
    (hb : b.getLsbD 0 = false) : ∃ t', Storing s r (k + 1) ev rest g nb ⟨cur, idx, n, polls + 1⟩ t' := by
  have hidle := (srBusy_gotByte (h.got.trans hgot)).trans hb
  obtain rfl := h.regs
  obtain ⟨rfl, rfl, rfl, rfl⟩ := Locals.mk.inj h.locals
  exact h.silent (y := ⟨t.cur, t.idx, t.n, t.polls + 1⟩)
    (congrArg Host.Outcome.next (testPoll_idle (s := { t with todo := rest }) hidle))

/-! ### Lines that issue events -/

/-- A signal line receives no byte, and leaves the local registers. -/
theorem signal {sig : Signal} {lv : Level} (h : Storing s r k ev (.sig sig lv :: rest) g nb x t)
    (hok : Env.okNext (ev.length + 1) s.env = true) :
    ∃ t', Storing s r (k + 1) (ev ++ [.sig sig lv true]) rest (g.setPin sig lv) nb x t' := by
  obtain ⟨t', h'⟩ := h.toUnderway.signal hok
  have hout : State.outcome { t with todo := rest } = true := (Env.okNext_succ (h.okNext hok)).1
  obtain rfl := Host.Outcome.next.inj ((h.next_line h'.run).symm.trans (runLine_sig_ok hout))
  obtain ⟨hlink, hbytes⟩ := tookBytes_signal sig lv { t with todo := rest } h.oracle
  exact ⟨_, h', hlink, Env.sameBytes_trans hbytes h.bytes, by simp [State.locals, ← h.locals]⟩

/-- A completed frame receives the bytes of its instruction, and leaves the local registers (R168). -/
theorem frame {i : Instr} (h : Storing s r k ev (frameLine s.cfg i :: rest) g nb x t) (hm : g.mode ≠ .held)
    (hok : Env.okNext (ev.length + (callCount i + 2)) s.env = true) (h' : Underway s r (k + 1) ev' rest g' t') :
    Storing s r (k + 1) ev' rest g' (nb + receivedCount s.cfg i) x t' ∧ exec i { t with todo := rest } = .next t' := by
  have hdecode : decode t.cfg (encode s.cfg i) = .ok i := by rw [h.cfg]; exact decode_encode_of_wf h.wf i
  have hex : exec i { t with todo := rest } = .next t' :=
    (runFrame_of_decode (s := { t with todo := rest }) hdecode).symm.trans (h.next_line h'.run)
  obtain ⟨hkept, -⟩ := instructionRegisterFrame i _ t' hex
  obtain ⟨hlink, hbytes⟩ := exec_tookBytes (s := { t with todo := rest }) (h.mode.trans_ne hm) (h.okNext hok) hex h.oracle
  have hlater := Env.sameBytes_trans hbytes (Env.afterBytes_congr _ h.bytes)
  rw [← Env.afterBytes_add] at hlater
  exact ⟨⟨h', hlink, h.cfg ▸ hlater, hkept.locals.trans h.locals⟩, hex⟩

theorem send {i : Instr} (h : Storing s r k ev (frameLine s.cfg i :: rest) g nb x t) (hsend : sendsOnly i = true)
    (hm : g.mode ≠ .held) (hok : Env.okNext (ev.length + 3) s.env = true) :
    ∃ t', Storing s r (k + 1) (ev ++ bracket [.write (encode s.cfg i) true]) rest { g with cs := .deasserted } nb x t' := by
  obtain ⟨t', h'⟩ := h.toUnderway.send hsend hm hok
  have hcalls : callCount i = 1 := (exec_send_ok hsend (h.mode.trans_ne hm) (h.okNext hok)).2
  have hstoring := (h.frame hm (hcalls ▸ hok) h').1
  rw [receivedCount_of_sendsOnly hsend] at hstoring
  exact ⟨t', hstoring⟩

theorem write {a : Addr} {d : List Byte} (h : Storing s r k ev (frameLine s.cfg (.write a d) :: rest) g nb x t)
    (hm : g.mode ≠ .held) (hok : Env.okNext (ev.length + 4) s.env = true) :
    ∃ t', Storing s r (k + 1) (ev ++ bracket [.write (header s.cfg.opc .write a) true, .write d true]) rest
      { g with cs := .deasserted } nb x t' := by
  obtain ⟨t', h'⟩ := h.toUnderway.write hm hok
  exact ⟨t', (h.frame hm hok h').1⟩

theorem readIdentity (h : Storing s r k ev (frameLine s.cfg .rpd :: rest) g nb x t) (hm : g.mode ≠ .held)
    (hok : Env.okNext (ev.length + 3) s.env = true) :
    ∃ t' ids id, Storing s r (k + 1)
      (ev ++ bracket [.xfer (s.cfg.opc.releasePowerDown :: zeroBytes (idDummies s.cfg)) (some ids)]) rest
      { g with cs := .deasserted, got := some id } (nb + (idDummies s.cfg + 1)) x t' := by
  obtain ⟨t', rs, id, -, h'⟩ := h.toUnderway.readIdentity hm hok
  exact ⟨t', rs ++ [id], id, (h.frame hm hok h').1⟩

/-- The status frame keeps the second of the next two bytes of the oracle (R161). -/
theorem readStatus (h : Storing s r k ev (frameLine s.cfg .rdsr :: rest) g nb x t) (hm : g.mode ≠ .held)
    (hok : Env.okNext (ev.length + 3) s.env = true) :
    ∃ t' rs, rs.length = 2 ∧
      Storing s r (k + 1) (ev ++ bracket [.xfer [s.cfg.opc.get .readStatus, 0x00] (some rs)]) rest
        { g with cs := .deasserted, got := some ((Env.nextBytes 2 (Env.afterBytes nb s.env)).getD 1 0) } (nb + 2) x t' := by
  obtain ⟨t', r0, r1, h'⟩ := h.toUnderway.readStatus hm hok
  obtain ⟨hstoring, hex⟩ := h.frame hm hok h'
  have hgot := exec_rdsr_got (s := { t with todo := rest }) (h.mode.trans_ne hm) h.oracle (h.okNext hok) hex
  rw [show Env.nextBytes 2 (State.env { t with todo := rest }) = _ from Env.nextBytes_congr 2 h.bytes] at hgot
  rw [← hgot, h'.got]
  exact ⟨t', [r0, r1], rfl, hstoring⟩

/-! ### The bursts -/

/-- R213: the events of one burst whose first status read finds the device idle. -/
theorem burst {off : Nat} (h : Storing s r k ev (burstBody s.cfg ++ rest) g nb ⟨cur, idx, n, polls⟩ t) (hm : g.mode ≠ .held)
    (hok : Env.okNext (ev.length + 13) s.env = true) (hbuf : g.buf = d) (hidx : cur = off + idx)
    (hb : ((Env.nextBytes 2 (Env.afterBytes nb s.env)).getD 1 0).getLsbD 0 = false) {size : Nat}
    (hsize : chunk s.cfg.page cur (d.length - idx) = size) :
    ∃ k' t' rs got, rs.length = 2 ∧ Storing s r k' (ev ++ burstEvents s.cfg off d (cur, size) rs) rest
      { g with cs := .deasserted, got := got } (nb + 2) ⟨cur + size, idx + size, size, 1⟩ t' := by
  obtain ⟨t, h⟩ := h.send (i := .wren) rfl hm (Env.okNext_le hok (by omega))
  obtain ⟨t, h⟩ := h.quiet hbuf .sizeBurst
  rw [hsize] at h
  obtain ⟨t, h⟩ := h.quiet hbuf .writeBurst
  obtain ⟨t, h⟩ := h.write hm (Env.okNext_le hok (by simp [bracket]))
  obtain ⟨t, h⟩ := h.quiet hbuf .advanceCursor
  obtain ⟨t, h⟩ := h.quiet hbuf .startPoll
  obtain ⟨t, h⟩ := h.quiet hbuf .poll
  obtain ⟨t, rs, hlength, h⟩ := h.readStatus hm (Env.okNext_le hok (by simp [bracket]))
  obtain ⟨t, h⟩ := h.idleReading rfl hb
  obtain ⟨t, h⟩ := h.send (i := .wrdi) rfl hm (Env.okNext_le hok (by simp [bracket]))
  simp only [append_burstEvents, hidx, Nat.add_sub_cancel_left] at h ⊢
  exact ⟨_, t, rs, _, hlength, h⟩

/-- What the loop with the bursts `xs` to come leaves (R213): each has been sent in turn, and its status read. -/
def Sent (s : State) (r : Request) (ev : List Event) (rest : List Line) (g : Regs) (off : Nat) (d : List Byte)
    (xs : List (Nat × Nat)) : Prop :=
  ∃ k t rss got nb x, rss.length = xs.length ∧ (∀ rs ∈ rss, rs.length = 2) ∧
    Storing s r k (ev ++ (xs.zip rss).flatMap fun x => burstEvents s.cfg off d x.1 x.2) rest
      { g with cs := if xs = [] then g.cs else .deasserted, got := got } nb x t

/-- With nothing left the loop sends nothing. -/
theorem sent_nil {off : Nat} (h : Storing s r k ev (.burstLoop :: rest) g nb x t) (hdone : ¬ x.idx < g.buf.length) :
    Sent s r ev rest g off d [] := by
  obtain ⟨t, h⟩ := h.quiet rfl (.lastBurst hdone)
  exact ⟨_, t, [], g.got, _, _, rfl, nofun, by simpa using h⟩

/-- One burst before the others. -/
theorem sent_cons {off : Nat} {y : Nat × Nat} {ys : List (Nat × Nat)} {rs : List Byte} {got : Option Byte}
    (hlength : rs.length = 2)
    (h : Sent s r (ev ++ burstEvents s.cfg off d y rs) rest { g with cs := .deasserted, got := got } off d ys) :
    Sent s r ev rest g off d (y :: ys) := by
  obtain ⟨k, t, rss, got', nb, x, hcount, hlengths, h⟩ := h
  refine ⟨k, t, rs :: rss, got', nb, x, congrArg (· + 1) hcount, List.forall_mem_cons.mpr ⟨hlength, hlengths⟩, ?_⟩
  simpa using h

/-- The whole loop with `rem` bytes left (R213, R215): each burst in turn, when every first status read finds the device idle. -/
theorem allBursts {off fuel rem : Nat} (h : Storing s r k ev (.burstLoop :: rest) g nb ⟨cur, idx, n, polls⟩ t)
    (hm : g.mode ≠ .held) (hbuf : g.buf = d) (hidx : cur = off + idx) (hrem : idx + rem = d.length) (hfuel : rem ≤ fuel)
    (hok : Env.okNext (ev.length + 13 * (bursts s.cfg.page fuel cur rem).length) s.env = true)
    (hst : Env.statusesRead false (bursts s.cfg.page fuel cur rem).length (Env.afterBytes nb s.env)) :
    Sent s r ev rest g off d (bursts s.cfg.page fuel cur rem) := by
  have hdone : rem = 0 → ¬ idx < g.buf.length := fun hzero => by rw [hbuf]; omega
  induction fuel generalizing k t ev g nb cur idx n polls rem with
  | zero =>
    obtain rfl := Nat.le_zero.mp hfuel
    exact h.sent_nil (hdone rfl)
  | succ fuel ih =>
    rcases Nat.eq_zero_or_pos rem with rfl | hpos
    · exact h.sent_nil (hdone rfl)
    rw [bursts_succ hpos] at hok hst ⊢
    obtain ⟨hpage, -⟩ := Config.wf_facts h.wf
    obtain ⟨hone, -, hle⟩ := chunk_bounds (cur := cur) hpage hpos
    obtain ⟨t, h⟩ := h.quiet hbuf (.nextBurst (show idx < d.length by omega))
    have hsize : chunk s.cfg.page cur (d.length - idx) = chunk s.cfg.page cur rem := by
      rw [show d.length - idx = rem by omega]
    obtain ⟨k, t, rs, got, hlength, h⟩ :=
      h.burst hm (Env.okNext_le hok (by simp)) hbuf hidx (Env.statusesRead_next hst) hsize
    rw [List.length_cons, Nat.add_comm] at hst
    obtain ⟨-, hst⟩ := Env.statusesRead_add hst
    refine sent_cons hlength (ih h hm hbuf (by omega) (by omega) (by omega) (Env.okNext_le hok ?_) ?_ ?_)
    · simp [burstEvents_length]; omega
    · rw [Env.afterBytes_add]
      exact hst
    · simp only [hbuf]
      omega

/-! ### Around the bursts -/

/-- R218. -/
theorem holdRelease (h : Storing s r k ev (holdRelease ++ rest) g nb x t) (hok : Env.okNext (ev.length + 1) s.env = true) :
    ∃ t', Storing s r (k + 2) (ev ++ [.sig .hold .deasserted true]) rest
      { g with hold := .deasserted, mode := g.mode.released } nb x t' := by
  obtain ⟨t, h⟩ := h.signal hok
  exact h.quiet rfl .leaveHeld

/-- R217: the wake, when `P_SLEEP`. -/
theorem wake (h : Storing s r k ev (storeWake s.cfg ++ rest) g nb x t) (hm : g.mode ≠ .held)
    (hok : Env.okNext (ev.length + if s.cfg.sleep then 3 else 0) s.env = true) :
    ∃ k' t' ids got, Storing s r k' (ev ++ wakeEvents s.cfg ids) rest
      { g with mode := if s.cfg.sleep then .active else g.mode, cs := if s.cfg.sleep then .deasserted else g.cs, got := got }
      (nb + if s.cfg.sleep then idDummies s.cfg + 1 else 0) x t' := by
  unfold wakeEvents
  unfold storeWake at h
  cases hsleep : s.cfg.sleep with
  | true =>
    rw [hsleep] at h hok
    obtain ⟨t, ids, id, h⟩ := h.readIdentity hm hok
    obtain ⟨t, h⟩ := h.quiet rfl .setMode
    exact ⟨_, t, ids, _, h⟩
  | false =>
    rw [hsleep] at h
    exact ⟨_, t, [], g.got, by simpa using h⟩

/-- R217: the return to deep-sleep, when `P_SLEEP`. -/
theorem returnToSleep (h : Storing s r k ev (storeSleep s.cfg ++ rest) g nb x t) (hm : g.mode ≠ .held)
    (hok : Env.okNext (ev.length + if s.cfg.sleep then 3 else 0) s.env = true) :
    ∃ k' t', Storing s r k' (ev ++ sleepEvents s.cfg) rest
      { g with mode := if s.cfg.sleep then .deepSleep else g.mode, cs := if s.cfg.sleep then .deasserted else g.cs } nb x t' := by
  unfold sleepEvents
  unfold storeSleep at h
  cases hsleep : s.cfg.sleep with
  | true =>
    rw [hsleep] at h hok
    obtain ⟨t, h⟩ := h.send (i := .dpd) rfl hm hok
    obtain ⟨t, h⟩ := h.quiet rfl .setMode
    exact ⟨_, t, h⟩
  | false =>
    rw [hsleep] at h
    exact ⟨_, t, by simpa using h⟩

end Storing

/-- With the oracle at the other end an idle Ready block begins a STORE_WRITE. -/
theorem ReadyIdle.storing {s : State} (off : Nat) (d : List Byte) (hs : ReadyIdle s) (hlink : s.link = .oracle) :
    ∃ t, Storing s (.storeWrite off d) 1 [] (storeWriteLines s.cfg off d.length) { s.regs with got := none, buf := d } 0
      s.locals t := by
  obtain ⟨t, h⟩ := hs.underway (r := .storeWrite off d) rfl nofun rfl nofun nofun nofun rfl
  obtain rfl := Host.Outcome.next.inj
    (h.run.symm.trans (run_of_step (k := 0) (hs.step_store (r := .storeWrite off d) rfl (.inr rfl) rfl)))
  exact ⟨_, h, hlink, Env.sameBytes_refl _, rfl⟩

theorem bursts_eq_nil {page off len : Nat} : bursts page len off len = [] ↔ len = 0 := by
  cases len with
  | zero => simp [bursts]
  | succ len => simp [bursts]

/-- Settles O56: the bursts by induction on the payload left (`Storing.allBursts`), the lines around them one by one. -/
theorem storeWriteSendsItsBursts : Obligations.StoreWriteSendsItsBursts := by
  intro s off d hs hin hlink hok hst
  obtain ⟨t, h⟩ := hs.storing off d hlink
  rw [storeWriteLines_eq] at h
  obtain ⟨t, h⟩ := h.quiet rfl (.checkRange hin)
  obtain ⟨t, h⟩ := h.holdRelease (Env.okNext_le hok (by simp; split <;> omega))
  obtain ⟨k, t, ids, got, h⟩ := h.wake (Mode.released_ne_held _) (Env.okNext_le hok (by simp; split <;> omega))
  obtain ⟨t, h⟩ := h.quiet rfl .startCursor
  rw [Nat.zero_add] at h
  have hm : (if s.cfg.sleep then Mode.active else s.mode.released) ≠ .held := by
    split
    · nofun
    · exact Mode.released_ne_held _
  obtain ⟨k, t, rss, got, nb, x, hcount, hlengths, h⟩ := h.allBursts hm rfl rfl (Nat.zero_add _) (Nat.le_refl _)
    (Env.okNext_le hok (by simp [wakeEvents_length]; split <;> omega)) hst
  have hevents := burstsEvents_length s.cfg off d hcount
  obtain ⟨k, t, h⟩ := h.returnToSleep hm (Env.okNext_le hok (by simp [wakeEvents_length, hevents]; split <;> omega))
  obtain ⟨t, h⟩ := h.holdRelease
    (Env.okNext_le hok (by simp [wakeEvents_length, sleepEvents_length, hevents]; split <;> omega))
  refine ⟨_, _, rss, ids, h.returns, hcount, hlengths, h.done .unit rfl rfl, h.mode.trans ?_, h.hold, h.cs.trans ?_, h.buf⟩
  · cases hsleep : s.cfg.sleep with
    | true => rfl
    | false => exact Mode.released_of_ne_held (Mode.released_ne_held s.mode)
  · cases s.cfg.sleep <;> simp [bursts_eq_nil, State.regs]

end Sys2Proof.Machine
end

section
/-! An operation that ends with an error (60_exceptions.md R238, R239) and the Dead block (R249). -/

namespace Sys2Proof.Machine

/-! ### The exception entry -/

/-- `t` is what the exception entry makes of `s` (R238, R239), whatever an event that failed before it has done to chip-select,
the host buffer, the trace, the draws and the device. -/
structure ErrorEntry (e : ErrorKind) (s t : State) : Prop where
  result : t.result = some (.err e)
  pc : t.pc = .idle
  todo : t.todo = []
  got : t.got = none
  mode : t.mode = s.mode
  wp : t.wp = s.wp
  hold : t.hold = s.hold
  program : t.program = s.program
  life : t.life = (raise e s).life

theorem raise_errorEntry (e : ErrorKind) (s : State) : ErrorEntry e s (raise e s) :=
  ⟨rfl, rfl, rfl, rfl, rfl, rfl, rfl, rfl, rfl⟩

/-- The events issued before the error have no part in it. -/
theorem Ran.errorEntry {ev : List Event} {s u : State} (h : Ran ev s u) (e : ErrorKind) : ErrorEntry e s (raise e u) :=
  ⟨rfl, rfl, rfl, rfl, h.kept.mode, h.kept.wp, h.kept.hold, h.kept.program, h.raise_life e⟩

/-- What a line of an operation does to the result port (R38): nothing, the return of a value (R22), or the exception entry. -/
inductive ResultAfter (s t : State) : Prop where
  | kept (h : t.result = s.result)
  | returned (v : Value) (h : t.result = some (.ok v))
  | raised (e : ErrorKind) (h : ErrorEntry e s t)

theorem signal_resultAfter (x : Signal) (lv : Level) (s : State) : ResultAfter s ((signal x lv s).settle noValue) := by
  cases hout : s.outcome with
  | true =>
    rw [signal_ok hout]
    exact .kept (afterSignal_result x lv s)
  | false =>
    rw [signal_fail hout]
    exact .raised _ ((ran_record (.sig x lv false) s).errorEntry .signalError)

theorem exec_resultAfter {i : Instr} {s t : State} (h : exec i s = .next t) : ResultAfter s t := by
  obtain ⟨ev, u, hframe, hend⟩ := exec_frame h
  cases hend with
  | raised e he => exact .raised _ (hframe.ran.errorEntry e)
  | silent hlen hcs => exact .kept hframe.ran.result
  | kept hlen hcs hbyte b => exact .kept hframe.ran.result

theorem runLine_resultAfter {l : Line} {s t : State} (h : runLine l s = .next t) : ResultAfter s t := by
  cases l with
  | sig x lv =>
    cases h
    exact signal_resultAfter x lv s
  | frame bs =>
    simp only [runLine, runFrame] at h
    split at h
    · exact exec_resultAfter h
    · cases h
  | ret | retByte | retBuffer =>
    cases h
    exact .returned _ rfl
  | checkIdentity =>
    cases h
    unfold checkIdentity
    split
    · exact .kept rfl
    · exact .raised _ (raise_errorEntry _ s)
  | checkBusy =>
    cases h
    unfold checkBusy
    split
    · exact .raised _ (raise_errorEntry _ s)
    · exact .kept rfl
  | checkRange off len =>
    cases h
    unfold checkRange
    split
    · exact .kept rfl
    · exact .raised _ (raise_errorEntry _ s)
  | burstLoop =>
    cases h
    unfold burstLoop
    split <;> exact .kept rfl
  | testPoll =>
    cases h
    simp only [testPoll]
    split
    · split
      · exact .raised .writeTimeout ⟨rfl, rfl, rfl, rfl, rfl, rfl, rfl, rfl, rfl⟩
      · exact .kept rfl
    · exact .kept rfl
  | _ =>
    cases h
    exact .kept rfl

/-- Settles O46: a running operation takes no request, so its step runs a line, and a line that puts an error on the empty
result port has made the exception entry. -/
theorem errorEndsTheOperation : Obligations.ErrorEndsTheOperation := by
  intro s t e hbusy hnone h herr
  rcases step_result h with hacc | ⟨l, rest, -, hrun⟩ | rfl
  · exact absurd hacc.idle hbusy
  · cases runLine_resultAfter hrun with
    | kept h => cases (h.trans hnone).symm.trans herr
    | returned v h => cases h.symm.trans herr
    | raised e' h => exact ⟨h.pc, h.todo, h.got, h.mode, h.wp, h.hold, h.program, h.life⟩
  · cases hnone.symm.trans herr

/-! ### The Dead block -/

theorem Reaches.inv {s t : State} (h : Reaches s t) (hs : Inv s) : Inv t := by
  induction h with
  | refl => exact hs
  | step t u _ hstep ih => exact everyStepKeepsTheInvariant t u ih hstep

/-- A Dead block runs nothing: the block an operation runs on is Uninit or Ready (`runOk_life`). -/
theorem Inv.idle_of_dead {s : State} (h : Inv s) (hdead : s.life = .dead) : s.pc = .idle := by
  cases hpc : s.pc with
  | idle => rfl
  | op o k => rcases runOk_life (h.running hpc) with ⟨-, hlife⟩ | ⟨hlife, -⟩ <;> cases hdead.symm.trans hlife

theorem Inv.no_line_of_dead {s : State} (h : Inv s) (hdead : s.life = .dead) : s.todo = [] :=
  (h.emptyAtRest (h.idle_of_dead hdead)).2

/-- With no line to run, a Dead block can only take a request, which issues no event. -/
theorem step_of_dead {s t : State} (hInv : Inv s) (hdead : s.life = .dead) (h : Machine.step s = .next t) :
    t.trace = s.trace ∧ t.life = .dead := by
  rcases step_result h with hacc | ⟨l, rest, htodo, -⟩ | rfl
  · exact ⟨hacc.trace, hacc.life.trans hdead⟩
  · rw [hInv.no_line_of_dead hdead] at htodo
    cases htodo
  · exact ⟨rfl, hdead⟩

theorem Reaches.of_dead {s t : State} (h : Reaches s t) (hInv : Inv s) (hdead : s.life = .dead) :
    t.trace = s.trace ∧ t.life = .dead := by
  induction h with
  | refl => exact ⟨rfl, hdead⟩
  | step t u hreach hstep ih =>
    obtain ⟨htrace, hlife⟩ := ih
    obtain ⟨htrace', hlife'⟩ := step_of_dead (hreach.inv hInv) hlife hstep
    exact ⟨htrace'.trans htrace, hlife'⟩

/-- The run of a Dead block ends when nothing more is asked of it (log entry 10). -/
theorem step_dead_unasked {s : State} (hInv : Inv s) (hdead : s.life = .dead) (hport : s.port = none)
    (hprogram : s.program = []) : Machine.step s = .fault .deadBlock := by
  simp [Machine.step, advance, idleStep, hInv.wf, hInv.no_line_of_dead hdead, hdead, hport, hprogram]

/-- R180 on an idle Dead block: INIT is not for it, and it is not Ready for anything else. -/
theorem admission_dead {r : Request} {o : OpName} {s : State} (hidle : s.pc = .idle) (hdead : s.life = .dead)
    (hoperands : r.operandsOk = true) (hop : r.opName = some o) :
    admission r s = some (if o = .init then .alreadyInitialised else .notReady) := by
  by_cases ho : o = .init
  · simp [admission, hidle, Request.known_of_opName hop, hoperands, hop, ho, hdead]
  · simp [admission_op hidle hoperands hop ho, hdead, ho]

/-- Settles O44: the run by induction (`Reaches.of_dead`), the requests by what R180 makes of an idle Dead block. -/
theorem deadIsFinal : Obligations.DeadIsFinal := by
  refine ⟨fun s t hInv hdead hreach => hreach.of_dead hInv hdead, fun s => step_dead_unasked, ?_⟩
  intro s r hInv hdead hknown hoperands
  have hidle := hInv.idle_of_dead hdead
  cases hop : r.opName with
  | none => exact accept_of_admission (by simp [admission, hidle, hknown, hoperands, hop])
  | some o =>
    have hrefused := refused_of_admission (admission_dead hidle hdead hoperands hop)
    cases o <;> exact hrefused

end Sys2Proof.Machine
end

section
/-! WP after INIT (70_reset_and_hazards.md R263). -/

namespace Sys2Proof.Machine

/-- The lifecycle leaves only Uninit (R31), so a Ready block stays Ready. -/
theorem step_of_ready {s t : State} (hInv : Inv s) (hready : s.life = .ready) (h : Machine.step s = .next t) :
    t.life = .ready := by
  by_contra hmoved
  obtain ⟨huninit, -⟩ := lifecycleMovesOnlyInInit s t hInv h (fun hsame => hmoved (hsame.trans hready))
  cases hready.symm.trans huninit

theorem Reaches.of_ready {s t : State} (h : Reaches s t) (hInv : Inv s) (hready : s.life = .ready) : t.life = .ready := by
  induction h with
  | refl => exact hready
  | step t u hreach hstep ih => exact step_of_ready (hreach.inv hInv) ih hstep

/-- INIT has deasserted WP before it makes the block Ready, and no line of a plan that may run asserts it. -/
theorem Inv.wp_deasserted {s : State} (h : Inv s) (hready : s.life = .ready) : s.wp = .deasserted := by
  obtain ⟨-, -, -, hwp⟩ := h
  exact (hwp hready).1

/-- Settles O42: the block stays Ready along the run (`Reaches.of_ready`), and the invariant, which the run keeps, has WP
deasserted in every Ready block. -/
theorem writeProtectStaysDeasserted : Obligations.WriteProtectStaysDeasserted := by
  intro s t hInv hready hreach
  have hready' : t.life = .ready := hreach.of_ready hInv hready
  exact ⟨hready', (hreach.inv hInv).wp_deasserted hready'⟩

end Sys2Proof.Machine
end

section
/-! The decoder and the encoder are each other's inverse (30_encoding.md R104 to R106, R109), and no other bytes are a frame. -/

namespace Sys2Proof

/-- Settles O6: `decode_encode`, whose one hypothesis on the configuration is the injective opcode map (R12). -/
theorem decodeOfEncodeIsTheInstruction : Obligations.DecodeOfEncodeIsTheInstruction :=
  fun _ i hinj => decode_encode hinj i

/-! ### What a format reads -/

theorem decodeBare_eq_ok {i : Opcode} {r j : Instr} {rest : List Byte} :
    decodeBare i r rest = .ok j ↔ rest = [] ∧ r = j := by
  cases rest <;> simp [decodeBare]

theorem decodeDummies_eq_ok {i : Opcode} {n : Nat} {r j : Instr} {rest : List Byte} :
    decodeDummies i n r rest = .ok j ↔ rest = zeroBytes n ∧ r = j := by
  unfold decodeDummies
  split
  · next hlen =>
    have hne : rest ≠ zeroBytes n := fun h => hlen (by simp [h, zeroBytes])
    simp [hne]
  · split
    · next hne => simp [hne]
    · next heq => simp [not_not.mp heq]

theorem decodeValue_eq_ok {i : Opcode} {f : Byte → Instr} {j : Instr} {rest : List Byte} :
    decodeValue i f rest = .ok j ↔ ∃ v, rest = [v] ∧ f v = j := by
  unfold decodeValue
  split
  · simp
  · next hne => simpa using fun v hv => absurd hv (hne v)

/-- The address read from a header is the one whose header it is (R101, R105). -/
theorem header_addrOf (m : OpcodeMap) (i : Opcode) (b2 b1 b0 : Byte) :
    header m i (addrOf b2 b1 b0) = [m.get i, b2, b1, b0] := by
  obtain ⟨h2, h1, h0⟩ := bytes_addrOf b2 b1 b0
  rw [header_eq, h2, h1, h0]

theorem header_of_decodeAddr {i : Opcode} {f : Addr → Instr} {j : Instr} {rest : List Byte}
    (h : decodeAddr i f rest = .ok j) (m : OpcodeMap) : ∃ a, f a = j ∧ header m i a = m.get i :: rest := by
  unfold decodeAddr at h
  split at h
  · exact ⟨_, Except.ok.inj h, header_addrOf m i _ _ _⟩
  · cases h

theorem header_of_decodeAddrData {i : Opcode} {f : Addr → List Byte → Instr} {j : Instr} {rest : List Byte}
    (h : decodeAddrData i f rest = .ok j) (m : OpcodeMap) :
    ∃ a d, f a d = j ∧ header m i a ++ d = m.get i :: rest := by
  unfold decodeAddrData at h
  split at h
  · next b2 b1 b0 d => exact ⟨_, d, Except.ok.inj h, by rw [header_addrOf]; rfl⟩
  · cases h

/-- What follows the opcode byte of `i` and is read in the format of `i` is the rest of the frame of the instruction read. -/
theorem encode_of_decodeBody {c : Config} {i : Opcode} {rest : List Byte} {j : Instr} (h : decodeBody c i rest = .ok j) :
    encode c j = c.opc.get i :: rest := by
  cases i with
  | read | write =>
    obtain ⟨a, d, rfl, hbytes⟩ := header_of_decodeAddrData h c.opc
    exact hbytes
  | pageErase | sectorErase | chipErase =>
    obtain ⟨a, rfl, hbytes⟩ := header_of_decodeAddr h c.opc
    exact hbytes
  | writeEnable | writeDisable | deepSleep =>
    obtain ⟨rfl, rfl⟩ := decodeBare_eq_ok.mp h
    rfl
  | readStatus | releasePowerDown =>
    obtain ⟨rfl, rfl⟩ := decodeDummies_eq_ok.mp h
    rfl
  | writeStatus =>
    obtain ⟨v, rfl, rfl⟩ := decodeValue_eq_ok.mp h
    rfl

/-- Settles O7: byte 0 is the opcode byte of the instruction found (`opcodeOf_some`), and the rest is read in its format
(`encode_of_decodeBody`). -/
theorem encodeOfDecodeIsTheFrame : Obligations.EncodeOfDecodeIsTheFrame := by
  intro c bs j h
  cases bs with
  | nil => cases h
  | cons b rest =>
    simp only [decode] at h
    split at h
    · cases h
    · next i hfound => rw [encode_of_decodeBody h, opcodeOf_some hfound]

/-! ### Bytes that begin no frame -/

theorem opcodeOf_none {m : OpcodeMap} {b : Byte} (h : ∀ i, m.get i ≠ b) : opcodeOf m b = none :=
  List.find?_eq_none.mpr fun i _ => by simpa using h i

theorem head?_encode (c : Config) (i : Instr) : (encode c i).head? = some (c.opc.get i.opcode) := by
  rw [Machine.encode_eq_cons, List.head?_cons]

/-- Settles O10: the decoder finds no instruction for the byte (`opcodeOf_none`), and a frame begins with the opcode byte of
its instruction (`head?_encode`). -/
theorem noFrameBeginsWithAnotherByte : Obligations.NoFrameBeginsWithAnotherByte := by
  intro c b rest hnone
  refine ⟨by simp only [decode, opcodeOf_none hnone], fun i hhead => hnone i.opcode ?_⟩
  exact Option.some.inj ((head?_encode c i).symm.trans hhead)

/-- Settles O9: the closed words, evaluated. -/
theorem tableWordsDecode : Obligations.TableWordsDecode :=
  ⟨rfl, rfl, rfl, rfl, rfl, rfl, rfl, rfl, rfl, rfl, rfl, rfl, rfl⟩

end Sys2Proof
end

section
/-! The combinational requests (40_encoder_and_status.md R133 to R141) and the protection codes they read and write (R107). -/

namespace Sys2Proof.Machine

/-- Settles O4: the two maps by `codeOf_levelOf` and `levelOf_codeOf`; the codes and the field are those of the definitions. -/
theorem protectionCodesCoverTwoBits : Obligations.ProtectionCodesCoverTwoBits :=
  ⟨codeOf_levelOf, levelOf_codeOf, rfl, rfl, rfl, rfl, fun _ => rfl⟩

/-! ### The codec on a byte operand -/

theorem getLsbD_byteField {b k : Nat} (hk : k < 8) : (byteField b).getLsbD k = b.testBit k := by
  rw [byteField, BitVec.getLsbD_ofNat, decide_eq_true hk, Bool.true_and]

/-- Bits 3:2 of the number are its quarter's low two bits (R135). -/
theorem srPl_byteField (b : Nat) : srPl (byteField b) = levelOf (BitVec.ofNat 2 (b / 4)) := by
  refine srPl_eq_levelOf fun k hk => ?_
  rw [getLsbD_byteField (by omega), BitVec.getLsbD_ofNat, show b / 4 = b / 2 ^ 2 from rfl, Nat.testBit_div_two_pow]
  simp [hk, Nat.add_comm]

/-- A bit operand as the byte whose bit 0 it is (R114, R138). -/
theorem srSetWpen_bit (b : Byte) {e : Nat} (he : e < 2) :
    srSetWpen b (e == 1) = (b &&& 0x7F#8) ||| (BitVec.ofNat 8 e <<< 7) := by
  interval_cases e <;> rfl

/-! ### Requests answered at once -/

/-- R141: an idle block admits a combinational request in every life and mode, and nothing but the result port changes. -/
theorem accept_combinational {r : Request} {v : Value} {s : State} (hidle : s.pc = .idle) (hknown : r.known = true)
    (hoperands : r.operandsOk = true) (hop : r.opName = none) (hstart : start r s = answer v s) :
    accept r s = .next { s with result := some (.ok v) } := by
  have hadmitted : admission r s = none := by simp [admission, hidle, hknown, hoperands, hop]
  rw [accept_of_admission hadmitted, hstart, answer]

/-- Settles O5: each request is admitted (`accept_combinational`), and its value is what the codec, or the encoder, gives on the
operand as a field. -/
theorem combinationalRequestsAnswerAnywhere : Obligations.CombinationalRequestsAnswerAnywhere := by
  intro s
  refine ⟨fun hidle => ⟨fun b hb => ?_, fun b hb => ?_, fun b hb => ?_, fun b hb => ?_, fun b l hb => ?_, fun b e hb he => ?_,
    fun i a ha => ?_⟩, fun hbusy r => refused_of_admission (if_pos hbusy)⟩
  · rw [← getLsbD_byteField (by omega)]
    exact accept_combinational hidle rfl (decide_eq_true hb) rfl rfl
  · rw [← getLsbD_byteField (by omega)]
    exact accept_combinational hidle rfl (decide_eq_true hb) rfl rfl
  · rw [← getLsbD_byteField (by omega)]
    exact accept_combinational hidle rfl (decide_eq_true hb) rfl rfl
  · rw [← srPl_byteField]
    exact accept_combinational hidle rfl (decide_eq_true hb) rfl rfl
  · exact accept_combinational hidle rfl (by simpa [Request.operandsOk] using hb) rfl rfl
  · rw [← srSetWpen_bit _ he]
    exact accept_combinational hidle rfl (by simpa [Request.operandsOk] using ⟨hb, Nat.le_of_lt_succ he⟩) rfl rfl
  · exact accept_combinational hidle rfl (by simpa [Request.operandsOk] using ha) rfl rfl

end Sys2Proof.Machine
end

section
/-! The configuration is fixed (00_scope.md section 3), and the invariant holds after reset (10_state.md R47). -/

namespace Sys2Proof.Machine

/-! ### Lines that test something -/

@[simp] theorem checkIdentity_cfg (s : State) : (checkIdentity s).cfg = s.cfg := by
  unfold checkIdentity
  split <;> rfl

@[simp] theorem checkBusy_cfg (s : State) : (checkBusy s).cfg = s.cfg := by
  unfold checkBusy
  split <;> rfl

@[simp] theorem checkRange_cfg (off len : Nat) (s : State) : (checkRange off len s).cfg = s.cfg := by
  unfold checkRange
  split <;> rfl

@[simp] theorem burstLoop_cfg (s : State) : (burstLoop s).cfg = s.cfg := by
  unfold burstLoop
  split <;> rfl

@[simp] theorem testPoll_cfg (s : State) : (testPoll s).cfg = s.cfg := by
  simp only [testPoll]
  split
  · split <;> rfl
  · rfl

/-! ### Every step -/

@[simp] theorem signal_settle_cfg (x : Signal) (l : Level) (s : State) :
    ((signal x l s).settle noValue).cfg = s.cfg := by
  cases h : s.outcome with
  | true => rw [signal_ok h]; exact afterSignal_cfg x l s
  | false => rw [signal_fail h]; rfl

/-- A line leaves the configuration: a frame by what every instruction leaves (`instructionRegisterFrame`). -/
theorem runLine_cfg {l : Line} {s t : State} (h : runLine l s = .next t) : t.cfg = s.cfg := by
  cases l with
  | frame bs =>
    simp only [runLine, runFrame] at h
    split at h
    · obtain ⟨hkept, -⟩ := instructionRegisterFrame _ s t h
      exact hkept.cfg
    · cases h
  | sig x lv => cases h; exact signal_settle_cfg x lv s
  | checkIdentity => cases h; exact checkIdentity_cfg s
  | checkBusy => cases h; exact checkBusy_cfg s
  | checkRange off len => cases h; exact checkRange_cfg off len s
  | burstLoop => cases h; exact burstLoop_cfg s
  | testPoll => cases h; exact testPoll_cfg s
  | _ => cases h; rfl

theorem accept_cfg {r : Request} {s t : State} (h : accept r s = .next t) : t.cfg = s.cfg := by
  obtain ⟨-, hadm, rfl⟩ := accept_next h
  obtain ⟨-, hknown, hoperands, -⟩ := admit_none hadm
  rcases start_cases hknown hoperands with ⟨-, v, hstart⟩ | ⟨o, lines, buf, -, hstart⟩ <;> rw [hstart] <;> rfl

/-- Settles O36: neither a request (`accept_cfg`) nor a line (`runLine_cfg`) changes the configuration. -/
theorem configurationNeverChanges : Obligations.ConfigurationNeverChanges := by
  intro s t h
  obtain ⟨-, hcases⟩ := step_cases h
  rcases hcases with ⟨r, -, hacc⟩ | ⟨l, rest, -, -, hrun⟩ | ⟨r, rest, -, -, -, hacc⟩ | ⟨-, -, -, -, rfl⟩
  · exact accept_cfg (s := { s with port := none }) hacc
  · exact runLine_cfg (s := { s with todo := rest }) hrun
  · exact accept_cfg (s := { s with program := rest }) hacc
  · rfl

/-! ### Reset -/

/-- The reset block is idle with nothing kept, its mode and its outputs unknown, and not Ready (R47). -/
theorem inv_resetWith {c : Config} (hwf : c.wf = true) : Inv (State.resetWith c) :=
  ⟨hwf, trivial, ⟨rfl, rfl, rfl, fun _ => nofun⟩, nofun⟩

/-- Settles O32: `State.reset` is the reset state under C0, which is well formed. -/
theorem resetMeetsTheInvariant : Obligations.ResetMeetsTheInvariant :=
  ⟨fun _ => inv_resetWith, inv_resetWith (by decide)⟩

end Sys2Proof.Machine
end
